-- ==== Sys2Proof/Word.lean ====
section
/-! DEFINITION. The words of the QOI codec core: bytes, 32-bit words, pixels and cache slot numbers
(spec/00_scope.md rules R9, R10, R13). Their arithmetic is in Machine/Operands.lean. -/

namespace Sys2Proof

/-- A byte: 8 bits, bit 0 the least significant (rule R9). -/
abbrev Byte := BitVec 8

/-- A 32-bit word: a register of the register block (rule R35), a word of the pixel memory (rule R61). -/
abbrev Word := BitVec 32

/-- A pixel: "4 ordered byte channels (R, G, B, A)" (rule R10). -/
structure Pixel where
  r : Byte
  g : Byte
  b : Byte
  a : Byte
  deriving DecidableEq, Repr, Inhabited

/-- The number of a slot of the color cache, 0..63 (rules R7, R33). -/
abbrev Slot := Fin 64

end Sys2Proof
end

