-- ==== Sys2Proof/Config.lean ====
section
/-! DEFINITION. What one implementation fixes (the open parameters of spec/00_scope.md rule R8 and
spec/92_eei_decisions.md D3, D6) and the free values: what spec/93_implementation_defined.md U1 to U5 call
"any value". The parameters are plain data that the state carries and no step changes; a claim about every
state is therefore a claim for every value of them. -/

namespace Sys2Proof

/-- The four bytes of `QOI_MAGIC`, in stream order (rules R8, R100). -/
structure Magic where
  m0 : Byte
  m1 : Byte
  m2 : Byte
  m3 : Byte
  deriving DecidableEq, Repr

/-- `QOI_MAGIC[0..3]` as the four bytes at stream offsets 0..3 (rules R90, R100). -/
def Magic.bytes (m : Magic) : List Byte := [m.m0, m.m1, m.m2, m.m3]

/-- The open parameters of rule R8. -/
structure Config where
  /-- `PX_CAP`: capacity of the pixel memory, in pixels. -/
  pxCap : Nat
  /-- `BS_CAP`: capacity of the stream memory, in bytes. -/
  bsCap : Nat
  /-- `QOI_MAGIC`: the magic constant of the header. -/
  magic : Magic
  deriving DecidableEq, Repr

/-- The constraints rule R8 puts on the parameters: 1 ≤ `PX_CAP` < 2^32 and 23 ≤ `BS_CAP` < 2^32. -/
abbrev Config.wf (c : Config) : Prop :=
  1 ≤ c.pxCap ∧ c.pxCap < 2 ^ 32 ∧ 23 ≤ c.bsCap ∧ c.bsCap < 2 ^ 32

/-- The parameters `State.reset` carries. The capacities are the largest rule R8 allows
(DESIGN CHOICE, notes/assumptions/2.md); the magic is the default `71 6F 69 66` of rule R8, which the spec
marks as general knowledge (PRESUMED, notes/assumptions/3.md). -/
def Config.standard : Config where
  pxCap := 4294967295
  bsCap := 4294967295
  magic := ⟨0x71, 0x6F, 0x69, 0x66⟩

/-! ## Free values

Each is an uninterpreted constant applied to the number of a draw (the counter `State.draws`), so that no two
draws are known to agree and nothing can be proved about one value (notes/assumptions/4.md). -/

/-- What the byte at an offset of the stream memory holds by a draw (rules R46, R283; U2, U3). -/
opaque Config.freeStreamByte : (draw offset : Nat) → Byte

/-- What the word at an index of the pixel memory holds by a draw (rules R46, R283; U2, U3). -/
opaque Config.freePixelWord : (draw index : Nat) → Word

/-- `PREV` by a draw (rules R46, R283; U1, U4). -/
opaque Config.freePrev : (draw : Nat) → Pixel

/-- `RUN_CNT` by a draw: one of its values 0..62 (rules R20, R23, R46, R283; U1, U4, U5). -/
opaque Config.freeRunCnt : (draw : Nat) → Fin 63

/-- `PX_PTR` by a draw (rules R46, R283; U1, U4). -/
opaque Config.freePxPtr : (draw : Nat) → Word

/-- `BS_PTR` by a draw (rules R46, R283; U1, U4). -/
opaque Config.freeBsPtr : (draw : Nat) → Word

/-- The 64 cache slots by a draw (rules R46, R283; U1, U4). -/
opaque Config.freeCache : (draw : Nat) → Vector Pixel 64

/-- `L` by a draw (rule R46; U1). -/
opaque Config.freeL : (draw : Nat) → Word

/-- `E` by a draw (rule R46; U1). -/
opaque Config.freeE : (draw : Nat) → Word

/-- `N` by a draw (rule R46; U1). -/
opaque Config.freeN : (draw : Nat) → Word

/-- `HDR_W` by a draw (rule R46; U1). -/
opaque Config.freeHdrW : (draw : Nat) → Word

/-- `HDR_H` by a draw (rule R46; U1). -/
opaque Config.freeHdrH : (draw : Nat) → Word

/-- `HDR_C` by a draw (rule R46; U1). -/
opaque Config.freeHdrC : (draw : Nat) → Byte

/-- `HDR_S` by a draw (rule R46; U1). -/
opaque Config.freeHdrS : (draw : Nat) → Byte

end Sys2Proof
end

