-- ==== Sys2Proof/Machine/State.lean ====
section
/-! DEFINITION. Everything the spec gives the block (spec/10_state.md rule R20, spec/20_memory.md rule R60), the host's
pending moves (spec/43_host_interface.md rule R250), and the reasons a step can stop. Plain data throughout. -/

namespace Sys2Proof.Machine

/-- `STATE`, the pass state machine (rule R29). -/
inductive PassState where
  /-- No pass has run since power-on reset. -/
  | idle
  /-- An encode pass is running. -/
  | enc
  /-- A decode pass is running. -/
  | dec
  /-- The last pass completed. -/
  | done
  /-- The last pass failed; `ERRCODE` names the error. -/
  | err
  deriving DecidableEq, Repr

/-- `CTRL.MODE` (rule R36): bit value 0 is encode, 1 is decode. -/
inductive Mode where
  | encode
  | decode
  deriving DecidableEq, Repr

/-- The block's errors (rule R281). An error is no fault of the model: raising one gives a next state in ERR. -/
inductive QoiError where
  | badMagic
  | badChannels
  | badColorspace
  | badWidth
  | badHeight
  | truncated
  | overrun
  | endMarker
  | capacity
  deriving DecidableEq, Repr

/-- Where an error is raised; it decides which memory range turns unspecified (rule R283). -/
inductive ErrorSite where
  /-- A start check. -/
  | start
  /-- An encoder pixel step or tail step. -/
  | encStep
  /-- A decoder chunk step or finish step. -/
  | decStep
  deriving DecidableEq, Repr

/-- A memory of the block. `cells` lists the locations written since they were last drawn, addresses strictly rising.
`layers` holds pairs (size, draw number), sizes strictly rising: an unlisted address below a layer's size, and below no
earlier layer's, reads as that layer's draw; an address below no layer reads as draw 0, the power-on contents
(rules R46, R283; notes/assumptions/4.md, 5.md). -/
structure Mem (α : Type) where
  cells : List (Nat × α)
  layers : List (Nat × Nat)
  deriving DecidableEq, Repr

/-- The stream memory: bytes by offset (rules R64, R65). -/
abbrev StreamMem := Mem Byte

/-- The pixel memory: 32-bit words by pixel index (rules R61, R63). -/
abbrev PixelMem := Mem Word

/-- A memory with nothing listed. -/
def Mem.empty {α : Type} : Mem α := ⟨[], []⟩

/-- The number of a register of the register block, 0..63 (rule R35). -/
abbrev RegNum := Fin 64

/-- One access of the host (rules R250 to R255): one register, one pixel word or one byte (rule R69). -/
inductive HostOp where
  | readReg (r : RegNum)
  | writeReg (r : RegNum) (v : Word)
  | readPixel (i : Nat)
  | writePixel (i : Nat) (w : Word)
  | readStream (a : Nat)
  | writeStream (a : Nat) (b : Byte)
  deriving DecidableEq, Repr

/-- Who moves next (rule R250): the host with one access, the pipeline with one step, or the power-on reset of rules R30
and R320. -/
inductive Turn where
  | host (op : HostOp)
  | pipeline
  | powerOn
  deriving DecidableEq, Repr

/-- What a read gave the host. -/
inductive HostAnswer where
  | register (r : RegNum) (v : Word)
  | pixel (i : Nat) (w : Word)
  | byte (a : Nat) (b : Byte)
  deriving DecidableEq, Repr

/-- The state. The first group is the block's, as rule R20 lists it; the last group is the model's own
(INVENTORY.md, State). `CHANNELS` and `COLORSPACE` are held as their bits [7:0], bits [31:8] being hard-wired 0
(rules R40, R41); `CTRL` is held as its MODE field, `STATUS` is computed from `pass` and `errcode` (rules R36, R37). -/
structure State where
  /-- `STATE` (rule R29). -/
  pass : PassState
  /-- `CTRL.MODE` (rule R36). -/
  mode : Mode
  /-- `ERRCODE` (rules R20, R37). -/
  errcode : BitVec 4
  /-- `WIDTH` (rule R38). -/
  width : Word
  /-- `HEIGHT` (rule R39). -/
  height : Word
  /-- `CHANNELS[7:0]` (rule R40). -/
  channels : Byte
  /-- `COLORSPACE[7:0]` (rule R41). -/
  colorspace : Byte
  /-- `IN_LEN` (rule R42). -/
  inLen : Word
  /-- `OUT_LEN` (rule R43). -/
  outLen : Word
  /-- `PREV` (rule R22). -/
  prev : Pixel
  /-- `RUN_CNT` (rule R23). -/
  runCnt : BitVec 6
  /-- `PX_PTR` (rule R24). -/
  pxPtr : Word
  /-- `BS_PTR` (rule R25). -/
  bsPtr : Word
  /-- `N` (rule R26). -/
  n : Word
  /-- `L` (rule R27). -/
  l : Word
  /-- `E` (rule R27). -/
  e : Word
  /-- `HDR_W` (rule R28). -/
  hdrW : Word
  /-- `HDR_H` (rule R28). -/
  hdrH : Word
  /-- `HDR_C` (rule R28). -/
  hdrC : Byte
  /-- `HDR_S` (rule R28). -/
  hdrS : Byte
  /-- `CACHE[0..63]` (rule R33). -/
  cache : Vector Pixel 64
  /-- `PX`, the pixel memory (rule R61). -/
  px : PixelMem
  /-- `BS`, the stream memory (rule R64). -/
  bs : StreamMem
  /-- The open parameters of rule R8; no step changes them. -/
  cfg : Config
  /-- The number of the next draw of free values (the model's own). -/
  draws : Nat
  /-- The moves to come, first one first (the model's own; rules R30, R250). -/
  turns : List Turn
  /-- What the host's reads gave, latest first (the model's own). -/
  answers : List HostAnswer
  deriving DecidableEq, Repr

/-- The machine right after power-on reset (rules R46, R320): `STATE` = IDLE, every register of the register block 0, both
memories as drawn at power-on (draw 0). The spec gives no value to the datapath registers and the cache; this state
names 0 for each (DESIGN CHOICE, notes/assumptions/1.md). -/
def State.reset : State where
  pass := .idle
  mode := .encode
  errcode := 0
  width := 0
  height := 0
  channels := 0
  colorspace := 0
  inLen := 0
  outLen := 0
  prev := ⟨0, 0, 0, 0⟩
  runCnt := 0
  pxPtr := 0
  bsPtr := 0
  n := 0
  l := 0
  e := 0
  hdrW := 0
  hdrH := 0
  hdrC := 0
  hdrS := 0
  cache := Vector.replicate 64 ⟨0, 0, 0, 0⟩
  px := Mem.empty
  bs := Mem.empty
  cfg := Config.standard
  draws := 1
  turns := []
  answers := []

/-- Reasons the machine stops with a fault. Both are raised where a pipeline step would access a location the spec says
does not exist (rules R63, R65), which rules R24, R26 and R201 say no running pass does; the step function raises them only
in states no run reaches. Safe: the model stops where the spec gives no effect. -/
inductive Fault where
  /-- A pipeline step at a pixel index ≥ `PX_CAP` (rule R63). Raised by the encoder's pixel read and the decoder's pixel
  writes. Safe. -/
  | pixelIndexOutOfRange
  /-- A pipeline step at a stream offset ≥ `BS_CAP` (rule R65). Raised by the decoder's chunk fetch. Safe. -/
  | streamOffsetOutOfRange
  deriving DecidableEq, Repr

/-- Reasons a step is refused. -/
inductive Refusal where
  /-- Raised by an arm of `exec` whose instruction has no meaning yet; no arm does. Safe. -/
  | notModelled (mnemonic : String)
  /-- Raised by a host access to `PX` or `BS` while a pass runs, a breach of the host's duty the spec gives a model no move
  for (rule R255, U6). Safe. -/
  | hostMemoryAccessWhileBusy
  deriving DecidableEq, Repr

end Sys2Proof.Machine
end

