-- ==== Sys2Proof/Machine/Flags.lean ====
section
/-! DEFINITION. The block's only flags, the fields of `STATUS`, and the other register values a host reads
(spec/10_state.md rules R32, R35 to R45). -/

namespace Sys2Proof.Machine

/-- The error codes of rule R281. -/
def QoiError.code : QoiError → BitVec 4
  | .badMagic => 1
  | .badChannels => 2
  | .badColorspace => 3
  | .badWidth => 4
  | .badHeight => 5
  | .truncated => 6
  | .overrun => 7
  | .endMarker => 8
  | .capacity => 9

/-- `STATUS.BUSY`: a pass runs (rule R37). -/
def State.busy (s : State) : Bool :=
  match s.pass with
  | .enc => true
  | .dec => true
  | .idle => false
  | .done => false
  | .err => false

/-- `STATUS.DONE` (rule R37). -/
def State.doneFlag (s : State) : Bool := decide (s.pass = .done)

/-- `STATUS.ERR` (rule R37). -/
def State.errFlag (s : State) : Bool := decide (s.pass = .err)

/-- `STATUS.ERRCODE`: the error code when ERR = 1, else 0 (rule R37). -/
def State.errField (s : State) : BitVec 4 := if s.errFlag then s.errcode else 0

/-- `STATUS`: ERRCODE in [7:4], ERR, DONE, BUSY in bits 2, 1, 0, every other bit 0 (rule R37). -/
def statusWord (s : State) : Word :=
  (0 : BitVec 24) ++ s.errField ++ (0 : BitVec 1) ++ BitVec.ofBool s.errFlag ++ BitVec.ofBool s.doneFlag
    ++ BitVec.ofBool s.busy

/-- `CTRL.MODE` from its bit (rule R36). -/
def modeOfBit (b : Bool) : Mode := if b then .decode else .encode

/-- `CTRL` as it reads: MODE in bit 1, START and the reserved bits 0 (rules R36, R251). -/
def ctrlWord (s : State) : Word :=
  match s.mode with
  | .encode => 0
  | .decode => 2

/-- The registers of the block by their numbers (rule R35). -/
inductive Reg where
  | ctrl | status | width | height | channels | colorspace | inLen | outLen
  /-- Numbers 8 to 63 (rule R44). -/
  | reserved
  deriving DecidableEq, Repr

/-- The register a number names (rule R35). -/
def regOf (r : RegNum) : Reg :=
  match r.val with
  | 0 => .ctrl
  | 1 => .status
  | 2 => .width
  | 3 => .height
  | 4 => .channels
  | 5 => .colorspace
  | 6 => .inLen
  | 7 => .outLen
  | _ => .reserved

/-- The value a host read of register `r` returns (rule R251). -/
def readReg (s : State) (r : RegNum) : Word :=
  match regOf r with
  | .ctrl => ctrlWord s
  | .status => statusWord s
  | .width => s.width
  | .height => s.height
  | .channels => s.channels.setWidth 32
  | .colorspace => s.colorspace.setWidth 32
  | .inLen => s.inLen
  | .outLen => s.outLen
  | .reserved => 0

end Sys2Proof.Machine
end

