-- ==== Sys2Proof/Machine/Operands.lean ====
section
/-! DEFINITION. The arithmetic of the operands: pixel words, channel differences and reconstructions, the cache hash, the
big-endian packing, and the fixed pixels and bytes (spec/00_scope.md rules R7, R10 to R12; spec/40_color_cache.md
rule R130). -/

namespace Sys2Proof.Machine

/-- `INIT_PREV` = (0,0,0,255) (rule R7). -/
def initPrev : Pixel := ⟨0, 0, 0, 255⟩

/-- `INIT_SLOT` = (0,0,0,0) (rule R7). -/
def initSlot : Pixel := ⟨0, 0, 0, 0⟩

/-- The end marker: seven 0x00 bytes, then one 0x01 byte (rules R7, R101). -/
def endMarker : List Byte := [0x00, 0x00, 0x00, 0x00, 0x00, 0x00, 0x00, 0x01]

/-- `v[8j+7:8j]`, byte `j` of a word counted from the least significant. -/
def byteOf (v : Word) (j : Nat) : Byte := BitVec.extractLsb' (8 * j) 8 v

/-- `b3 || b2 || b1 || b0` as one word. -/
def joinBytes (b3 b2 b1 b0 : Byte) : Word := b3 ++ b2 ++ b1 ++ b0

/-- `pix32(p) = p.r || p.g || p.b || p.a` (rule R10). -/
def pix32 (p : Pixel) : Word := joinBytes p.r p.g p.b p.a

/-- `unpix32(w) = (w[31:24], w[23:16], w[15:8], w[7:0])` (rule R63). -/
def unpix32 (w : Word) : Pixel := ⟨byteOf w 3, byteOf w 2, byteOf w 1, byteOf w 0⟩

/-- `be32(v) = (v[31:24], v[23:16], v[15:8], v[7:0])` (rule R12). -/
def be32 (v : Word) : List Byte := [byteOf v 3, byteOf v 2, byteOf v 1, byteOf v 0]

/-- `d8(x, y) = sext_8((x - y) mod 256)`, in [-128, 127] (rule R11). -/
def d8 (x y : Byte) : Int := (x - y).toInt

/-- `(x + d) mod 256`, a channel reconstruction (rule R11). -/
def addDelta (x : Byte) (d : Int) : Byte := x + BitVec.ofInt 8 d

/-- The pixel `PREV + (dr, dg, db)` with `PREV`'s alpha (rules R206, R210, R211). -/
def deltaPixel (prev : Pixel) (dr dg db : Int) : Pixel :=
  ⟨addDelta prev.r dr, addDelta prev.g dg, addDelta prev.b db, prev.a⟩

/-- `hash(p) = (p.r*3 + p.g*5 + p.b*7 + p.a*11) mod 64` on unsigned bytes (rule R130). -/
def pixelHash (p : Pixel) : Slot :=
  Fin.ofNat 64 (p.r.toNat * 3 + p.g.toNat * 5 + p.b.toNat * 7 + p.a.toNat * 11)

end Sys2Proof.Machine
end

