-- ==== Sys2Proof/Machine/Ops.lean ====
section
/-! DEFINITION. The named operations over memory and registers that every step uses: the two memories
(spec/20_memory.md), the color cache (spec/40_color_cache.md), raising an error (spec/60_exceptions.md rule R283), and what
leads out of one, the pass reset of a START (spec/70_reset_and_hazards.md rule R321). -/

namespace Sys2Proof.Machine

/-! ## Memories -/

/-- The value listed at an address. -/
def lookupCell {α : Type} : List (Nat × α) → Nat → Option α
  | [], _ => none
  | c :: rest, a => if a = c.1 then some c.2 else lookupCell rest a

/-- List a value at an address, keeping addresses strictly rising. -/
def insertCell {α : Type} : List (Nat × α) → Nat → α → List (Nat × α)
  | [], a, v => [(a, v)]
  | c :: rest, a, v =>
    if a < c.1 then (a, v) :: c :: rest
    else if a = c.1 then (a, v) :: rest
    else c :: insertCell rest a v

/-- The number of the draw an unlisted address holds: that of the first layer above it, else 0, the power-on draw. -/
def drawAt : List (Nat × Nat) → Nat → Nat
  | [], _ => 0
  | y :: rest, a => if a < y.1 then y.2 else drawAt rest a

/-- The value at an address, `free` giving the drawn values. -/
def Mem.read {α : Type} (free : Nat → Nat → α) (m : Mem α) (a : Nat) : α :=
  match lookupCell m.cells a with
  | some v => v
  | none => free (drawAt m.layers a) a

/-- Write one location (rules R63, R65). -/
def Mem.write {α : Type} (m : Mem α) (a : Nat) (v : α) : Mem α :=
  { m with cells := insertCell m.cells a v }

/-- Write a list of values at `a`, `a+1`, ... (rule R65). -/
def Mem.writeList {α : Type} (m : Mem α) (a : Nat) : List α → Mem α
  | [] => m
  | v :: vs => (m.write a v).writeList (a + 1) vs

/-- Write one value at `k` consecutive locations from `a` on (rule R209). -/
def Mem.fill {α : Type} (m : Mem α) (a : Nat) (v : α) : Nat → Mem α
  | 0 => m
  | k + 1 => (m.write a v).fill (a + 1) v k

/-- Give every location below `size` an unspecified value, that of draw `d` (rule R283). -/
def Mem.drawBelow {α : Type} (m : Mem α) (size d : Nat) : Mem α :=
  if size = 0 then m
  else
    { cells := m.cells.filter fun c => decide (size ≤ c.1)
      layers := (size, d) :: m.layers.filter fun y => decide (size < y.1) }

/-- The canonical form: addresses strictly rising; layer sizes strictly rising and above 0. -/
abbrev Mem.wf {α : Type} (m : Mem α) : Prop :=
  m.cells.Pairwise (fun c c' => c.1 < c'.1) ∧ m.layers.Pairwise (fun y y' => y.1 < y'.1) ∧
    ∀ y ∈ m.layers, 0 < y.1

/-- The byte at an offset of the stream memory. -/
def State.streamByte (s : State) (a : Nat) : Byte := s.bs.read Config.freeStreamByte a

/-- The word at an index of the pixel memory. -/
def State.pixelWord (s : State) (i : Nat) : Word := s.px.read Config.freePixelWord i

/-- `MemRead(PX, i, 4)` for `i` inside the memory: the pixel at an index (rule R63). -/
def State.pixelAt (s : State) (i : Nat) : Pixel := unpix32 (s.pixelWord i)

/-- `MemRead(BS, a, n)` for a range inside the memory: `n` bytes, first byte first (rule R65). -/
def State.streamBytes (s : State) (a : Nat) : (n : Nat) → List Byte
  | 0 => []
  | n + 1 => s.streamByte a :: s.streamBytes (a + 1) n

/-- A big-endian word of the stream memory (rules R12, R66). -/
def State.streamWord (s : State) (a : Nat) : Word :=
  joinBytes (s.streamByte a) (s.streamByte (a + 1)) (s.streamByte (a + 2)) (s.streamByte (a + 3))

/-! ## Steps that may end early -/

/-- Why a step ends before its last line. -/
inductive Stop where
  /-- `raise QoiError(code)`, with the state at that point. -/
  | error (c : QoiError) (s : State)
  /-- An access to a location that does not exist. -/
  | fault (f : Fault)

/-- A step's pseudocode, run in text order: a state, or where it ended early (rules R283, R330). -/
abbrev Attempt := Except Stop State

/-- Guard of the pixel memory primitives: the `k` indexes from `i` on lie inside the memory (rule R63). -/
def State.pixelsExist (s : State) (i k : Nat) : Bool := decide (i + k ≤ s.cfg.pxCap)

/-- Guard of the stream memory primitives: `a + n ≤ BS_CAP` (rule R65). -/
def State.bytesExist (s : State) (a n : Nat) : Bool := decide (a + n ≤ s.cfg.bsCap)

/-- What `Emit(bytes)` leaves when the bytes fit: they stand at `BS_PTR`, which is past them (rule R152). -/
def emitted (bytes : List Byte) (s : State) : State :=
  { s with
    bs := s.bs.writeList s.bsPtr.toNat bytes
    bsPtr := s.bsPtr + BitVec.ofNat 32 bytes.length }

/-- `Emit(bytes)`: append to the encoder's output, all of it or, if it does not fit, nothing (rule R152, C13). -/
def emit (bytes : List Byte) (s : State) : Attempt :=
  if s.bsPtr.toNat + bytes.length > s.cfg.bsCap then .error (.error .capacity s)
  else .ok (emitted bytes s)

/-! ## Color cache -/

/-- `store(p)`: `CACHE[hash(p)] <- p` (rule R133). -/
def State.cacheStore (s : State) (p : Pixel) : State :=
  { s with cache := s.cache.set (pixelHash p).val p (pixelHash p).isLt }

/-- `CACHE[k]` (rule R132). -/
def State.cacheLookup (s : State) (k : Slot) : Pixel := s.cache.get k

/-- Every slot (0,0,0,0) (rule R135). -/
def clearedCache : Vector Pixel 64 := Vector.replicate 64 initSlot

/-! ## Errors -/

/-- Raising an error, the whole of rule R283: the code is reported, `OUT_LEN` is 0 and `STATE` is ERR; `PREV`, `RUN_CNT`,
the cursors and the cache are unspecified; after an encoder step all of `BS` is unspecified, after a decoder step
`PX[0 .. N-1]` is, and an error of a start touches no memory; everything else stays. -/
def raiseError (site : ErrorSite) (c : QoiError) (s : State) : State :=
  { s with
    errcode := c.code
    outLen := 0
    pass := .err
    prev := Config.freePrev s.draws
    runCnt := BitVec.ofNat 6 (Config.freeRunCnt s.draws).val
    pxPtr := Config.freePxPtr s.draws
    bsPtr := Config.freeBsPtr s.draws
    cache := Config.freeCache s.draws
    px := match site with
      | .decStep => s.px.drawBelow s.n.toNat s.draws
      | .start => s.px
      | .encStep => s.px
    bs := match site with
      | .encStep => s.bs.drawBelow s.cfg.bsCap s.draws
      | .start => s.bs
      | .decStep => s.bs
    draws := s.draws + 1 }

/-- The outcome of a step: its last state, the state the raised error leaves, or the fault. -/
def settle (site : ErrorSite) : Attempt → Host.Outcome State Fault Refusal
  | .ok s => .next s
  | .error (.error c s) => .next (raiseError site c s)
  | .error (.fault f) => .fault f

/-- The pass reset of every START, the only way out of an error (rules R253, R288, R321). -/
def passReset (s : State) : State :=
  { s with
    errcode := 0
    outLen := 0
    prev := initPrev
    runCnt := 0
    pxPtr := 0
    cache := clearedCache }

/-- The header checks of both starts, the first failing one named: channels, color space, width, height, then the exact
product against `PX_CAP` (rules R26, R151, R201, R284, R285). -/
def headerError (s : State) : Option QoiError :=
  if ¬(s.hdrC = 3 ∨ s.hdrC = 4) then some .badChannels
  else if ¬(s.hdrS = 0 ∨ s.hdrS = 1) then some .badColorspace
  else if s.hdrW = 0 then some .badWidth
  else if s.hdrH = 0 then some .badHeight
  else if s.hdrW.toNat * s.hdrH.toNat > s.cfg.pxCap then some .capacity
  else none

/-- `N <- HDR_W * HDR_H`, the exact product once it is known to be at most `PX_CAP` (rules R26, R150, R201). -/
def latchCount (s : State) : State := { s with n := BitVec.ofNat 32 (s.hdrW.toNat * s.hdrH.toNat) }

/-- What `Commit(p, BS_PTR + len)` leaves: `p` at pixel index `PX_PTR` and in its cache slot, `PREV` = `p`, the cursors one
pixel and `len` bytes on (rule R213). -/
def committed (p : Pixel) (len : Nat) (s : State) : State :=
  { s.cacheStore p with
    px := s.px.write s.pxPtr.toNat (pix32 p)
    prev := p
    pxPtr := s.pxPtr + 1
    bsPtr := s.bsPtr + BitVec.ofNat 32 len }

/-- `Commit(p, BS_PTR + len)`: the end of every single-pixel chunk (rule R213). -/
def commit (p : Pixel) (len : Nat) (s : State) : Attempt :=
  if s.pixelsExist s.pxPtr.toNat 1 then .ok (committed p len s)
  else .error (.fault .pixelIndexOutOfRange)

end Sys2Proof.Machine
end

