-- ==== Sys2Proof/Machine/Delta.lean ====
section
/-! DEFINITION. The chunks that carry a difference from the previous pixel: LUMA and DIFF (spec/42_decoder.md rules R210,
R211). -/

namespace Sys2Proof.Machine

/-- LUMA: `dr = (dr-dg) + dg` and `db = (db-dg) + dg` added to `PREV`, alpha unchanged (rule R210). -/
def execLuma (dg drdg dbdg : Int) (s : State) : Host.Outcome State Fault Refusal :=
  settle .decStep (commit (deltaPixel s.prev (drdg + dg) dg (dbdg + dg)) 2 s)

/-- DIFF: the three deltas added to `PREV`, alpha unchanged (rule R211). -/
def execDiff (dr dg db : Int) (s : State) : Host.Outcome State Fault Refusal :=
  settle .decStep (commit (deltaPixel s.prev dr dg db) 1 s)

end Sys2Proof.Machine
end

