-- ==== Sys2Proof/Machine/Literal.lean ====
section
/-! DEFINITION. The chunks that carry a pixel's bytes: RGB and RGBA (spec/42_decoder.md rules R207, R208). -/

namespace Sys2Proof.Machine

/-- RGB: the three bytes with the alpha of `PREV` (rule R207). -/
def execRgb (r g b : Byte) (s : State) : Host.Outcome State Fault Refusal :=
  settle .decStep (commit ⟨r, g, b, s.prev.a⟩ 4 s)

/-- RGBA: the four bytes (rule R208). -/
def execRgba (r g b a : Byte) (s : State) : Host.Outcome State Fault Refusal :=
  settle .decStep (commit ⟨r, g, b, a⟩ 5 s)

end Sys2Proof.Machine
end

