-- ==== Sys2Proof/Machine/Repeat.lean ====
section
/-! DEFINITION. The chunks that repeat an earlier pixel: RUN and INDEX (spec/42_decoder.md rules R209, R212). -/

namespace Sys2Proof.Machine

/-- What a run of `k` pixels leaves: `k` copies of `PREV` from pixel index `PX_PTR` on, `PREV` in its cache slot and itself
unchanged, the cursors `k` pixels and one byte on (rule R209). -/
def afterRun (k : Nat) (s : State) : State :=
  { s.cacheStore s.prev with
    px := s.px.fill s.pxPtr.toNat (pix32 s.prev) k
    pxPtr := s.pxPtr + BitVec.ofNat 32 k
    bsPtr := s.bsPtr + 1 }

/-- The RUN branch of rule R206 for a run of `k` pixels: OVERRUN before any pixel is written, else `afterRun`
(rule R209). -/
def decodeRun (k : Nat) (s : State) : Attempt :=
  if s.pxPtr.toNat + k > s.n.toNat then .error (.error .overrun s)
  else if s.pixelsExist s.pxPtr.toNat k then .ok (afterRun k s)
  else .error (.fault .pixelIndexOutOfRange)

/-- RUN (rule R209). -/
def execRun (k : Nat) (s : State) : Host.Outcome State Fault Refusal := settle .decStep (decodeRun k s)

/-- INDEX: the pixel of the slot, alpha included, stored again at its own hash (rule R212). -/
def execIndex (k : Slot) (s : State) : Host.Outcome State Fault Refusal :=
  settle .decStep (commit (s.cacheLookup k) 1 s)

end Sys2Proof.Machine
end

