-- ==== Sys2Proof/Syntax.lean ====
section
/-! DEFINITION. The block's instructions: the six chunk types of the QOI stream (spec/30_encoding.md rule R92,
spec/opcode_table.json), in the chunk notation of spec/00_scope.md rule R14. Operands are the chunk's values, the
bias already taken off (rule R102). -/

namespace Sys2Proof

/-- One chunk. The encoder emits chunks and the decoder executes them. -/
inductive Instr where
  /-- `RGB(r,g,b)`: a pixel with the alpha of the previous pixel (rule R98). -/
  | rgb (r g b : Byte)
  /-- `RGBA(r,g,b,a)`: a whole pixel (rule R99). -/
  | rgba (r g b a : Byte)
  /-- `RUN(n)`: the previous pixel `n` times, `n` in 1..62 (rule R97). -/
  | run (n : Nat)
  /-- `LUMA(dg, dr-dg, db-dg)`: `dg` in -32..31, the other two in -8..7 (rule R96). -/
  | luma (dg drdg dbdg : Int)
  /-- `DIFF(dr,dg,db)`: each in -2..1 (rule R95). -/
  | diff (dr dg db : Int)
  /-- `INDEX(k)`: the pixel of cache slot `k` (rule R94). -/
  | index (k : Slot)
  deriving DecidableEq, Repr

end Sys2Proof
end

