-- ==== Sys2Proof/Machine/Dispatch.lean ====
section
/-! DEFINITION. What each chunk does when the decoder executes it (spec/42_decoder.md rule R206): one arm per row of
spec/opcode_table.json. -/

namespace Sys2Proof.Machine

def exec (i : Instr) (s : State) : Host.Outcome State Fault Refusal :=
  match i with
  | .rgb r g b => Sys2Proof.Machine.execRgb r g b s
  | .rgba r g b a => Sys2Proof.Machine.execRgba r g b a s
  | .run k => Sys2Proof.Machine.execRun k s
  | .luma dg drdg dbdg => Sys2Proof.Machine.execLuma dg drdg dbdg s
  | .diff dr dg db => Sys2Proof.Machine.execDiff dr dg db s
  | .index k => Sys2Proof.Machine.execIndex k s

end Sys2Proof.Machine
end

