-- ==== Sys2Proof/WellFormed.lean ====
section
/-! DEFINITION. The operand ranges of the six chunks (spec/30_encoding.md rules R102, R108). -/

namespace Sys2Proof

/-- `lo ≤ v ≤ hi` for a signed operand. -/
def inRange (lo hi v : Int) : Bool := decide (lo ≤ v) && decide (v ≤ hi)

/-- The value ranges of rule R102: `RUN` 1..62, `LUMA` -32..31 and twice -8..7, `DIFF` three times -2..1; a byte
operand and a slot number are in range by their type. -/
def Instr.wf : Instr → Bool
  | .rgb _ _ _ => true
  | .rgba _ _ _ _ => true
  | .run n => decide (1 ≤ n) && decide (n ≤ 62)
  | .luma dg drdg dbdg => inRange (-32) 31 dg && inRange (-8) 7 drdg && inRange (-8) 7 dbdg
  | .diff dr dg db => inRange (-2) 1 dr && inRange (-2) 1 dg && inRange (-2) 1 db
  | .index _ => true

end Sys2Proof
end

