-- ==== Sys2Proof/Decode.lean ====
section
/-! DEFINITION. Lead-byte classes, chunk decoder and chunk encoder (spec/30_encoding.md rules R91 to R99, R102, R105,
R108; spec/opcode_table.json). -/

namespace Sys2Proof

/-- `b[hi:lo]` as an unsigned number (rule R9). -/
def bits (b : Byte) (hi lo : Nat) : Nat := b.toNat / 2 ^ lo % 2 ^ (hi + 1 - lo)

/-- The six lead-byte classes of rule R92. -/
inductive ChunkClass where
  | rgb | rgba | run | luma | diff | index
  deriving DecidableEq, Repr

/-- The class of a lead byte, tested in the order of rules R92 and R93: the exact values of RGB and RGBA first. -/
def classify (b0 : Byte) : ChunkClass :=
  if b0 = 0xFE then .rgb
  else if b0 = 0xFF then .rgba
  else if bits b0 7 6 = 3 then .run
  else if bits b0 7 6 = 2 then .luma
  else if bits b0 7 6 = 1 then .diff
  else .index

/-- `chunk_len(b0)`: a chunk's length in bytes from its lead byte alone (rule R105). -/
def chunkLen (b0 : Byte) : Nat :=
  if b0 = 0xFE then 4
  else if b0 = 0xFF then 5
  else if bits b0 7 6 = 2 then 2
  else 1

/-- Why the decoder reads no chunk from a list of bytes. No byte value is illegal (rule R103): a list is turned away
only when it ends too early (the TRUNCATED of rule R205). -/
inductive DecodeError where
  /-- There is no lead byte. -/
  | noLeadByte
  /-- The lead byte's class needs more bytes than follow it. -/
  | chunkCutOff (c : ChunkClass)
  deriving DecidableEq, Repr

/-- The chunk at the head of a list of bytes and the bytes after it (rules R94 to R99). Total on any bytes. -/
def decode : List Byte → Except DecodeError (Instr × List Byte)
  | [] => .error .noLeadByte
  | b0 :: rest =>
    match classify b0 with
    | .rgb =>
      match rest with
      | r :: g :: b :: rest' => .ok (.rgb r g b, rest')
      | _ => .error (.chunkCutOff .rgb)
    | .rgba =>
      match rest with
      | r :: g :: b :: a :: rest' => .ok (.rgba r g b a, rest')
      | _ => .error (.chunkCutOff .rgba)
    | .run => .ok (.run (bits b0 5 0 + 1), rest)
    | .luma =>
      match rest with
      | b1 :: rest' =>
        .ok (.luma ((bits b0 5 0 : Int) - 32) ((bits b1 7 4 : Int) - 8) ((bits b1 3 0 : Int) - 8), rest')
      | [] => .error (.chunkCutOff .luma)
    | .diff => .ok (.diff ((bits b0 5 4 : Int) - 2) ((bits b0 3 2 : Int) - 2) ((bits b0 1 0 : Int) - 2), rest)
    | .index => .ok (.index (Fin.ofNat 64 (bits b0 5 0)), rest)

/-- A signed value plus its bias, as a byte to be put in an unsigned field (rule R102). -/
def biased (bias v : Int) : Byte := BitVec.ofInt 8 (v + bias)

/-- The bytes of a chunk, first byte first (rules R94 to R99, R108). -/
def encode : Instr → List Byte
  | .rgb r g b => [0xFE, r, g, b]
  | .rgba r g b a => [0xFF, r, g, b, a]
  | .run n => [0xC0 ||| BitVec.ofNat 8 (n - 1)]
  | .luma dg drdg dbdg => [0x80 ||| biased 32 dg, biased 8 drdg <<< 4 ||| biased 8 dbdg]
  | .diff dr dg db => [0x40 ||| biased 2 dr <<< 4 ||| biased 2 dg <<< 2 ||| biased 2 db]
  | .index k => [0x00 ||| BitVec.ofNat 8 k.val]

/-- How many pixels a chunk stands for (rules R92, R109). -/
def pixelCount : Instr → Nat
  | .run n => n
  | .rgb _ _ _ => 1
  | .rgba _ _ _ _ => 1
  | .luma _ _ _ => 1
  | .diff _ _ _ => 1
  | .index _ => 1

/-! ## The opcode table, as data -/

/-- One row of rule R92's table: a lead byte `b` is of the row's class when `b` and `mask` give `pattern` and `b` is
not one of the values tested earlier. -/
structure OpcodeRow where
  cls : ChunkClass
  pattern : Byte
  mask : Byte
  exclude : List Byte
  length : Nat
  deriving DecidableEq, Repr

/-- The rows of rule R92, as spec/opcode_table.json has them. -/
def opcodeTable : List OpcodeRow :=
  [ ⟨.rgb, 0xFE, 0xFF, [], 4⟩,
    ⟨.rgba, 0xFF, 0xFF, [], 5⟩,
    ⟨.run, 0xC0, 0xC0, [0xFE, 0xFF], 1⟩,
    ⟨.luma, 0x80, 0xC0, [], 2⟩,
    ⟨.diff, 0x40, 0xC0, [], 1⟩,
    ⟨.index, 0x00, 0xC0, [], 1⟩ ]

/-- A lead byte is one of the row's lead values. -/
def OpcodeRow.admits (row : OpcodeRow) (b : Byte) : Bool :=
  decide (b &&& row.mask = row.pattern) && !(row.exclude.contains b)

/-! ## Words as the host numbers them -/

/-- The first `k` bytes of a number: bit 0 is the least significant bit of the first byte. -/
def bytesOfNat : (k w : Nat) → List Byte
  | 0, _ => []
  | k + 1, w => BitVec.ofNat 8 w :: bytesOfNat k (w / 256)

/-- The five bytes (the longest chunk) of a table word of `nbits` bits; every bit above `nbits` is 0. -/
def tableBytes (nbits w : Nat) : List Byte := bytesOfNat 5 (w % 2 ^ nbits)

/-- The chunk the decoder reads from a word numbered as spec/opcode_table.json numbers it. -/
def decodeTableWord (nbits w : Nat) : Option Instr :=
  match decode (tableBytes nbits w) with
  | .ok (i, _) => some i
  | .error _ => none

end Sys2Proof
end

