-- ==== Sys2Proof/Machine/Decoder.lean ====
section
/-! DEFINITION. The decoder pipeline but for the chunks' own meanings: its start, the fetch of a chunk and its finish step
(spec/42_decoder.md). -/

namespace Sys2Proof.Machine

/-- The header fields of `DecStart`, big-endian, from stream offsets 4, 8, 12 and 13 (rules R201, R202). -/
def decLatch (s : State) : State :=
  { s with
    hdrW := s.streamWord 4
    hdrH := s.streamWord 8
    hdrC := s.streamByte 12
    hdrS := s.streamByte 13 }

/-- The end-marker test of `DecStart` (rules R201, R203). -/
def endMarkerError (s : State) : Bool :=
  decide (s.l.toNat < 22) || decide (s.streamBytes (s.l.toNat - 8) 8 ≠ endMarker)

/-- `L <- IN_LEN` (rules R27, R201). -/
def latchLength (s : State) : State := { s with l := s.inLen }

/-- `E <- L - 8`, `BS_PTR <- 14`, `STATE <- DEC` (rule R201). -/
def openChunks (s : State) : State := { s with e := s.l - 8, bsPtr := 14, pass := .dec }

/-- `DecStart` after the magic test, with the header's fields latched: their checks, `N`, and the end marker
(rule R201). -/
def decStartHeader (s : State) : Attempt :=
  match headerError s with
  | some c => .error (.error c s)
  | none =>
    if endMarkerError s then .error (.error .endMarker (latchCount s)) else .ok (openChunks (latchCount s))

/-- `DecStart` after `L <- IN_LEN` (rule R201). -/
def decStartLength (s : State) : Attempt :=
  if s.l.toNat > s.cfg.bsCap then .error (.error .capacity s)
  else if s.l.toNat < 14 then .error (.error .truncated s)
  else if s.streamBytes 0 4 ≠ s.cfg.magic.bytes then .error (.error .badMagic s)
  else decStartHeader (decLatch s)

/-- `DecStart` (rule R201). -/
def decStart (s : State) : Attempt := decStartLength (latchLength s)

/-- The length of the chunk whose lead byte stands at `BS_PTR` (rules R105, R205). -/
def chunkLenAt (s : State) : Nat := chunkLen (s.streamByte s.bsPtr.toNat)

/-- The chunk at `BS_PTR`, known to lie whole in the memory, classified and its fields read (rule R206). The last arm is
never taken: a list of `chunk_len` bytes always decodes. -/
def readChunk (s : State) : Except Stop Instr :=
  match decode (s.streamBytes s.bsPtr.toNat (chunkLenAt s)) with
  | .ok (i, _) => .ok i
  | .error _ => .error (.error .truncated s)

/-- The fetch of a chunk: TRUNCATED when no byte is left before `E`, or when the chunk would cross it (rule R205). -/
def fetchChunk (s : State) : Except Stop Instr :=
  if s.e.toNat ≤ s.bsPtr.toNat then .error (.error .truncated s)
  else if s.bytesExist s.bsPtr.toNat 1 then
    if s.e.toNat < s.bsPtr.toNat + chunkLenAt s then .error (.error .truncated s)
    else if s.bytesExist s.bsPtr.toNat (chunkLenAt s) then readChunk s
    else .error (.fault .streamOffsetOutOfRange)
  else .error (.fault .streamOffsetOutOfRange)

/-- `DecFinish` (rule R214). `RUN_CNT`, which the decoder does not use, is unspecified after the pass (rule R23, U5). -/
def decFinish (s : State) : Attempt :=
  if s.bsPtr ≠ s.e then .error (.error .endMarker s)
  else
    .ok { s with
      width := s.hdrW
      height := s.hdrH
      channels := s.hdrC
      colorspace := s.hdrS
      outLen := s.n
      pass := .done
      runCnt := BitVec.ofNat 6 (Config.freeRunCnt s.draws).val
      draws := s.draws + 1 }

end Sys2Proof.Machine
end

