-- ==== Sys2Proof/Machine/Encoder.lean ====
section
/-! DEFINITION. The encoder pipeline: its start, its pixel step and its tail step (spec/41_encoder.md). -/

namespace Sys2Proof.Machine

/-- The 14-byte header of the pass (rules R100, R150). -/
def headerBytes (s : State) : List Byte :=
  s.cfg.magic.bytes ++ be32 s.hdrW ++ be32 s.hdrH ++ [s.hdrC, s.hdrS]

/-- The latches of `EncStart`: the header fields from the registers, and `L`, `E`, unused in an encode pass, unspecified
(rules R28, R46, R150). -/
def encLatch (s : State) : State :=
  { s with
    hdrW := s.width
    hdrH := s.height
    hdrC := s.channels
    hdrS := s.colorspace
    l := Config.freeL s.draws
    e := Config.freeE s.draws
    draws := s.draws + 1 }

/-- `BS_PTR <- 0` (rule R150). -/
def rewindStream (s : State) : State := { s with bsPtr := 0 }

/-- `STATE <- ENC` (rule R150). -/
def enterEnc (s : State) : State := { s with pass := .enc }

/-- `EncStart` (rules R150, R151). -/
def encStart (s : State) : Attempt :=
  match headerError (encLatch s) with
  | some c => .error (.error c (encLatch s))
  | none => do
    let t ← emit (headerBytes (encLatch s)) (rewindStream (latchCount (encLatch s)))
    .ok (enterEnc t)

/-- Branches 3 to 6 of rule R154, for a miss: DIFF, LUMA or RGB by the deltas when the alpha is that of `PREV`, else RGBA
(rules R160 to R164). -/
def encMissChunk (p prev : Pixel) : Instr :=
  if p.a = prev.a then
    let dr := d8 p.r prev.r
    let dg := d8 p.g prev.g
    let db := d8 p.b prev.b
    if inRange (-2) 1 dr && inRange (-2) 1 dg && inRange (-2) 1 db then .diff dr dg db
    else if inRange (-32) 31 dg && inRange (-8) 7 (dr - dg) && inRange (-8) 7 (db - dg) then
      .luma dg (dr - dg) (db - dg)
    else .rgb p.r p.g p.b
  else .rgba p.r p.g p.b p.a

/-- The pending run as one RUN chunk (rules R156, R157). -/
def runBytes (s : State) : List Byte := encode (.run s.runCnt.toNat)

/-- Emit the pending run as one RUN chunk and set `RUN_CNT` to 0 (rules R156, R157). -/
def flushRun (s : State) : Attempt := do
  let s ← emit (runBytes s) s
  .ok { s with runCnt := 0 }

/-- `RUN_CNT <- RUN_CNT + 1` (rule R155). -/
def countRun (s : State) : State := { s with runCnt := s.runCnt + 1 }

/-- The counted run is full, or the pixel is the last: `RUN_CNT = 62 or i = N - 1` (rule R156). -/
def runEnds (s : State) : Bool := decide (s.runCnt = 62) || decide (s.pxPtr.toNat + 1 = s.n.toNat)

/-- Branch 1 of rule R154: count the pixel, and flush a run of 62 or one that ends the image (rules R155, R156). -/
def encRunPixel (s : State) : Attempt :=
  if runEnds (countRun s) then flushRun (countRun s) else .ok (countRun s)

/-- The flush of a pending run before any other chunk (rule R157, C1). -/
def encPendingFlush (s : State) : Attempt := if s.runCnt = 0 then .ok s else flushRun s

/-- Branches 2 to 6 of rule R154 after the flush: INDEX on a hit, with no store; on a miss the cache write, then the chunk
of the miss (rules R158, R159). -/
def encOtherPixel (p : Pixel) (s : State) : Attempt :=
  if s.cacheLookup (pixelHash p) = p then emit (encode (.index (pixelHash p))) s
  else emit (encode (encMissChunk p s.prev)) (s.cacheStore p)

/-- The end of every pixel step: `PREV <- p`, `PX_PTR <- i + 1` (rule R165). -/
def encAdvance (p : Pixel) (s : State) : State := { s with prev := p, pxPtr := s.pxPtr + 1 }

/-- The chain of rule R154: a run pixel, or the flush of a pending run and then another chunk. -/
def encClassify (p : Pixel) (s : State) : Attempt :=
  if p = s.prev then encRunPixel s else encPendingFlush s >>= encOtherPixel p

/-- `EncPixelStep` on the pixel `p` it reads (rule R154). -/
def encPixel (p : Pixel) (s : State) : Attempt := encClassify p s >>= fun t => .ok (encAdvance p t)

/-- `EncPixelStep` (rule R154). -/
def encPixelStep (s : State) : Attempt :=
  if s.pixelsExist s.pxPtr.toNat 1 then encPixel (s.pixelAt s.pxPtr.toNat) s
  else .error (.fault .pixelIndexOutOfRange)

/-- `EncTail` (rule R166). -/
def encTail (s : State) : Attempt := do
  let s ← emit endMarker s
  .ok { s with outLen := s.bsPtr, pass := .done }

end Sys2Proof.Machine
end

