-- ==== Sys2Proof/Machine/HostPort.lean ====
section
/-! DEFINITION. The host's moves and the power-on reset (spec/43_host_interface.md; spec/70_reset_and_hazards.md
rule R320). -/

namespace Sys2Proof.Machine

/-- A `CTRL` write while no pass runs: MODE is stored; START = 1 resets the pass state and starts the pass of the MODE
written with it, all in one move (rules R36, R253). -/
def ctrlWrite (v : Word) (s : State) : Host.Outcome State Fault Refusal :=
  let s := { s with mode := modeOfBit (v.getLsbD 1) }
  if v.getLsbD 0 then
    match s.mode with
    | .encode => settle .start (encStart (passReset s))
    | .decode => settle .start (decStart (passReset s))
  else .next s

/-- `HostWrite(r, v)`: ignored while busy and at read-only and reserved numbers (rules R44, R45, R252). -/
def hostWriteReg (r : RegNum) (v : Word) (s : State) : Host.Outcome State Fault Refusal :=
  if s.busy then .next s
  else
    match regOf r with
    | .ctrl => ctrlWrite v s
    | .status => .next s
    | .width => .next { s with width := v }
    | .height => .next { s with height := v }
    | .channels => .next { s with channels := v.setWidth 8 }
    | .colorspace => .next { s with colorspace := v.setWidth 8 }
    | .inLen => .next { s with inLen := v }
    | .outLen => .next s
    | .reserved => .next s

/-- The word a host read of pixel index `i` gives: 0 outside the memory (rule R72). -/
def hostPixel (s : State) (i : Nat) : Word := if s.pixelsExist i 1 then s.pixelWord i else 0

/-- The byte a host read of stream offset `a` gives: 0 outside the memory (rule R72). -/
def hostByte (s : State) (a : Nat) : Byte := if s.bytesExist a 1 then s.streamByte a else 0

/-- A read's answer goes to the host; nothing else changes (rules R71, R251). -/
def answer (x : HostAnswer) (s : State) : State := { s with answers := x :: s.answers }

/-- A host write of a pixel word, ignored outside the memory (rule R72). -/
def hostWritePixel (i : Nat) (w : Word) (s : State) : State :=
  if s.pixelsExist i 1 then { s with px := s.px.write i w } else s

/-- A host write of a stream byte, ignored outside the memory (rule R72). -/
def hostWriteStream (a : Nat) (b : Byte) (s : State) : State :=
  if s.bytesExist a 1 then { s with bs := s.bs.write a b } else s

/-- A host access to a memory, which the host has only while no pass runs (rules R250, R255). -/
def whenIdle (s : State) (t : State) : Host.Outcome State Fault Refusal :=
  if s.busy then .refused .hostMemoryAccessWhileBusy else .next t

/-- One access of the host (rules R250 to R255). -/
def hostMove (op : HostOp) (s : State) : Host.Outcome State Fault Refusal :=
  match op with
  | .readReg r => .next (answer (.register r (readReg s r)) s)
  | .writeReg r v => hostWriteReg r v s
  | .readPixel i => whenIdle s (answer (.pixel i (hostPixel s i)) s)
  | .writePixel i w => whenIdle s (hostWritePixel i w s)
  | .readStream a => whenIdle s (answer (.byte a (hostByte s a)) s)
  | .writeStream a b => whenIdle s (hostWriteStream a b s)

/-- Power-on reset at any moment: `STATE` = IDLE, every register of the register block 0, and every datapath register, the
cache and both memories unspecified (rules R30, R46, R320). -/
def powerOnReset (s : State) : State :=
  { s with
    pass := .idle
    mode := .encode
    errcode := 0
    width := 0
    height := 0
    channels := 0
    colorspace := 0
    inLen := 0
    outLen := 0
    prev := Config.freePrev s.draws
    runCnt := BitVec.ofNat 6 (Config.freeRunCnt s.draws).val
    pxPtr := Config.freePxPtr s.draws
    bsPtr := Config.freeBsPtr s.draws
    n := Config.freeN s.draws
    l := Config.freeL s.draws
    e := Config.freeE s.draws
    hdrW := Config.freeHdrW s.draws
    hdrH := Config.freeHdrH s.draws
    hdrC := Config.freeHdrC s.draws
    hdrS := Config.freeHdrS s.draws
    cache := Config.freeCache s.draws
    px := s.px.drawBelow s.cfg.pxCap s.draws
    bs := s.bs.drawBelow s.cfg.bsCap s.draws
    draws := s.draws + 1 }

end Sys2Proof.Machine
end

