-- ==== Sys2Proof/Machine/Pipeline.lean ====
section
/-! DEFINITION. The pipeline's move: which step is enabled, and the decoder's chunk step (spec/41_encoder.md rule R153;
spec/42_decoder.md rules R204 to R206); and the placing of a chunk where the next chunk step reads it. -/

namespace Sys2Proof.Machine

/-- `DecChunkStep`: fetch the chunk at `BS_PTR` and execute it (rule R206). -/
def decChunkStep (s : State) : Host.Outcome State Fault Refusal :=
  match fetchChunk s with
  | .ok i => exec i s
  | .error (.error c t) => .next (raiseError .decStep c t)
  | .error (.fault f) => .fault f

/-- The one enabled step of the running pass (rules R153, R204); with no pass running nothing steps (rules R250, R296). -/
def pipelineMove (s : State) : Host.Outcome State Fault Refusal :=
  match s.pass with
  | .enc => if s.pxPtr < s.n then settle .encStep (encPixelStep s) else settle .encStep (encTail s)
  | .dec => if s.pxPtr < s.n then decChunkStep s else settle .decStep (decFinish s)
  | .idle => .next s
  | .done => .next s
  | .err => .next s

/-- One move of the agent a turn names (rule R250). -/
def move (t : Turn) (s : State) : Host.Outcome State Fault Refusal :=
  match t with
  | .host op => hostMove op s
  | .pipeline => pipelineMove s
  | .powerOn => .next (powerOnReset s)

/-- The cursors of a decode pass at its first chunk, `PX_PTR` = 0 and `BS_PTR` = 14 (rules R201, R253), unless one runs
already. -/
def placeCursors (s : State) : State :=
  match s.pass with
  | .dec => s
  | .enc => { s with pass := .dec, pxPtr := 0, bsPtr := 14 }
  | .idle => { s with pass := .dec, pxPtr := 0, bsPtr := 14 }
  | .done => { s with pass := .dec, pxPtr := 0, bsPtr := 14 }
  | .err => { s with pass := .dec, pxPtr := 0, bsPtr := 14 }

/-- A running decode pass with the given five bytes at `BS_PTR`, room for the longest chunk before `E` and for the longest
run before `N`, and the pipeline to move next. -/
def placeChunk (bytes : List Byte) (s : State) : State :=
  let s := placeCursors s
  { s with
    bs := s.bs.writeList s.bsPtr.toNat bytes
    n := s.pxPtr + 62
    e := s.bsPtr + 5
    l := s.bsPtr + 13
    turns := .pipeline :: s.turns }

end Sys2Proof.Machine
end

