-- ==== Sys2Proof/Machine/Step.lean ====
section
/-! DEFINITION. The step of the machine: one move of one agent (spec/43_host_interface.md rule R250;
spec/70_reset_and_hazards.md rule R330). -/

namespace Sys2Proof.Machine

/-- The move of the first pending turn, which is taken off the list; with no turn pending the pipeline moves, its step being
always enabled while a pass runs (rule R250). -/
def step (s : State) : Host.Outcome State Fault Refusal :=
  match s.turns with
  | [] => pipelineMove s
  | t :: rest => move t { s with turns := rest }

/-- `s` with the chunk of a table word placed so that the very next step executes it (notes/assumptions/6.md). -/
def State.withFetchWord (s : State) (nbits w : Nat) : State := placeChunk (tableBytes nbits w) s

end Sys2Proof.Machine
end

