-- ==== Sys2Proof/Safety.lean ====
section
/-! DEFINITION. What a safe state of the block is, in the terms the statements use: the invariants of a running encode pass
(spec/41_encoder.md rules R167, R171), of a running decode pass (spec/42_decoder.md rules R201 to R205), and of the whole
block. -/

namespace Sys2Proof.Machine

/-- It is the pipeline's turn: its own turn is first, or no turn is pending. -/
def State.pipelineTurn (s : State) : Prop := s.turns = [] ∨ ∃ rest, s.turns = .pipeline :: rest

/-- A host operation that reaches one of the two memories (rule R255). -/
def HostOp.touchesMemory : HostOp → Bool
  | .readReg _ => false
  | .writeReg _ _ => false
  | .readPixel _ => true
  | .writePixel _ _ => true
  | .readStream _ => true
  | .writeStream _ _ => true

/-- What holds while an encode pass runs (`STATE` = ENC), between its steps. -/
structure EncInv (s : State) : Prop where
  /-- The latched header passed its checks (rule R151). -/
  header : headerError s = none
  /-- `N` is the exact product (rule R26). -/
  pixels : s.n.toNat = s.hdrW.toNat * s.hdrH.toNat
  /-- `PX_PTR` ≤ `N` (rule R167 item 5). -/
  cursor : s.pxPtr.toNat ≤ s.n.toNat
  /-- `RUN_CNT` ≤ 61 (rule R167 item 1). -/
  runBound : s.runCnt.toNat ≤ 61
  /-- A pending run lies in the pixels already read (rule R167 item 2). -/
  runInside : s.runCnt.toNat ≤ s.pxPtr.toNat
  /-- The pixels of a pending run all equal `PREV` (rule R167 item 2). -/
  runPixels : ∀ j < s.pxPtr.toNat, s.pxPtr.toNat ≤ j + s.runCnt.toNat → s.pixelAt j = s.prev
  /-- No run is pending at the tail step (rule R167 item 3). -/
  runEnd : s.pxPtr = s.n → s.runCnt = 0
  /-- The header stands at the start of the stream (rules R100, R150). -/
  headerWritten : s.streamBytes 0 14 = headerBytes s
  /-- The stream cursor is past the header and inside the memory (rules R25, R152). -/
  streamLow : 14 ≤ s.bsPtr.toNat
  streamHigh : s.bsPtr.toNat ≤ s.cfg.bsCap
  /-- At most 5 bytes for each pixel, one of them still to come for a pending run (rule R171). -/
  upper : s.bsPtr.toNat + min s.runCnt.toNat 1 ≤ 14 + 5 * s.pxPtr.toNat
  /-- At most 62 pixels for each byte, beyond the pending run (rule R171). -/
  lower : s.pxPtr.toNat ≤ 62 * (s.bsPtr.toNat - 14) + s.runCnt.toNat

/-- What holds while a decode pass runs (`STATE` = DEC), between its steps. -/
structure DecInv (s : State) : Prop where
  /-- The stream's header passed its checks (rule R201). -/
  header : headerError s = none
  /-- `N` is the exact product (rule R26). -/
  pixels : s.n.toNat = s.hdrW.toNat * s.hdrH.toNat
  /-- `PX_PTR` ≤ `N` (rules R24, R209). -/
  cursor : s.pxPtr.toNat ≤ s.n.toNat
  /-- The stream lies inside the memory and has room for header and marker (rules R201, R203). -/
  lengthLow : 22 ≤ s.l.toNat
  lengthHigh : s.l.toNat ≤ s.cfg.bsCap
  /-- `E = L - 8` (rule R27). -/
  regionEnd : s.e.toNat + 8 = s.l.toNat
  /-- The chunk cursor lies in the chunk region or at its end (rules R25, R205). -/
  streamLow : 14 ≤ s.bsPtr.toNat
  streamHigh : s.bsPtr.toNat ≤ s.e.toNat
  /-- The end marker stands at `E` (rule R203). -/
  marker : s.streamBytes s.e.toNat 8 = endMarker

/-- The block's invariant: what every step keeps, from any state that has it. -/
structure BlockInv (s : State) : Prop where
  /-- The parameters meet rule R8's constraints. -/
  config : s.cfg.wf
  /-- Both memories are in their canonical form and list only locations that exist (rules R61, R64). -/
  pixelMem : s.px.wf
  streamMem : s.bs.wf
  pixelCells : ∀ c ∈ s.px.cells, c.1 < s.cfg.pxCap
  streamCells : ∀ c ∈ s.bs.cells, c.1 < s.cfg.bsCap
  /-- The next draw has a number no drawn location carries. -/
  pixelDraws : ∀ y ∈ s.px.layers, y.2 < s.draws
  streamDraws : ∀ y ∈ s.bs.layers, y.2 < s.draws
  drawsPos : 1 ≤ s.draws
  /-- `RUN_CNT` takes values 0..62 (rules R20, R23). -/
  runValues : s.runCnt.toNat ≤ 62
  /-- `ERRCODE` names an error of rule R281 in ERR and is 0 otherwise (rules R37, R281). -/
  errorCode : s.pass = .err → ∃ c : QoiError, s.errcode = c.code
  noErrorCode : s.pass ≠ .err → s.errcode = 0
  /-- `OUT_LEN` is 0 unless the last pass completed (rule R43). -/
  outLen : s.pass ≠ .done → s.outLen = 0
  /-- While a pass runs, a slot holds (0,0,0,0) or a pixel whose hash is the slot (rules R132, R133, R135). -/
  cacheSlots : s.busy = true → ∀ k : Slot, s.cacheLookup k = initSlot ∨ pixelHash (s.cacheLookup k) = k
  encode : s.pass = .enc → EncInv s
  decode : s.pass = .dec → DecInv s

/-! ## The terms of the statements -/

/-- The register block, with `STATE` and `ERRCODE`, is as before. -/
def RegistersKept (s t : State) : Prop :=
  t.pass = s.pass ∧ t.mode = s.mode ∧ t.errcode = s.errcode ∧ t.width = s.width ∧ t.height = s.height ∧
    t.channels = s.channels ∧ t.colorspace = s.colorspace ∧ t.inLen = s.inLen ∧ t.outLen = s.outLen

/-- The latches of the pass and the parameters are as before. -/
def LatchesKept (s t : State) : Prop :=
  t.n = s.n ∧ t.l = s.l ∧ t.e = s.e ∧ t.hdrW = s.hdrW ∧ t.hdrH = s.hdrH ∧ t.hdrC = s.hdrC ∧ t.hdrS = s.hdrS ∧
    t.cfg = s.cfg

/-- The pipeline's working registers and the cache, which no host access reaches (rules R21, R138), are as before. -/
def PipelineKept (s t : State) : Prop :=
  t.prev = s.prev ∧ t.runCnt = s.runCnt ∧ t.pxPtr = s.pxPtr ∧ t.bsPtr = s.bsPtr ∧ t.cache = s.cache

/-- The model's own fields are as before. -/
def QueuesKept (s t : State) : Prop := t.draws = s.draws ∧ t.turns = s.turns ∧ t.answers = s.answers

/-- The registers a host writes, which no failed pass changes (rule R283). -/
def HostValuesKept (s t : State) : Prop :=
  t.width = s.width ∧ t.height = s.height ∧ t.channels = s.channels ∧ t.colorspace = s.colorspace ∧ t.inLen = s.inLen

/-- The pass has failed with an error code (rules R37, R283). -/
def FailedWith (t : State) (code : BitVec 4) : Prop := t.pass = .err ∧ t.errcode = code ∧ t.outLen = 0

/-- A chunk of `len` bytes that makes one pixel has room: before `E`, before `N`, and `N` inside the pixel memory
(rules R26, R204, R205). -/
def ChunkFits (s : State) (len : Nat) : Prop :=
  s.bsPtr.toNat + len ≤ s.e.toNat ∧ s.pxPtr.toNat < s.n.toNat ∧ s.n.toNat ≤ s.cfg.pxCap

/-- The lead byte at `BS_PTR` is `b0` and the chunk of `len` bytes it begins is cut off by `E` (rule R205). -/
def ChunkCutOff (s : State) (b0 : Byte) (len : Nat) : Prop :=
  s.streamByte s.bsPtr.toNat = b0 ∧ s.bsPtr.toNat < s.e.toNat ∧ s.e.toNat < s.bsPtr.toNat + len ∧
    s.e.toNat ≤ s.cfg.bsCap

/-- One pixel `p` has been committed by a chunk of `len` bytes (rule R213). -/
def PixelCommitted (s t : State) (p : Pixel) (len : Nat) : Prop :=
  t.pixelWord s.pxPtr.toNat = pix32 p ∧ t.cacheLookup (pixelHash p) = p ∧ t.prev = p ∧
    t.pxPtr.toNat = s.pxPtr.toNat + 1 ∧ t.bsPtr.toNat = s.bsPtr.toNat + len

/-- What a chunk that stores `k` pixels at `PX_PTR` and one pixel `p` in the cache leaves unchanged: every other register,
every byte of the stream memory, every other pixel, every other slot. That `RUN_CNT` is among the registers left unchanged
is the model's choice (notes/assumptions/8.md). -/
def ChunkFrame (s t : State) (p : Pixel) (k : Nat) : Prop :=
  RegistersKept s t ∧ LatchesKept s t ∧ QueuesKept s t ∧ t.runCnt = s.runCnt ∧
    (∀ a, t.streamByte a = s.streamByte a) ∧
    (∀ j, j < s.pxPtr.toNat ∨ s.pxPtr.toNat + k ≤ j → t.pixelWord j = s.pixelWord j) ∧
    ∀ x : Slot, x ≠ pixelHash p → t.cacheLookup x = s.cacheLookup x

/-- An encoder pixel step from `s` emitted exactly `bytes`, took the pixel `p` and left everything outside the encoder's
own state unchanged (rules R152, R165). -/
def PixelEncoded (s t : State) (p : Pixel) (bytes : List Byte) : Prop :=
  t.streamBytes s.bsPtr.toNat bytes.length = bytes ∧ t.bsPtr.toNat = s.bsPtr.toNat + bytes.length ∧
    t.prev = p ∧ t.pxPtr.toNat = s.pxPtr.toNat + 1 ∧
    (∀ a, a < s.bsPtr.toNat ∨ s.bsPtr.toNat + bytes.length ≤ a → t.streamByte a = s.streamByte a) ∧
    (∀ j, t.pixelWord j = s.pixelWord j) ∧ RegistersKept s t ∧ LatchesKept s t ∧ QueuesKept s t

/-- An encoder pixel step reads pixel `p`: `STATE` = ENC, `PX_PTR` < `N` ≤ `PX_CAP`, and `BS_CAP` is a legal capacity
(rules R8, R26, R153). -/
def EncoderReads (s : State) (p : Pixel) : Prop :=
  s.pass = .enc ∧ s.pxPtr.toNat < s.n.toNat ∧ s.n.toNat ≤ s.cfg.pxCap ∧ s.cfg.bsCap < 2 ^ 32 ∧
    s.pixelAt s.pxPtr.toNat = p

/-- `(x + d) mod 256` as numbers (rule R11). -/
def ChannelSum (x : Byte) (d : Int) (y : Byte) : Prop := (y.toNat : Int) = ((x.toNat : Int) + d) % 256

end Sys2Proof.Machine
end

