-- ==== Sys2Proof/Certificates/Slice0/Obligations.lean ====
section
/-! DEFINITION. The statements for the provers, in the order of OBLIGATIONS.json: the encoding of chunks, what each chunk
does, the decoder's other steps, the encoder, the host's moves, errors and reset, and the rules of the whole block. -/

open Sys2Proof Sys2Proof.Machine

/-! ## Encoding -/

/-- Rules R94 to R99 and R102 read both ways: the bytes of a well-formed chunk, whatever follows them, decode to it. -/
def Obligations.DecodeOfEncodedChunk : Prop :=
  ∀ (i : Instr) (rest : List Byte), i.wf = true → decode (encode i ++ rest) = .ok (i, rest)

/-- The other direction, rules R91 and R103: whatever decodes is a well-formed chunk whose bytes are the ones consumed, so
no two byte strings stand for one chunk. -/
def Obligations.DecodedBytesReencode : Prop :=
  ∀ (bytes : List Byte) (i : Instr) (rest : List Byte), decode bytes = .ok (i, rest) →
    i.wf = true ∧ encode i ++ rest = bytes

/-- Rule R105: the length of a chunk is a function of its lead byte alone. -/
def Obligations.ChunkLengthFromLeadByte : Prop :=
  ∀ (b0 : Byte) (tail : List Byte) (i : Instr) (rest : List Byte), decode (b0 :: tail) = .ok (i, rest) →
    (encode i).length =
      if b0 = 0xFE then 4 else if b0 = 0xFF then 5 else if b0.toNat / 64 = 2 then 2 else 1

/-- Rule R93: the exact-value tests for RGB and RGBA come before the RUN test, so no RUN of 63 or 64 is ever read. -/
def Obligations.ExactTagsBeforeRun : Prop :=
  (∀ r g b rest, decode (0xFE :: r :: g :: b :: rest) = .ok (.rgb r g b, rest)) ∧
    (∀ r g b a rest, decode (0xFF :: r :: g :: b :: a :: rest) = .ok (.rgba r g b a, rest)) ∧
    ∀ (b0 : Byte) tail n rest, decode (b0 :: tail) = .ok (.run n, rest) → b0 ≠ 0xFE ∧ b0 ≠ 0xFF ∧ 1 ≤ n ∧ n ≤ 62

/-- Rule R92: every byte value is the lead value of exactly one row of the table, the row of its class, and the row gives
the chunk's length. -/
def Obligations.LeadByteHasOneClass : Prop :=
  ∀ b : Byte,
    (opcodeTable.filter fun row => row.admits b).map OpcodeRow.cls = [classify b] ∧
      ∀ row ∈ opcodeTable, row.admits b = true → row.length = chunkLen b

/-- Rule R103: no byte value is illegal; a list of bytes is turned away only when it is shorter than the chunk its lead
byte begins. -/
def Obligations.OnlyCutOffBytesRejected : Prop :=
  ∀ bytes : List Byte,
    (∃ e, decode bytes = .error e) ↔ bytes = [] ∨ ∃ b0 tail, bytes = b0 :: tail ∧ bytes.length < chunkLen b0

/-- A sanity check on words written out from rules R94 to R99 and R108. -/
def Obligations.SampleChunkWords : Prop :=
  decode [0x6A] = .ok (.diff 0 0 0, []) ∧ decode [0x73] = .ok (.diff 1 (-2) 1, []) ∧
    decode [0xBF, 0xF0] = .ok (.luma 31 7 (-8), []) ∧ decode [0xFD] = .ok (.run 62, []) ∧
    decode [0xC0] = .ok (.run 1, []) ∧ decode [0x35] = .ok (.index 53, []) ∧
    decode [0xFE, 0x0A, 0x14, 0x1E] = .ok (.rgb 10 20 30, []) ∧
    decode [0xFF, 0x01, 0x02, 0x03, 0x04] = .ok (.rgba 1 2 3 4, [])

/-! ## The six chunks -/

/-- Rule R207, RGB: its bytes, its effect with the frame of it, and TRUNCATED when fewer than 4 bytes remain. Derived: that `RUN_CNT`
is unchanged is the model's choice of notes/assumptions/8.md (U5: any value during a decode pass). -/
def Obligations.RgbChunk : Prop :=
  (∀ r g b rest, decode (0xFE :: r :: g :: b :: rest) = .ok (.rgb r g b, rest)) ∧
    (∀ (s : State) (r g b : Byte), ChunkFits s 4 →
      ∃ t, exec (.rgb r g b) s = .next t ∧ PixelCommitted s t ⟨r, g, b, s.prev.a⟩ 4 ∧
        ChunkFrame s t ⟨r, g, b, s.prev.a⟩ 1) ∧
    ∀ s : State, ChunkCutOff s 0xFE 4 → ∃ t, decChunkStep s = .next t ∧ FailedWith t 6

/-- Rule R208, RGBA: its bytes, its effect with the frame of it, and TRUNCATED when fewer than 5 bytes remain. Derived: that `RUN_CNT`
is unchanged is the model's choice of notes/assumptions/8.md (U5: any value during a decode pass). -/
def Obligations.RgbaChunk : Prop :=
  (∀ r g b a rest, decode (0xFF :: r :: g :: b :: a :: rest) = .ok (.rgba r g b a, rest)) ∧
    (∀ (s : State) (r g b a : Byte), ChunkFits s 5 →
      ∃ t, exec (.rgba r g b a) s = .next t ∧ PixelCommitted s t ⟨r, g, b, a⟩ 5 ∧ ChunkFrame s t ⟨r, g, b, a⟩ 1) ∧
    ∀ s : State, ChunkCutOff s 0xFF 5 → ∃ t, decChunkStep s = .next t ∧ FailedWith t 6

/-- Rule R209, RUN: its bytes; `k` pixels equal to `PREV`, one cache store of `PREV`, `PREV` unchanged, with the frame; and
OVERRUN, no pixel beyond `N` touched, when fewer than `k` pixels are left. Derived: that `RUN_CNT`
is unchanged is the model's choice of notes/assumptions/8.md (U5: any value during a decode pass), and that a term outside the ranges of
rule R102 follows the same formulas is the choice of notes/assumptions/14.md. -/
def Obligations.RunChunk : Prop :=
  (∀ (b0 : Byte) rest, b0.toNat / 64 = 3 → b0 ≠ 0xFE → b0 ≠ 0xFF →
      decode (b0 :: rest) = .ok (.run (b0.toNat % 64 + 1), rest)) ∧
    (∀ (s : State) (k : Nat), s.bsPtr.toNat + 1 ≤ s.e.toNat → s.pxPtr.toNat + k ≤ s.n.toNat → s.n.toNat ≤ s.cfg.pxCap →
      ∃ t, exec (.run k) s = .next t ∧
        (∀ j < k, t.pixelWord (s.pxPtr.toNat + j) = pix32 s.prev) ∧ t.cacheLookup (pixelHash s.prev) = s.prev ∧
        t.prev = s.prev ∧ t.pxPtr.toNat = s.pxPtr.toNat + k ∧ t.bsPtr.toNat = s.bsPtr.toNat + 1 ∧
        ChunkFrame s t s.prev k) ∧
    ∀ (s : State) (k : Nat), s.n.toNat < s.pxPtr.toNat + k →
      ∃ t, exec (.run k) s = .next t ∧ FailedWith t 7 ∧ ∀ j, s.n.toNat ≤ j → t.pixelWord j = s.pixelWord j

/-- Rule R210, LUMA: its bytes; the three channels moved by `dg`, `dr = (dr-dg) + dg`, `db = (db-dg) + dg` modulo 256, alpha
unchanged, with the frame; and TRUNCATED when the second byte is at or after `E`. Derived: that `RUN_CNT`
is unchanged is the model's choice of notes/assumptions/8.md (U5: any value during a decode pass), and that a term outside the ranges of
rule R102 follows the same formulas is the choice of notes/assumptions/14.md. -/
def Obligations.LumaChunk : Prop :=
  (∀ (b0 b1 : Byte) rest, b0.toNat / 64 = 2 →
      decode (b0 :: b1 :: rest) =
        .ok (.luma ((b0.toNat : Int) % 64 - 32) ((b1.toNat : Int) / 16 - 8) ((b1.toNat : Int) % 16 - 8), rest)) ∧
    (∀ (s : State) (dg drdg dbdg : Int), ChunkFits s 2 →
      ∃ t p, exec (.luma dg drdg dbdg) s = .next t ∧ ChannelSum s.prev.r (drdg + dg) p.r ∧ ChannelSum s.prev.g dg p.g ∧
        ChannelSum s.prev.b (dbdg + dg) p.b ∧ p.a = s.prev.a ∧ PixelCommitted s t p 2 ∧ ChunkFrame s t p 1) ∧
    ∀ (s : State) (b0 : Byte), b0.toNat / 64 = 2 → ChunkCutOff s b0 2 → ∃ t, decChunkStep s = .next t ∧ FailedWith t 6

/-- Rule R211, DIFF: its byte; each channel moved by its delta modulo 256, alpha unchanged, with the frame. Derived: that `RUN_CNT`
is unchanged is the model's choice of notes/assumptions/8.md (U5: any value during a decode pass), and that a term outside the ranges of
rule R102 follows the same formulas is the choice of notes/assumptions/14.md. -/
def Obligations.DiffChunk : Prop :=
  (∀ (b0 : Byte) rest, b0.toNat / 64 = 1 →
      decode (b0 :: rest) =
        .ok (.diff ((b0.toNat : Int) / 16 % 4 - 2) ((b0.toNat : Int) / 4 % 4 - 2) ((b0.toNat : Int) % 4 - 2), rest)) ∧
    ∀ (s : State) (dr dg db : Int), ChunkFits s 1 →
      ∃ t p, exec (.diff dr dg db) s = .next t ∧ ChannelSum s.prev.r dr p.r ∧ ChannelSum s.prev.g dg p.g ∧
        ChannelSum s.prev.b db p.b ∧ p.a = s.prev.a ∧ PixelCommitted s t p 1 ∧ ChunkFrame s t p 1

/-- Rule R212, INDEX: its byte; the pixel of the slot, alpha included, stored at its own hash, with the frame. Derived: that `RUN_CNT`
is unchanged is the model's choice of notes/assumptions/8.md (U5: any value during a decode pass). -/
def Obligations.IndexChunk : Prop :=
  (∀ (b0 : Byte) rest (k : Slot), b0.toNat / 64 = 0 → k.val = b0.toNat → decode (b0 :: rest) = .ok (.index k, rest)) ∧
    ∀ (s : State) (k : Slot), ChunkFits s 1 →
      ∃ t, exec (.index k) s = .next t ∧ PixelCommitted s t (s.cacheLookup k) 1 ∧ ChunkFrame s t (s.cacheLookup k) 1

/-- The write of a single-pixel chunk is computed with the model's own cursor: whatever such a chunk answers, only the pixel
at `PX_PTR` and the slot of the new `PREV`'s hash may change (frame of RGB, RGBA, LUMA, DIFF and INDEX from the next state
alone, in every state). Derived: that `RUN_CNT`
is unchanged is the model's choice of notes/assumptions/8.md (U5: any value during a decode pass), and that a term outside the ranges of
rule R102 follows the same formulas is the choice of notes/assumptions/14.md. -/
def Obligations.SinglePixelChunkFrame : Prop :=
  ∀ (i : Instr) (s t : State), (∀ k, i ≠ .run k) → exec i s = .next t →
    ChunkFrame s t t.prev 1 ∧ t.pixelWord s.pxPtr.toNat = pix32 t.prev ∧ t.cacheLookup (pixelHash t.prev) = t.prev

/-! ## The decoder's steps -/

/-- Rule R205: at the pipeline's turn in DEC with pixels missing, no byte left before `E`, or a chunk that would cross it,
fails the pass with TRUNCATED. -/
def Obligations.TruncatedChunkFails : Prop :=
  ∀ s : State, s.pass = .dec → s.pipelineTurn → s.pxPtr < s.n → s.e.toNat ≤ s.cfg.bsCap →
    s.e.toNat ≤ s.bsPtr.toNat ∨ s.e.toNat < s.bsPtr.toNat + chunkLen (s.streamByte s.bsPtr.toNat) →
    ∃ t, step s = .next t ∧ FailedWith t 6

/-- Rule R206 for a whole step: when the bytes of the chunk region from `BS_PTR` on decode to a chunk, the pipeline's step
executes exactly that chunk; around it the step only takes its turn off the list (the model's own, notes/assumptions/7.md). -/
def Obligations.StepExecutesDecodedChunk : Prop :=
  ∀ (s : State) (i : Instr) (rest : List Byte), s.pass = .dec → s.pipelineTurn → s.pxPtr < s.n →
    s.e.toNat ≤ s.cfg.bsCap →
    decode (s.streamBytes s.bsPtr.toNat (s.e.toNat - s.bsPtr.toNat)) = .ok (i, rest) →
    step s = exec i { s with turns := s.turns.tail }

/-- Rule R285, with the tests of rule R201: from any state with no pass running, a START with MODE = 1 reports the first
failing check, in this order, and touches no memory. -/
def Obligations.DecodeStartReportsFirstFailure : Prop :=
  ∀ (s : State) (v : Word), s.busy = false → s.cfg.wf → v.getLsbD 0 = true → v.getLsbD 1 = true →
    ∃ t, hostMove (.writeReg 0 v) s = .next t ∧ t.px = s.px ∧ t.bs = s.bs ∧ HostValuesKept s t ∧
      if s.inLen.toNat > s.cfg.bsCap then FailedWith t 9
      else if s.inLen.toNat < 14 then FailedWith t 6
      else if s.streamBytes 0 4 ≠ s.cfg.magic.bytes then FailedWith t 1
      else if s.streamByte 12 ≠ 3 ∧ s.streamByte 12 ≠ 4 then FailedWith t 2
      else if s.streamByte 13 ≠ 0 ∧ s.streamByte 13 ≠ 1 then FailedWith t 3
      else if s.streamBytes 4 4 = [0, 0, 0, 0] then FailedWith t 4
      else if s.streamBytes 8 4 = [0, 0, 0, 0] then FailedWith t 5
      else if (s.streamWord 4).toNat * (s.streamWord 8).toNat > s.cfg.pxCap then FailedWith t 9
      else if s.inLen.toNat < 22 ∨ s.streamBytes (s.inLen.toNat - 8) 8 ≠ [0, 0, 0, 0, 0, 0, 0, 1] then FailedWith t 8
      else t.pass = .dec

/-- Rules R201, R202 and R321: a decode pass that starts has the pass state reset, the header's fields read big-endian, the
exact product in `N`, and the cursors at the first pixel and the first chunk. -/
def Obligations.DecodeStartEstablishesPass : Prop :=
  ∀ (s t : State) (v : Word), s.busy = false → s.cfg.wf → v.getLsbD 0 = true → v.getLsbD 1 = true →
    hostMove (.writeReg 0 v) s = .next t → t.pass = .dec →
    s.streamBytes 4 4 = be32 t.hdrW ∧ s.streamBytes 8 4 = be32 t.hdrH ∧ t.hdrC = s.streamByte 12 ∧
      t.hdrS = s.streamByte 13 ∧ t.n.toNat = t.hdrW.toNat * t.hdrH.toNat ∧ t.l = s.inLen ∧
      t.e.toNat = s.inLen.toNat - 8 ∧ t.bsPtr = 14 ∧ t.pxPtr = 0 ∧ t.prev = ⟨0, 0, 0, 255⟩ ∧ t.runCnt = 0 ∧
      (∀ k, t.cacheLookup k = ⟨0, 0, 0, 0⟩) ∧ t.errcode = 0 ∧ t.outLen = 0 ∧ t.mode = .decode ∧
      HostValuesKept s t ∧ t.px = s.px ∧ t.bs = s.bs

/-- Rule R214: with the pixel buffer full, the finish step copies the header's fields to the registers and ends the pass
DONE, or fails with END_MARKER when chunk bytes are left over. -/
def Obligations.DecodeFinish : Prop :=
  ∀ s : State, s.pass = .dec → s.pipelineTurn → ¬s.pxPtr < s.n →
    ∃ t, step s = .next t ∧
      if s.bsPtr = s.e then
        t.pass = .done ∧ t.width = s.hdrW ∧ t.height = s.hdrH ∧ t.channels = s.hdrC ∧ t.colorspace = s.hdrS ∧
          t.outLen = s.n ∧ t.inLen = s.inLen ∧ t.mode = s.mode ∧ t.errcode = s.errcode ∧ t.px = s.px ∧ t.bs = s.bs
      else FailedWith t 8 ∧ HostValuesKept s t

/-! ## The encoder -/

/-- Rules R151 and R284: from any state with no pass running, a START with MODE = 0 reports the first failing check, in this
order; a failed start touches no memory. -/
def Obligations.EncodeStartReportsFirstFailure : Prop :=
  ∀ (s : State) (v : Word), s.busy = false → s.cfg.wf → v.getLsbD 0 = true → v.getLsbD 1 = false →
    ∃ t, hostMove (.writeReg 0 v) s = .next t ∧ HostValuesKept s t ∧ t.px = s.px ∧ (t.pass = .err → t.bs = s.bs) ∧
      if s.channels ≠ 3 ∧ s.channels ≠ 4 then FailedWith t 2
      else if s.colorspace ≠ 0 ∧ s.colorspace ≠ 1 then FailedWith t 3
      else if s.width = 0 then FailedWith t 4
      else if s.height = 0 then FailedWith t 5
      else if s.width.toNat * s.height.toNat > s.cfg.pxCap then FailedWith t 9
      else t.pass = .enc

/-- Rules R150 and R321: an encode pass that starts has the pass state reset, the header's fields latched, the exact product
in `N`, and the 14 header bytes, and nothing else, written. -/
def Obligations.EncodeStartEstablishesPass : Prop :=
  ∀ (s t : State) (v : Word), s.busy = false → s.cfg.wf → v.getLsbD 0 = true → v.getLsbD 1 = false →
    hostMove (.writeReg 0 v) s = .next t → t.pass = .enc →
    t.hdrW = s.width ∧ t.hdrH = s.height ∧ t.hdrC = s.channels ∧ t.hdrS = s.colorspace ∧
      t.n.toNat = s.width.toNat * s.height.toNat ∧
      t.streamBytes 0 14 = s.cfg.magic.bytes ++ be32 s.width ++ be32 s.height ++ [s.channels, s.colorspace] ∧
      (∀ a, 14 ≤ a → t.streamByte a = s.streamByte a) ∧ t.bsPtr = 14 ∧ t.pxPtr = 0 ∧ t.prev = ⟨0, 0, 0, 255⟩ ∧
      t.runCnt = 0 ∧ (∀ k, t.cacheLookup k = ⟨0, 0, 0, 0⟩) ∧ t.errcode = 0 ∧ t.outLen = 0 ∧ t.mode = .encode ∧
      HostValuesKept s t ∧ t.px = s.px

/-- Rule R152: `Emit` writes all its bytes at `BS_PTR` and moves the cursor past them, or, where they do not fit, raises
CAPACITY with nothing written. -/
def Obligations.EmitAllOrNothing : Prop :=
  ∀ (s : State) (bytes : List Byte), s.cfg.bsCap < 2 ^ 32 →
    if s.bsPtr.toNat + bytes.length > s.cfg.bsCap then emit bytes s = .error (.error .capacity s)
    else
      ∃ t, emit bytes s = .ok t ∧ t.streamBytes s.bsPtr.toNat bytes.length = bytes ∧
        t.bsPtr.toNat = s.bsPtr.toNat + bytes.length ∧
        (∀ a, a < s.bsPtr.toNat ∨ s.bsPtr.toNat + bytes.length ≤ a → t.streamByte a = s.streamByte a) ∧
        RegistersKept s t ∧ LatchesKept s t ∧ QueuesKept s t ∧ t.px = s.px ∧ t.cache = s.cache ∧ t.prev = s.prev ∧
        t.runCnt = s.runCnt ∧ t.pxPtr = s.pxPtr

/-- Rule R155: a pixel equal to `PREV` that neither fills a run nor ends the image is counted and emits nothing; the cache is
neither read nor written. -/
def Obligations.RunPixelCounted : Prop :=
  ∀ s : State, EncoderReads s s.prev → s.runCnt.toNat ≤ 60 → s.pxPtr.toNat + 1 ≠ s.n.toNat →
    ∃ t, encPixelStep s = .ok t ∧ PixelEncoded s t s.prev [] ∧ t.runCnt.toNat = s.runCnt.toNat + 1 ∧ t.cache = s.cache

/-- Rule R156: the 62nd pixel of a run, or one at the last pixel, flushes the run as one RUN chunk, whose lead byte never
reaches 0xFE; CAPACITY if the byte does not fit. -/
def Obligations.RunFlushedWhenFullOrLast : Prop :=
  ∀ s : State, EncoderReads s s.prev → s.runCnt.toNat ≤ 61 → s.runCnt.toNat = 61 ∨ s.pxPtr.toNat + 1 = s.n.toNat →
    0xC0 ||| BitVec.ofNat 8 s.runCnt.toNat < (0xFE : Byte) ∧
      if s.bsPtr.toNat + 1 ≤ s.cfg.bsCap then
        ∃ t, encPixelStep s = .ok t ∧ PixelEncoded s t s.prev [0xC0 ||| BitVec.ofNat 8 s.runCnt.toNat] ∧ t.runCnt = 0 ∧
          t.cache = s.cache
      else ∃ u, encPixelStep s = .error (.error .capacity u)

/-- Rules R157 and R158 in one step: a pixel that differs from `PREV` and is held by the slot of its hash emits a pending run
first, then INDEX, and stores nothing; CAPACITY if the bytes do not fit (rules R152, R286). -/
def Obligations.CacheHitEmitsIndex : Prop :=
  ∀ (s : State) (p : Pixel), EncoderReads s p → p ≠ s.prev → s.runCnt.toNat ≤ 61 → s.cacheLookup (pixelHash p) = p →
    let run := if s.runCnt = 0 then [] else [0xC0 ||| BitVec.ofNat 8 (s.runCnt.toNat - 1)]
    let bytes := run ++ [BitVec.ofNat 8 (pixelHash p).val]
    if s.bsPtr.toNat + bytes.length ≤ s.cfg.bsCap then
      ∃ t, encPixelStep s = .ok t ∧ PixelEncoded s t p bytes ∧ t.runCnt = 0 ∧ t.cache = s.cache
    else ∃ u, encPixelStep s = .error (.error .capacity u)

/-- Rules R157 and R159 to R164 in one step: a pixel that differs from `PREV` and misses emits a pending run first, then DIFF,
LUMA or RGB by its deltas when its alpha is `PREV`'s, else RGBA; it is stored in the slot of its hash and no other; CAPACITY
if the bytes do not fit (rules R152, R286). -/
def Obligations.CacheMissEmitsFirstFittingChunk : Prop :=
  ∀ (s : State) (p : Pixel), EncoderReads s p → p ≠ s.prev → s.runCnt.toNat ≤ 61 → s.cacheLookup (pixelHash p) ≠ p →
    let run := if s.runCnt = 0 then [] else [0xC0 ||| BitVec.ofNat 8 (s.runCnt.toNat - 1)]
    let dr := (p.r - s.prev.r).toInt
    let dg := (p.g - s.prev.g).toInt
    let db := (p.b - s.prev.b).toInt
    let chunk : List Byte :=
      if p.a = s.prev.a then
        if -2 ≤ dr ∧ dr ≤ 1 ∧ -2 ≤ dg ∧ dg ≤ 1 ∧ -2 ≤ db ∧ db ≤ 1 then
          [BitVec.ofInt 8 (0x40 + (dr + 2) * 16 + (dg + 2) * 4 + (db + 2))]
        else if -32 ≤ dg ∧ dg ≤ 31 ∧ -8 ≤ dr - dg ∧ dr - dg ≤ 7 ∧ -8 ≤ db - dg ∧ db - dg ≤ 7 then
          [BitVec.ofInt 8 (0x80 + (dg + 32)), BitVec.ofInt 8 ((dr - dg + 8) * 16 + (db - dg + 8))]
        else [0xFE, p.r, p.g, p.b]
      else [0xFF, p.r, p.g, p.b, p.a]
    if s.bsPtr.toNat + (run ++ chunk).length ≤ s.cfg.bsCap then
      ∃ t, encPixelStep s = .ok t ∧ PixelEncoded s t p (run ++ chunk) ∧ t.runCnt = 0 ∧
        ∀ k : Slot, t.cacheLookup k = if k = pixelHash p then p else s.cacheLookup k
    else ∃ u, encPixelStep s = .error (.error .capacity u)

/-- Rules R152 and R286: an encoder pixel step raises no error but CAPACITY, and raises it only when the bytes it has to emit,
at most 6, do not fit. -/
def Obligations.EncoderStepErrorIsCapacity : Prop :=
  ∀ (s u : State) (c : QoiError), encPixelStep s = .error (.error c u) →
    c = .capacity ∧ s.cfg.bsCap < s.bsPtr.toNat + 6

/-- Rule R166: the tail step appends the 8-byte end marker, sets `OUT_LEN` to the length of the stream and ends the pass DONE;
CAPACITY if the marker does not fit. -/
def Obligations.EncodeTail : Prop :=
  ∀ s : State, s.pass = .enc → s.pipelineTurn → ¬s.pxPtr < s.n → s.cfg.bsCap < 2 ^ 32 →
    ∃ t, step s = .next t ∧
      if s.bsPtr.toNat + 8 ≤ s.cfg.bsCap then
        t.pass = .done ∧ t.outLen.toNat = s.bsPtr.toNat + 8 ∧
          t.streamBytes s.bsPtr.toNat 8 = [0, 0, 0, 0, 0, 0, 0, 1] ∧
          (∀ a, a < s.bsPtr.toNat ∨ s.bsPtr.toNat + 8 ≤ a → t.streamByte a = s.streamByte a) ∧ t.px = s.px ∧
          HostValuesKept s t ∧ t.mode = s.mode ∧ t.errcode = s.errcode
      else FailedWith t 9

/-- Rule R168: the channel count and the color space have no effect on a pixel step. -/
def Obligations.HeaderMetadataDoesNotAffectPixels : Prop :=
  ∀ (s t : State) (c d : Byte), encPixelStep s = .ok t →
    encPixelStep { s with hdrC := c, hdrS := d } = .ok { t with hdrC := c, hdrS := d }

/-- Rule R216 for one chunk: the chunk the encoder chooses on a miss is well-formed and, executed with the same previous
pixel, commits the pixel it was made from. -/
def Obligations.MissChunkDecodesToItsPixel : Prop :=
  ∀ (s : State) (p : Pixel), ChunkFits s 5 →
    (encMissChunk p s.prev).wf = true ∧
      ∃ t, exec (encMissChunk p s.prev) s = .next t ∧ PixelCommitted s t p (encode (encMissChunk p s.prev)).length

/-- Rule R130: the hash of unsigned channels modulo 64, a sum of at most 13 bits, which depends only on the low 6 bits of its
terms, with the corner values the rule gives. -/
def Obligations.HashModulo64 : Prop :=
  (∀ p : Pixel,
      p.r.toNat * 3 + p.g.toNat * 5 + p.b.toNat * 7 + p.a.toNat * 11 ≤ 6630 ∧
      (pixelHash p).val = (p.r.toNat * 3 + p.g.toNat * 5 + p.b.toNat * 7 + p.a.toNat * 11) % 64 ∧
        (pixelHash p).val =
          (p.r.toNat % 64 * 3 % 64 + p.g.toNat % 64 * 5 % 64 + p.b.toNat % 64 * 7 % 64 + p.a.toNat % 64 * 11 % 64) % 64) ∧
    pixelHash ⟨0, 0, 0, 0⟩ = 0 ∧ pixelHash ⟨0, 0, 0, 255⟩ = 53 ∧ pixelHash ⟨255, 255, 255, 255⟩ = 38 ∧ pixelHash ⟨10, 20, 30, 255⟩ = 9

/-! ## The host's moves -/

/-- Rule R250: a step is one move of one agent, the first of the turns to come (the turn list is the model's own,
notes/assumptions/7.md), and the pipeline's when none is named. -/
def Obligations.StepIsOneMove : Prop :=
  ∀ s : State,
    (s.turns = [] → step s = pipelineMove s) ∧
      ∀ turn rest, s.turns = turn :: rest → step s = move turn { s with turns := rest }

/-- Rules R153 and R204: at the pipeline's turn exactly one step runs, the pixel or chunk step while `PX_PTR < N`, else the
tail or finish step; with no pass running nothing changes. Around it the step only takes its turn off the list (the model's
own, notes/assumptions/7.md). The statements about `encPixelStep` reach a run through this one. -/
def Obligations.OneStepEnabled : Prop :=
  ∀ s : State, s.pipelineTurn →
    let s' : State := { s with turns := s.turns.tail }
    (s.pass = .enc → s.pxPtr < s.n → step s = settle .encStep (encPixelStep s')) ∧
      (s.pass = .enc → ¬s.pxPtr < s.n → step s = settle .encStep (encTail s')) ∧
      (s.pass = .dec → s.pxPtr < s.n → step s = decChunkStep s') ∧
      (s.pass = .dec → ¬s.pxPtr < s.n → step s = settle .decStep (decFinish s')) ∧
      (s.busy = false → step s = .next s')

/-- Rules R251 and R71: a register read gives the register's value with reserved bits 0, and changes nothing but what the
host has been told. -/
def Obligations.RegisterReads : Prop :=
  ∀ (s : State) (r : RegNum),
    hostMove (.readReg r) s = .next { s with answers := .register r (readReg s r) :: s.answers } ∧
      (r.val = 0 → readReg s r = if s.mode = .decode then 2 else 0) ∧ (r.val = 1 → readReg s r = statusWord s) ∧
      (r.val = 2 → readReg s r = s.width) ∧ (r.val = 3 → readReg s r = s.height) ∧
      (r.val = 4 → (readReg s r).toNat = s.channels.toNat) ∧ (r.val = 5 → (readReg s r).toNat = s.colorspace.toNat) ∧
      (r.val = 6 → readReg s r = s.inLen) ∧ (r.val = 7 → readReg s r = s.outLen) ∧ (8 ≤ r.val → readReg s r = 0)

/-- Rule R37: the fields of `STATUS`, 0 at reset, which a read leaves alone and a write does not change. -/
def Obligations.StatusFields : Prop :=
  statusWord State.reset = 0 ∧ ∀ s : State,
    ((statusWord s).getLsbD 0 = true ↔ s.pass = .enc ∨ s.pass = .dec) ∧
      ((statusWord s).getLsbD 1 = true ↔ s.pass = .done) ∧ ((statusWord s).getLsbD 2 = true ↔ s.pass = .err) ∧
      (statusWord s).getLsbD 3 = false ∧
      (statusWord s).toNat / 16 = (if s.pass = .err then s.errcode.toNat else 0) ∧
      ((statusWord s).toNat % 8 = 0 ↔ s.pass = .idle) ∧
      hostMove (.readReg 1) s = .next { s with answers := .register 1 (statusWord s) :: s.answers } ∧
      ∀ v, hostMove (.writeReg 1 v) s = .next s

/-- Rule R252: what a register write does. While a pass runs it is ignored (rule R45); a `CTRL` write is `CtrlWrite`, which
with START = 0 stores MODE alone (rule R253); the read-only and the reserved numbers ignore it (rule R44). -/
def Obligations.RegisterWrites : Prop :=
  ∀ (s : State) (r : RegNum) (v : Word),
    (s.busy = true → hostMove (.writeReg r v) s = .next s) ∧
      (s.busy = false →
        (r.val = 0 → hostMove (.writeReg r v) s = ctrlWrite v s) ∧
          (r.val = 0 → v.getLsbD 0 = false →
            hostMove (.writeReg r v) s = .next { s with mode := if v.getLsbD 1 then .decode else .encode }) ∧
          (r.val = 1 → hostMove (.writeReg r v) s = .next s) ∧
          (r.val = 2 → hostMove (.writeReg r v) s = .next { s with width := v }) ∧
          (r.val = 3 → hostMove (.writeReg r v) s = .next { s with height := v }) ∧
          (r.val = 4 → hostMove (.writeReg r v) s = .next { s with channels := v.setWidth 8 }) ∧
          (r.val = 5 → hostMove (.writeReg r v) s = .next { s with colorspace := v.setWidth 8 }) ∧
          (r.val = 6 → hostMove (.writeReg r v) s = .next { s with inLen := v }) ∧
          (r.val = 7 → hostMove (.writeReg r v) s = .next s) ∧
          (8 ≤ r.val → hostMove (.writeReg r v) s = .next s))

/-- Rule R45 and U15: while a pass runs, every register write is ignored, a register read only tells the host the value, and
so any host move that is answered leaves the block as it was: every interleaving gives the same pass. -/
def Obligations.HostMovesLeaveRunningPassAlone : Prop :=
  ∀ s : State, s.busy = true →
    (∀ r v, hostMove (.writeReg r v) s = .next s) ∧
      (∀ r, hostMove (.readReg r) s = .next { s with answers := .register r (readReg s r) :: s.answers }) ∧
      ∀ (t : State) (op : HostOp) (rest : List Turn), s.turns = .host op :: rest → step s = .next t →
        t = { s with turns := rest, answers := t.answers }

/-- Rules R63, R65, R69 and R72: a host access inside a memory writes and reads that location alone; outside it, a read gives
0 and a write is ignored. Nothing else changes, the pipeline's registers and the cache among it (rules R21, R138), but for
the list of answers that a read adds to (the model's own, notes/assumptions/7.md). -/
def Obligations.HostMemoryAccess : Prop :=
  ∀ s : State, s.busy = false →
    (∀ i w, ∃ t, hostMove (.writePixel i w) s = .next t ∧ RegistersKept s t ∧ LatchesKept s t ∧ PipelineKept s t ∧
        QueuesKept s t ∧ t.bs = s.bs ∧
        ∀ j, t.pixelWord j = if j = i ∧ i < s.cfg.pxCap then w else s.pixelWord j) ∧
      (∀ a b, ∃ t, hostMove (.writeStream a b) s = .next t ∧ RegistersKept s t ∧ LatchesKept s t ∧ PipelineKept s t ∧
        QueuesKept s t ∧ t.px = s.px ∧
        ∀ j, t.streamByte j = if j = a ∧ a < s.cfg.bsCap then b else s.streamByte j) ∧
      (∀ i, hostMove (.readPixel i) s =
        .next { s with answers := .pixel i (if i < s.cfg.pxCap then s.pixelWord i else 0) :: s.answers }) ∧
      ∀ a, hostMove (.readStream a) s =
        .next { s with answers := .byte a (if a < s.cfg.bsCap then s.streamByte a else 0) :: s.answers }

/-- Rule R255 (U6): a host access to a memory while a pass runs is no move of the model; it is refused by name. -/
def Obligations.MemoryAccessWhileBusyRefused : Prop :=
  ∀ (s : State) (op : HostOp), s.busy = true → op.touchesMemory = true →
    hostMove op s = .refused .hostMemoryAccessWhileBusy

/-- Rule R254: two blocks with the same parameters, registers and memories, whatever else an earlier pass left in them, start
the same pass from the same `CTRL` write (with the same numbers for the draws to come). -/
def Obligations.StartForgetsEarlierPasses : Prop :=
  ∀ (s₁ s₂ t₁ t₂ : State) (v : Word), s₁.busy = false → s₂.busy = false → v.getLsbD 0 = true →
    s₁.cfg = s₂.cfg → HostValuesKept s₁ s₂ → s₁.px = s₂.px → s₁.bs = s₂.bs → s₁.draws = s₂.draws →
    hostMove (.writeReg 0 v) s₁ = .next t₁ → hostMove (.writeReg 0 v) s₂ = .next t₂ →
    t₁.pass = t₂.pass ∧ t₁.errcode = t₂.errcode ∧ t₁.outLen = t₂.outLen ∧ t₁.mode = t₂.mode ∧ t₁.px = t₂.px ∧
      t₁.bs = t₂.bs ∧
      (t₁.busy = true →
        t₁.prev = t₂.prev ∧ t₁.runCnt = t₂.runCnt ∧ t₁.cache = t₂.cache ∧ t₁.pxPtr = t₂.pxPtr ∧ t₁.bsPtr = t₂.bsPtr ∧
          LatchesKept t₁ t₂)

/-! ## Errors and reset -/

/-- Rule R283: what raising an error leaves, for an error of a start, of an encoder step and of a decoder step; the
unspecified registers and locations hold the free values of a fresh draw, whatever they are (notes/assumptions/4.md). Rule
R283 says nothing of the latches `N`, `L`, `E`, `HDR_*`: that they are kept is the model's choice of
notes/assumptions/12.md. -/
def Obligations.RaisedErrorState : Prop :=
  ∀ (site : ErrorSite) (c : QoiError) (s t : State), t = raiseError site c s →
    settle site (.error (.error c s)) = .next t ∧ FailedWith t c.code ∧ HostValuesKept s t ∧ t.mode = s.mode ∧
      LatchesKept s t ∧ pipelineMove t = .next t ∧ t.prev = Config.freePrev s.draws ∧
      t.runCnt.toNat = (Config.freeRunCnt s.draws).val ∧ t.pxPtr = Config.freePxPtr s.draws ∧
      t.bsPtr = Config.freeBsPtr s.draws ∧ t.cache = Config.freeCache s.draws ∧
      (∀ i, t.pixelWord i =
        if site = .decStep ∧ i < s.n.toNat then Config.freePixelWord s.draws i else s.pixelWord i) ∧
      ∀ a, t.streamByte a =
        if site = .encStep ∧ a < s.cfg.bsCap then Config.freeStreamByte s.draws a else s.streamByte a

/-- Rule R281: the codes of the nine errors. -/
def Obligations.ErrorCodes : Prop :=
  QoiError.badMagic.code = 1 ∧ QoiError.badChannels.code = 2 ∧ QoiError.badColorspace.code = 3 ∧
    QoiError.badWidth.code = 4 ∧ QoiError.badHeight.code = 5 ∧ QoiError.truncated.code = 6 ∧
    QoiError.overrun.code = 7 ∧ QoiError.endMarker.code = 8 ∧ QoiError.capacity.code = 9

/-- Rule R288: `STATE` stays ERR, with its code, until the host starts a new pass, which clears `ERRCODE`, or power-on
reset. -/
def Obligations.ErrorStaysUntilStartOrReset : Prop :=
  ∀ s t : State, s.pass = .err → step s = .next t →
    (t.pass = .err ∧ t.errcode = s.errcode) ∨ (∃ rest, s.turns = .powerOn :: rest) ∨
      ∃ v rest, s.turns = .host (.writeReg 0 v) :: rest ∧ v.getLsbD 0 = true ∧ (t.pass ≠ .err → t.errcode = 0)

/-- Rules R320 and R46: power-on reset from any state leaves IDLE with `ERRCODE` and every register of the register block 0,
and every datapath register, every cache slot and every location of both memories unspecified: the free values of a fresh
draw (notes/assumptions/4.md), whatever they are; after it nothing steps until a START. That the parameters stay is
notes/assumptions/16.md. -/
def Obligations.PowerOnReset : Prop :=
  ∀ s : State, ∃ t, move .powerOn s = .next t ∧ t.pass = .idle ∧ (∀ r, readReg t r = 0) ∧ t.errcode = 0 ∧
    t.prev = Config.freePrev s.draws ∧ t.runCnt.toNat = (Config.freeRunCnt s.draws).val ∧
    t.pxPtr = Config.freePxPtr s.draws ∧ t.bsPtr = Config.freeBsPtr s.draws ∧ t.n = Config.freeN s.draws ∧
    t.l = Config.freeL s.draws ∧ t.e = Config.freeE s.draws ∧ t.hdrW = Config.freeHdrW s.draws ∧
    t.hdrH = Config.freeHdrH s.draws ∧ t.hdrC = Config.freeHdrC s.draws ∧ t.hdrS = Config.freeHdrS s.draws ∧
    t.cache = Config.freeCache s.draws ∧ (∀ i < s.cfg.pxCap, t.pixelWord i = Config.freePixelWord s.draws i) ∧
    (∀ a < s.cfg.bsCap, t.streamByte a = Config.freeStreamByte s.draws a) ∧ t.cfg = s.cfg ∧
    pipelineMove t = .next t

/-- Rules R46 and R320 of the state the host starts from: IDLE, every register of the register block 0, both memories with
nothing listed. (Its values for the datapath registers and the cache are the model's choice, notes/assumptions/1.md, and are
not stated.) -/
def Obligations.ResetState : Prop :=
  State.reset.pass = .idle ∧ (∀ r, readReg State.reset r = 0) ∧ State.reset.errcode = 0 ∧
    State.reset.px.cells = [] ∧ State.reset.bs.cells = [] ∧ step State.reset = .next State.reset

/-! ## The whole block -/

/-- Every step keeps the block's invariant: parameters, canonical memories, legal codes, the cache's slots, and the running
pass's cursors, lengths, pending run, header and marker (rules R24 to R27, R133, R167, R171). -/
def Obligations.StepKeepsInvariant : Prop :=
  ∀ s t : State, BlockInv s → step s = .next t → BlockInv t

/-- The invariant holds after reset (with the parameters and register values the model names, notes/assumptions/1.md,
2.md). -/
def Obligations.InvariantAtReset : Prop := BlockInv State.reset

/-- From a state with the invariant no step faults: a pipeline step never reaches a location that does not exist
(rules R24, R63, R65, R201). -/
def Obligations.NoFaultUnderInvariant : Prop :=
  ∀ (s : State) (f : Fault), BlockInv s → step s ≠ .fault f

/-- Only a host's breach of duty is refused: in every state, a refused step is a host access to a memory while a pass runs
(rule R255). -/
def Obligations.RefusalIsHostBreach : Prop :=
  ∀ (s : State) (r : Refusal), step s = .refused r →
    r = .hostMemoryAccessWhileBusy ∧ s.busy = true ∧
      ∃ op rest, s.turns = .host op :: rest ∧ op.touchesMemory = true

/-- Rule R30: the transitions of `STATE`, and nothing else. -/
def Obligations.PassStateTransitions : Prop :=
  ∀ s t : State, step s = .next t → t.pass ≠ s.pass →
    (∃ rest, s.turns = .powerOn :: rest ∧ t.pass = .idle) ∨
      (s.busy = false ∧ ∃ v rest, s.turns = .host (.writeReg 0 v) :: rest ∧ v.getLsbD 0 = true ∧
        (t.pass = .err ∨ t.pass = if v.getLsbD 1 then .dec else .enc)) ∨
      (s.pass = .enc ∧ s.pipelineTurn ∧ (t.pass = .err ∨ (t.pass = .done ∧ ¬s.pxPtr < s.n))) ∨
      (s.pass = .dec ∧ s.pipelineTurn ∧ (t.pass = .err ∨ (t.pass = .done ∧ ¬s.pxPtr < s.n)))

/-- Rule R70 for one step: an encoder step that raises no error leaves every pixel and writes stream bytes only between the
old and the new `BS_PTR`; a decoder step leaves every stream byte and, raising no error, writes pixels only between the old
and the new `PX_PTR`; both leave the values the host wrote, but for the registers a finishing decode reports in. -/
def Obligations.PassWritesOnlyItsOutput : Prop :=
  ∀ s t : State, BlockInv s → s.pipelineTurn → step s = .next t →
    (s.pass = .enc → t.px = s.px ∧ HostValuesKept s t ∧
        (t.pass ≠ .err → ∀ a, a < s.bsPtr.toNat ∨ t.bsPtr.toNat ≤ a → t.streamByte a = s.streamByte a)) ∧
      (s.pass = .dec → t.bs = s.bs ∧ t.inLen = s.inLen ∧ (t.pass ≠ .done → HostValuesKept s t) ∧
        (t.pass ≠ .err → ∀ i, i < s.pxPtr.toNat ∨ t.pxPtr.toNat ≤ i → t.pixelWord i = s.pixelWord i))

/-- Rule R171: the length of a completed stream. -/
def Obligations.EncodedLengthBounds : Prop :=
  ∀ s t : State, BlockInv s → s.pass = .enc → s.pipelineTurn → step s = .next t → t.pass = .done →
    22 + (s.n.toNat + 61) / 62 ≤ t.outLen.toNat ∧ t.outLen.toNat ≤ 22 + 5 * s.n.toNat

/-- Rule R259: with only the pipeline moving, a running pass ends DONE or ERR within one step for each pixel left and one
more. -/
def Obligations.EveryPassEnds : Prop :=
  ∀ s : State, BlockInv s → s.busy = true → s.turns = [] →
    ∃ t, Host.Core.run Sys2Proof.core (s.n.toNat - s.pxPtr.toNat + 1) s = .next t ∧ (t.pass = .done ∨ t.pass = .err)

/-- Rule R216, the round trip: whenever an encode pass, started from any state that has the invariant and no pass running,
completes, a decode pass of its output, in this block or any other with the same magic, room for the image and room for the
stream, completes with the same pixels and the same header registers. -/
def Obligations.DecodeRestoresEncodedImage : Prop :=
  ∀ (s t d : State) (k : Nat), BlockInv s → s.busy = false →
    Host.Core.run Sys2Proof.core (k + 1) { s with turns := [.host (.writeReg 0 1)] } = .next t → t.pass = .done →
    BlockInv d → d.busy = false → d.cfg.magic = s.cfg.magic → s.width.toNat * s.height.toNat ≤ d.cfg.pxCap →
    t.outLen.toNat ≤ d.cfg.bsCap → (∀ a < t.outLen.toNat, d.streamByte a = t.streamByte a) →
    ∃ m u,
      Host.Core.run Sys2Proof.core m
          { d with turns := [.host (.writeReg 6 t.outLen), .host (.writeReg 0 3)] } = .next u ∧
        u.pass = .done ∧ u.width = s.width ∧ u.height = s.height ∧ u.channels = s.channels ∧
        u.colorspace = s.colorspace ∧
        ∀ i < s.width.toNat * s.height.toNat, u.pixelAt i = s.pixelAt i
end

