-- ==== Sys2Proof/Laws/Decode.lean ====
section
/-! SUPPORT. The small laws of the decoder and encoder: bit fields as arithmetic, and classes from the top bits. -/

namespace Sys2Proof

theorem bits_seven_six (b : Byte) : bits b 7 6 = b.toNat / 64 := by
  have := b.isLt
  simp only [bits]
  omega

theorem bits_five_zero (b : Byte) : bits b 5 0 = b.toNat % 64 := by simp [bits]

theorem bits_seven_four (b : Byte) : bits b 7 4 = b.toNat / 16 := by
  have := b.isLt
  simp only [bits]
  omega

theorem bits_three_zero (b : Byte) : bits b 3 0 = b.toNat % 16 := by simp [bits]

theorem bits_five_four (b : Byte) : bits b 5 4 = b.toNat / 16 % 4 := by simp [bits]

theorem bits_three_two (b : Byte) : bits b 3 2 = b.toNat / 4 % 4 := by simp [bits]

theorem bits_one_zero (b : Byte) : bits b 1 0 = b.toNat % 4 := by simp [bits]

/-- A byte whose top bits are not `11` is neither of the two exact-value tags. -/
theorem ne_exact_tags {b : Byte} (h : b.toNat / 64 ≠ 3) : b ≠ 0xFE ∧ b ≠ 0xFF := by
  constructor <;> (rintro rfl; simp at h)

theorem classify_of_run {b : Byte} (h : b.toNat / 64 = 3) (h1 : b ≠ 0xFE) (h2 : b ≠ 0xFF) : classify b = .run := by
  rw [classify, if_neg h1, if_neg h2, bits_seven_six, if_pos h]

theorem classify_of_luma {b : Byte} (h : b.toNat / 64 = 2) : classify b = .luma := by
  have := ne_exact_tags (b := b) (by omega)
  rw [classify, if_neg this.1, if_neg this.2, bits_seven_six, if_neg (by omega), if_pos h]

theorem classify_of_diff {b : Byte} (h : b.toNat / 64 = 1) : classify b = .diff := by
  have := ne_exact_tags (b := b) (by omega)
  rw [classify, if_neg this.1, if_neg this.2, bits_seven_six, if_neg (by omega), if_neg (by omega), if_pos h]

theorem classify_of_index {b : Byte} (h : b.toNat / 64 = 0) : classify b = .index := by
  have := ne_exact_tags (b := b) (by omega)
  rw [classify, if_neg this.1, if_neg this.2, bits_seven_six, if_neg (by omega), if_neg (by omega), if_neg (by omega)]

/-- The length of a chunk is that of its class. -/
theorem chunkLen_eq (b : Byte) :
    chunkLen b =
      match classify b with
      | .rgb => 4
      | .rgba => 5
      | .run => 1
      | .luma => 2
      | .diff => 1
      | .index => 1 := by
  unfold chunkLen classify
  by_cases h1 : b = 0xFE
  · simp [h1]
  · by_cases h2 : b = 0xFF
    · simp [h2]
    · rw [if_neg h1, if_neg h2, if_neg h1, if_neg h2]
      by_cases h3 : bits b 7 6 = 3
      · simp [h3]
      · by_cases h4 : bits b 7 6 = 2
        · simp [h4]
        · by_cases h5 : bits b 7 6 = 1 <;> simp [h3, h4, h5]

theorem chunkLen_pos (b : Byte) : 1 ≤ chunkLen b := by
  unfold chunkLen
  repeat' split
  all_goals omega

theorem chunkLen_le_five (b : Byte) : chunkLen b ≤ 5 := by
  unfold chunkLen
  repeat' split
  all_goals omega

@[simp] theorem encode_run_length (n : Nat) : (encode (.run n)).length = 1 := rfl
@[simp] theorem encode_index_length (k : Slot) : (encode (.index k)).length = 1 := rfl

theorem encode_length_pos (i : Instr) : 1 ≤ (encode i).length := by cases i <;> simp [encode]

theorem encode_length_le_five (i : Instr) : (encode i).length ≤ 5 := by cases i <;> simp [encode]

end Sys2Proof
end

