-- ==== Sys2Proof/Laws/Memory.lean ====
section
/-! SUPPORT. The laws of the two memories: read after write, the canonical form, and what a draw changes. -/

namespace Sys2Proof.Machine

variable {α : Type}

/-! ### Cells -/

theorem lookupCell_insertCell (cells : List (Nat × α)) (a b : Nat) (v : α) :
    lookupCell (insertCell cells a v) b = if b = a then some v else lookupCell cells b := by
  induction cells with
  | nil => simp [insertCell, lookupCell]
  | cons c rest ih =>
    unfold insertCell
    split
    · simp [lookupCell]
    · split
      · by_cases hb : b = a <;> simp_all [lookupCell]
      · by_cases hb : b = a <;> by_cases hc : b = c.1 <;> simp_all [lookupCell]

theorem mem_insertCell {cells : List (Nat × α)} {a : Nat} {v : α} {c : Nat × α}
    (h : c ∈ insertCell cells a v) : c = (a, v) ∨ c ∈ cells := by
  induction cells with
  | nil => simpa [insertCell] using h
  | cons d rest ih =>
    unfold insertCell at h
    split at h
    · simpa using h
    · split at h <;> simp only [List.mem_cons] at h ⊢ <;> grind

theorem insertCell_pairwise {cells : List (Nat × α)} (h : cells.Pairwise fun c c' => c.1 < c'.1) (a : Nat) (v : α) :
    (insertCell cells a v).Pairwise fun c c' => c.1 < c'.1 := by
  induction cells with
  | nil => simp [insertCell]
  | cons c rest ih =>
    obtain ⟨hc, hr⟩ := List.pairwise_cons.1 h
    unfold insertCell
    split
    · refine List.pairwise_cons.2 ⟨fun d hd => ?_, h⟩
      rcases List.mem_cons.1 hd with rfl | hd
      · assumption
      · have := hc d hd
        simp only
        omega
    · split
      · exact List.pairwise_cons.2 ⟨fun d hd => by have := hc d hd; simp only; omega, hr⟩
      · refine List.pairwise_cons.2 ⟨fun d hd => ?_, ih hr⟩
        rcases mem_insertCell hd with rfl | hd
        · simp only
          omega
        · exact hc d hd

/-! ### One location -/

@[simp] theorem Mem.write_layers (m : Mem α) (a : Nat) (v : α) : (m.write a v).layers = m.layers := rfl

theorem Mem.read_write (free : Nat → Nat → α) (m : Mem α) (a b : Nat) (v : α) :
    (m.write a v).read free b = if b = a then v else m.read free b := by
  by_cases h : b = a <;> simp [Mem.read, Mem.write, lookupCell_insertCell, h]

theorem Mem.write_wf {m : Mem α} (h : m.wf) (a : Nat) (v : α) : (m.write a v).wf :=
  ⟨insertCell_pairwise h.1 a v, h.2⟩

/-! ### Consecutive locations -/

@[simp] theorem Mem.writeList_layers (m : Mem α) (a : Nat) (vs : List α) : (m.writeList a vs).layers = m.layers := by
  induction vs generalizing m a with
  | nil => rfl
  | cons v vs ih => simp [Mem.writeList, ih]

theorem Mem.writeList_wf {m : Mem α} (h : m.wf) (a : Nat) (vs : List α) : (m.writeList a vs).wf := by
  induction vs generalizing m a with
  | nil => exact h
  | cons v vs ih => exact ih (m.write_wf h a v) (a + 1)

theorem Mem.read_writeList_of_outside (free : Nat → Nat → α) (m : Mem α) (a b : Nat) (vs : List α)
    (h : b < a ∨ a + vs.length ≤ b) : (m.writeList a vs).read free b = m.read free b := by
  induction vs generalizing m a with
  | nil => rfl
  | cons v vs ih =>
    simp only [List.length_cons] at h
    rw [Mem.writeList, ih _ _ (by omega), Mem.read_write, if_neg (by omega)]

theorem Mem.read_writeList_of_inside (free : Nat → Nat → α) (m : Mem α) (a j : Nat) (vs : List α)
    (h : j < vs.length) : (m.writeList a vs).read free (a + j) = vs[j] := by
  induction vs generalizing m a j with
  | nil => simp at h
  | cons v vs ih =>
    cases j with
    | zero => rw [Mem.writeList, Mem.read_writeList_of_outside _ _ _ _ _ (by omega), Mem.read_write]; simp
    | succ j =>
      have := ih (m.write a v) (a + 1) j (by simpa using h)
      simpa [Mem.writeList, Nat.add_assoc, Nat.add_comm 1 j] using this

theorem Mem.mem_writeList_cells {m : Mem α} {a : Nat} {vs : List α} {c : Nat × α}
    (h : c ∈ (m.writeList a vs).cells) : c ∈ m.cells ∨ a ≤ c.1 ∧ c.1 < a + vs.length := by
  induction vs generalizing m a with
  | nil => exact .inl h
  | cons v vs ih =>
    simp only [List.length_cons]
    rcases ih h with h | h
    · rcases mem_insertCell h with rfl | h
      · right; simp only; omega
      · exact .inl h
    · right; omega

@[simp] theorem Mem.fill_layers (m : Mem α) (a : Nat) (v : α) (k : Nat) : (m.fill a v k).layers = m.layers := by
  induction k generalizing m a with
  | zero => rfl
  | succ k ih => simp [Mem.fill, ih]

theorem Mem.fill_eq_writeList (m : Mem α) (a : Nat) (v : α) (k : Nat) :
    m.fill a v k = m.writeList a (List.replicate k v) := by
  induction k generalizing m a with
  | zero => rfl
  | succ k ih => simp [Mem.fill, ih, Mem.writeList, List.replicate_succ]

theorem Mem.fill_wf {m : Mem α} (h : m.wf) (a : Nat) (v : α) (k : Nat) : (m.fill a v k).wf :=
  m.fill_eq_writeList a v k ▸ m.writeList_wf h a _

theorem Mem.read_fill (free : Nat → Nat → α) (m : Mem α) (a b : Nat) (v : α) (k : Nat) :
    (m.fill a v k).read free b = if a ≤ b ∧ b < a + k then v else m.read free b := by
  rw [Mem.fill_eq_writeList]
  split
  · next h =>
    obtain ⟨j, rfl⟩ := Nat.exists_eq_add_of_le h.1
    rw [Mem.read_writeList_of_inside _ _ _ _ _ (by simp; omega)]
    simp
  · next h => exact Mem.read_writeList_of_outside _ _ _ _ _ (by simp; omega)

/-! ### Draws -/

theorem lookupCell_filter_of_le (cells : List (Nat × α)) (size a : Nat) (h : size ≤ a) :
    lookupCell (cells.filter fun c => decide (size ≤ c.1)) a = lookupCell cells a := by
  induction cells with
  | nil => rfl
  | cons c rest ih => by_cases hc : size ≤ c.1 <;> by_cases ha : a = c.1 <;> simp_all [lookupCell]

theorem lookupCell_filter_of_lt (cells : List (Nat × α)) (size a : Nat) (h : a < size) :
    lookupCell (cells.filter fun c => decide (size ≤ c.1)) a = none := by
  induction cells with
  | nil => rfl
  | cons c rest ih =>
    by_cases hc : size ≤ c.1
    · simp [hc, lookupCell, ih, show a ≠ c.1 by omega]
    · simp [hc, ih]

theorem drawAt_filter_of_le (layers : List (Nat × Nat)) (size a : Nat) (h : size ≤ a) :
    drawAt (layers.filter fun y => decide (size < y.1)) a = drawAt layers a := by
  induction layers with
  | nil => rfl
  | cons y rest ih =>
    by_cases hy : size < y.1
    · simp [hy, drawAt, ih]
    · simp [hy, drawAt, ih, show ¬a < y.1 by omega]

/-- A draw gives every location below `size` the value of the draw and leaves the others alone. -/
theorem Mem.read_drawBelow (free : Nat → Nat → α) (m : Mem α) (size d a : Nat) :
    (m.drawBelow size d).read free a = if a < size then free d a else m.read free a := by
  unfold Mem.drawBelow
  split
  · next h => simp [h]
  · split
    · next h => simp [Mem.read, lookupCell_filter_of_lt _ _ _ h, drawAt, h]
    · next h =>
      simp [Mem.read, lookupCell_filter_of_le _ _ _ (Nat.le_of_not_lt h), drawAt, h,
        drawAt_filter_of_le _ _ _ (Nat.le_of_not_lt h)]

theorem Mem.drawBelow_wf {m : Mem α} (h : m.wf) (size d : Nat) : (m.drawBelow size d).wf := by
  unfold Mem.drawBelow
  split
  · exact h
  · refine ⟨h.1.filter _, List.pairwise_cons.2 ⟨fun y hy => ?_, h.2.1.filter _⟩, fun y hy => ?_⟩
    · simpa using (List.mem_filter.1 hy).2
    · rcases List.mem_cons.1 hy with rfl | hy
      · simp only; omega
      · exact h.2.2 y (List.mem_of_mem_filter hy)

theorem Mem.mem_drawBelow_cells {m : Mem α} {size d : Nat} {c : Nat × α} (h : c ∈ (m.drawBelow size d).cells) :
    c ∈ m.cells := by
  unfold Mem.drawBelow at h
  split at h
  · exact h
  · exact List.mem_of_mem_filter h

theorem Mem.mem_drawBelow_layers {m : Mem α} {size d : Nat} {y : Nat × Nat} (h : y ∈ (m.drawBelow size d).layers) :
    y = (size, d) ∨ y ∈ m.layers := by
  unfold Mem.drawBelow at h
  split at h
  · exact .inr h
  · rcases List.mem_cons.1 h with h | h
    · exact .inl h
    · exact .inr (List.mem_of_mem_filter h)

theorem Mem.empty_wf : (Mem.empty : Mem α).wf := by simp [Mem.wf, Mem.empty]

/-! ### The state's reads -/

/-- The value of a range depends on its bytes alone. -/
theorem State.streamBytes_congr {s t : State} {a n : Nat} (h : ∀ j < n, t.streamByte (a + j) = s.streamByte (a + j)) :
    t.streamBytes a n = s.streamBytes a n := by
  induction n generalizing a with
  | zero => rfl
  | succ n ih =>
    rw [State.streamBytes, State.streamBytes, ih fun j hj => ?_]
    · have := h 0 (by omega)
      simp_all
    · have := h (j + 1) (by omega)
      rwa [show a + (j + 1) = a + 1 + j by omega] at this

@[simp] theorem State.streamBytes_length (s : State) (a n : Nat) : (s.streamBytes a n).length = n := by
  induction n generalizing a with
  | zero => rfl
  | succ n ih => simp [State.streamBytes, ih]

end Sys2Proof.Machine
end

