-- ==== Sys2Proof/Laws/Operands.lean ====
section
/-! SUPPORT. The laws of the operand arithmetic. -/

namespace Sys2Proof.Machine

@[simp] theorem byteOf_joinBytes_three (b3 b2 b1 b0 : Byte) : byteOf (joinBytes b3 b2 b1 b0) 3 = b3 := by
  ext i hi
  simp only [byteOf, joinBytes, BitVec.getElem_extractLsb', BitVec.getLsbD_append]
  grind

@[simp] theorem byteOf_joinBytes_two (b3 b2 b1 b0 : Byte) : byteOf (joinBytes b3 b2 b1 b0) 2 = b2 := by
  ext i hi
  simp only [byteOf, joinBytes, BitVec.getElem_extractLsb', BitVec.getLsbD_append]
  grind

@[simp] theorem byteOf_joinBytes_one (b3 b2 b1 b0 : Byte) : byteOf (joinBytes b3 b2 b1 b0) 1 = b1 := by
  ext i hi
  simp only [byteOf, joinBytes, BitVec.getElem_extractLsb', BitVec.getLsbD_append]
  grind

@[simp] theorem byteOf_joinBytes_zero (b3 b2 b1 b0 : Byte) : byteOf (joinBytes b3 b2 b1 b0) 0 = b0 := by
  ext i hi
  simp only [byteOf, joinBytes, BitVec.getElem_extractLsb', BitVec.getLsbD_append]
  grind

@[simp] theorem joinBytes_byteOf (w : Word) : joinBytes (byteOf w 3) (byteOf w 2) (byteOf w 1) (byteOf w 0) = w := by
  apply BitVec.eq_of_getLsbD_eq
  intro i hi
  simp only [byteOf, joinBytes, BitVec.getLsbD_append, BitVec.getLsbD_extractLsb']
  grind

/-- A pixel read back from its word (rules R10, R63). -/
@[simp] theorem unpix32_pix32 (p : Pixel) : unpix32 (pix32 p) = p := by simp [unpix32, pix32]

@[simp] theorem pix32_unpix32 (w : Word) : pix32 (unpix32 w) = w := by simp [unpix32, pix32]

/-- A difference added back gives the channel, whatever the wrap (rule R11). -/
@[simp] theorem addDelta_d8 (x y : Byte) : addDelta y (d8 x y) = x := by
  rw [addDelta, d8, BitVec.ofInt_toInt, BitVec.add_comm, BitVec.sub_add_cancel]

theorem d8_range (x y : Byte) : -128 ≤ d8 x y ∧ d8 x y ≤ 127 := by
  have h1 := BitVec.toInt_lt (x := x - y)
  have h2 := BitVec.le_toInt (x := x - y)
  simp only [d8]
  omega

theorem pixelHash_val (p : Pixel) :
    (pixelHash p).val = (p.r.toNat * 3 + p.g.toNat * 5 + p.b.toNat * 7 + p.a.toNat * 11) % 64 := rfl

end Sys2Proof.Machine
end

