-- ==== Sys2Proof/Laws/State.lean ====
section
/-! SUPPORT. What each named update of the state does to each field, one lemma a field, all true by unfolding. -/

namespace Sys2Proof.Machine

/-! ### `answer` -/

@[simp] theorem answer_pass (x : HostAnswer) (s : State) : (answer x s).pass = s.pass := rfl
@[simp] theorem answer_mode (x : HostAnswer) (s : State) : (answer x s).mode = s.mode := rfl
@[simp] theorem answer_errcode (x : HostAnswer) (s : State) : (answer x s).errcode = s.errcode := rfl
@[simp] theorem answer_width (x : HostAnswer) (s : State) : (answer x s).width = s.width := rfl
@[simp] theorem answer_height (x : HostAnswer) (s : State) : (answer x s).height = s.height := rfl
@[simp] theorem answer_channels (x : HostAnswer) (s : State) : (answer x s).channels = s.channels := rfl
@[simp] theorem answer_colorspace (x : HostAnswer) (s : State) : (answer x s).colorspace = s.colorspace := rfl
@[simp] theorem answer_inLen (x : HostAnswer) (s : State) : (answer x s).inLen = s.inLen := rfl
@[simp] theorem answer_outLen (x : HostAnswer) (s : State) : (answer x s).outLen = s.outLen := rfl
@[simp] theorem answer_prev (x : HostAnswer) (s : State) : (answer x s).prev = s.prev := rfl
@[simp] theorem answer_runCnt (x : HostAnswer) (s : State) : (answer x s).runCnt = s.runCnt := rfl
@[simp] theorem answer_pxPtr (x : HostAnswer) (s : State) : (answer x s).pxPtr = s.pxPtr := rfl
@[simp] theorem answer_bsPtr (x : HostAnswer) (s : State) : (answer x s).bsPtr = s.bsPtr := rfl
@[simp] theorem answer_n (x : HostAnswer) (s : State) : (answer x s).n = s.n := rfl
@[simp] theorem answer_l (x : HostAnswer) (s : State) : (answer x s).l = s.l := rfl
@[simp] theorem answer_e (x : HostAnswer) (s : State) : (answer x s).e = s.e := rfl
@[simp] theorem answer_hdrW (x : HostAnswer) (s : State) : (answer x s).hdrW = s.hdrW := rfl
@[simp] theorem answer_hdrH (x : HostAnswer) (s : State) : (answer x s).hdrH = s.hdrH := rfl
@[simp] theorem answer_hdrC (x : HostAnswer) (s : State) : (answer x s).hdrC = s.hdrC := rfl
@[simp] theorem answer_hdrS (x : HostAnswer) (s : State) : (answer x s).hdrS = s.hdrS := rfl
@[simp] theorem answer_cache (x : HostAnswer) (s : State) : (answer x s).cache = s.cache := rfl
@[simp] theorem answer_px (x : HostAnswer) (s : State) : (answer x s).px = s.px := rfl
@[simp] theorem answer_bs (x : HostAnswer) (s : State) : (answer x s).bs = s.bs := rfl
@[simp] theorem answer_cfg (x : HostAnswer) (s : State) : (answer x s).cfg = s.cfg := rfl
@[simp] theorem answer_draws (x : HostAnswer) (s : State) : (answer x s).draws = s.draws := rfl
@[simp] theorem answer_turns (x : HostAnswer) (s : State) : (answer x s).turns = s.turns := rfl
@[simp] theorem answer_answers (x : HostAnswer) (s : State) : (answer x s).answers = x :: s.answers := rfl

/-! ### `cacheStore` -/

@[simp] theorem cacheStore_pass (s : State) (p : Pixel) : (s.cacheStore p).pass = s.pass := rfl
@[simp] theorem cacheStore_mode (s : State) (p : Pixel) : (s.cacheStore p).mode = s.mode := rfl
@[simp] theorem cacheStore_errcode (s : State) (p : Pixel) : (s.cacheStore p).errcode = s.errcode := rfl
@[simp] theorem cacheStore_width (s : State) (p : Pixel) : (s.cacheStore p).width = s.width := rfl
@[simp] theorem cacheStore_height (s : State) (p : Pixel) : (s.cacheStore p).height = s.height := rfl
@[simp] theorem cacheStore_channels (s : State) (p : Pixel) : (s.cacheStore p).channels = s.channels := rfl
@[simp] theorem cacheStore_colorspace (s : State) (p : Pixel) : (s.cacheStore p).colorspace = s.colorspace := rfl
@[simp] theorem cacheStore_inLen (s : State) (p : Pixel) : (s.cacheStore p).inLen = s.inLen := rfl
@[simp] theorem cacheStore_outLen (s : State) (p : Pixel) : (s.cacheStore p).outLen = s.outLen := rfl
@[simp] theorem cacheStore_prev (s : State) (p : Pixel) : (s.cacheStore p).prev = s.prev := rfl
@[simp] theorem cacheStore_runCnt (s : State) (p : Pixel) : (s.cacheStore p).runCnt = s.runCnt := rfl
@[simp] theorem cacheStore_pxPtr (s : State) (p : Pixel) : (s.cacheStore p).pxPtr = s.pxPtr := rfl
@[simp] theorem cacheStore_bsPtr (s : State) (p : Pixel) : (s.cacheStore p).bsPtr = s.bsPtr := rfl
@[simp] theorem cacheStore_n (s : State) (p : Pixel) : (s.cacheStore p).n = s.n := rfl
@[simp] theorem cacheStore_l (s : State) (p : Pixel) : (s.cacheStore p).l = s.l := rfl
@[simp] theorem cacheStore_e (s : State) (p : Pixel) : (s.cacheStore p).e = s.e := rfl
@[simp] theorem cacheStore_hdrW (s : State) (p : Pixel) : (s.cacheStore p).hdrW = s.hdrW := rfl
@[simp] theorem cacheStore_hdrH (s : State) (p : Pixel) : (s.cacheStore p).hdrH = s.hdrH := rfl
@[simp] theorem cacheStore_hdrC (s : State) (p : Pixel) : (s.cacheStore p).hdrC = s.hdrC := rfl
@[simp] theorem cacheStore_hdrS (s : State) (p : Pixel) : (s.cacheStore p).hdrS = s.hdrS := rfl
@[simp] theorem cacheStore_cache (s : State) (p : Pixel) : (s.cacheStore p).cache = s.cache.set (pixelHash p).val p (pixelHash p).isLt := rfl
@[simp] theorem cacheStore_px (s : State) (p : Pixel) : (s.cacheStore p).px = s.px := rfl
@[simp] theorem cacheStore_bs (s : State) (p : Pixel) : (s.cacheStore p).bs = s.bs := rfl
@[simp] theorem cacheStore_cfg (s : State) (p : Pixel) : (s.cacheStore p).cfg = s.cfg := rfl
@[simp] theorem cacheStore_draws (s : State) (p : Pixel) : (s.cacheStore p).draws = s.draws := rfl
@[simp] theorem cacheStore_turns (s : State) (p : Pixel) : (s.cacheStore p).turns = s.turns := rfl
@[simp] theorem cacheStore_answers (s : State) (p : Pixel) : (s.cacheStore p).answers = s.answers := rfl

/-! ### `emitted` -/

@[simp] theorem emitted_pass (bytes : List Byte) (s : State) : (emitted bytes s).pass = s.pass := rfl
@[simp] theorem emitted_mode (bytes : List Byte) (s : State) : (emitted bytes s).mode = s.mode := rfl
@[simp] theorem emitted_errcode (bytes : List Byte) (s : State) : (emitted bytes s).errcode = s.errcode := rfl
@[simp] theorem emitted_width (bytes : List Byte) (s : State) : (emitted bytes s).width = s.width := rfl
@[simp] theorem emitted_height (bytes : List Byte) (s : State) : (emitted bytes s).height = s.height := rfl
@[simp] theorem emitted_channels (bytes : List Byte) (s : State) : (emitted bytes s).channels = s.channels := rfl
@[simp] theorem emitted_colorspace (bytes : List Byte) (s : State) : (emitted bytes s).colorspace = s.colorspace := rfl
@[simp] theorem emitted_inLen (bytes : List Byte) (s : State) : (emitted bytes s).inLen = s.inLen := rfl
@[simp] theorem emitted_outLen (bytes : List Byte) (s : State) : (emitted bytes s).outLen = s.outLen := rfl
@[simp] theorem emitted_prev (bytes : List Byte) (s : State) : (emitted bytes s).prev = s.prev := rfl
@[simp] theorem emitted_runCnt (bytes : List Byte) (s : State) : (emitted bytes s).runCnt = s.runCnt := rfl
@[simp] theorem emitted_pxPtr (bytes : List Byte) (s : State) : (emitted bytes s).pxPtr = s.pxPtr := rfl
@[simp] theorem emitted_bsPtr (bytes : List Byte) (s : State) : (emitted bytes s).bsPtr = s.bsPtr + BitVec.ofNat 32 bytes.length := rfl
@[simp] theorem emitted_n (bytes : List Byte) (s : State) : (emitted bytes s).n = s.n := rfl
@[simp] theorem emitted_l (bytes : List Byte) (s : State) : (emitted bytes s).l = s.l := rfl
@[simp] theorem emitted_e (bytes : List Byte) (s : State) : (emitted bytes s).e = s.e := rfl
@[simp] theorem emitted_hdrW (bytes : List Byte) (s : State) : (emitted bytes s).hdrW = s.hdrW := rfl
@[simp] theorem emitted_hdrH (bytes : List Byte) (s : State) : (emitted bytes s).hdrH = s.hdrH := rfl
@[simp] theorem emitted_hdrC (bytes : List Byte) (s : State) : (emitted bytes s).hdrC = s.hdrC := rfl
@[simp] theorem emitted_hdrS (bytes : List Byte) (s : State) : (emitted bytes s).hdrS = s.hdrS := rfl
@[simp] theorem emitted_cache (bytes : List Byte) (s : State) : (emitted bytes s).cache = s.cache := rfl
@[simp] theorem emitted_px (bytes : List Byte) (s : State) : (emitted bytes s).px = s.px := rfl
@[simp] theorem emitted_bs (bytes : List Byte) (s : State) : (emitted bytes s).bs = s.bs.writeList s.bsPtr.toNat bytes := rfl
@[simp] theorem emitted_cfg (bytes : List Byte) (s : State) : (emitted bytes s).cfg = s.cfg := rfl
@[simp] theorem emitted_draws (bytes : List Byte) (s : State) : (emitted bytes s).draws = s.draws := rfl
@[simp] theorem emitted_turns (bytes : List Byte) (s : State) : (emitted bytes s).turns = s.turns := rfl
@[simp] theorem emitted_answers (bytes : List Byte) (s : State) : (emitted bytes s).answers = s.answers := rfl

/-! ### `committed` -/

@[simp] theorem committed_pass (p : Pixel) (len : Nat) (s : State) : (committed p len s).pass = s.pass := rfl
@[simp] theorem committed_mode (p : Pixel) (len : Nat) (s : State) : (committed p len s).mode = s.mode := rfl
@[simp] theorem committed_errcode (p : Pixel) (len : Nat) (s : State) : (committed p len s).errcode = s.errcode := rfl
@[simp] theorem committed_width (p : Pixel) (len : Nat) (s : State) : (committed p len s).width = s.width := rfl
@[simp] theorem committed_height (p : Pixel) (len : Nat) (s : State) : (committed p len s).height = s.height := rfl
@[simp] theorem committed_channels (p : Pixel) (len : Nat) (s : State) : (committed p len s).channels = s.channels := rfl
@[simp] theorem committed_colorspace (p : Pixel) (len : Nat) (s : State) : (committed p len s).colorspace = s.colorspace := rfl
@[simp] theorem committed_inLen (p : Pixel) (len : Nat) (s : State) : (committed p len s).inLen = s.inLen := rfl
@[simp] theorem committed_outLen (p : Pixel) (len : Nat) (s : State) : (committed p len s).outLen = s.outLen := rfl
@[simp] theorem committed_prev (p : Pixel) (len : Nat) (s : State) : (committed p len s).prev = p := rfl
@[simp] theorem committed_runCnt (p : Pixel) (len : Nat) (s : State) : (committed p len s).runCnt = s.runCnt := rfl
@[simp] theorem committed_pxPtr (p : Pixel) (len : Nat) (s : State) : (committed p len s).pxPtr = s.pxPtr + 1 := rfl
@[simp] theorem committed_bsPtr (p : Pixel) (len : Nat) (s : State) : (committed p len s).bsPtr = s.bsPtr + BitVec.ofNat 32 len := rfl
@[simp] theorem committed_n (p : Pixel) (len : Nat) (s : State) : (committed p len s).n = s.n := rfl
@[simp] theorem committed_l (p : Pixel) (len : Nat) (s : State) : (committed p len s).l = s.l := rfl
@[simp] theorem committed_e (p : Pixel) (len : Nat) (s : State) : (committed p len s).e = s.e := rfl
@[simp] theorem committed_hdrW (p : Pixel) (len : Nat) (s : State) : (committed p len s).hdrW = s.hdrW := rfl
@[simp] theorem committed_hdrH (p : Pixel) (len : Nat) (s : State) : (committed p len s).hdrH = s.hdrH := rfl
@[simp] theorem committed_hdrC (p : Pixel) (len : Nat) (s : State) : (committed p len s).hdrC = s.hdrC := rfl
@[simp] theorem committed_hdrS (p : Pixel) (len : Nat) (s : State) : (committed p len s).hdrS = s.hdrS := rfl
@[simp] theorem committed_cache (p : Pixel) (len : Nat) (s : State) : (committed p len s).cache = s.cache.set (pixelHash p).val p (pixelHash p).isLt := rfl
@[simp] theorem committed_px (p : Pixel) (len : Nat) (s : State) : (committed p len s).px = s.px.write s.pxPtr.toNat (pix32 p) := rfl
@[simp] theorem committed_bs (p : Pixel) (len : Nat) (s : State) : (committed p len s).bs = s.bs := rfl
@[simp] theorem committed_cfg (p : Pixel) (len : Nat) (s : State) : (committed p len s).cfg = s.cfg := rfl
@[simp] theorem committed_draws (p : Pixel) (len : Nat) (s : State) : (committed p len s).draws = s.draws := rfl
@[simp] theorem committed_turns (p : Pixel) (len : Nat) (s : State) : (committed p len s).turns = s.turns := rfl
@[simp] theorem committed_answers (p : Pixel) (len : Nat) (s : State) : (committed p len s).answers = s.answers := rfl

/-! ### `afterRun` -/

@[simp] theorem afterRun_pass (k : Nat) (s : State) : (afterRun k s).pass = s.pass := rfl
@[simp] theorem afterRun_mode (k : Nat) (s : State) : (afterRun k s).mode = s.mode := rfl
@[simp] theorem afterRun_errcode (k : Nat) (s : State) : (afterRun k s).errcode = s.errcode := rfl
@[simp] theorem afterRun_width (k : Nat) (s : State) : (afterRun k s).width = s.width := rfl
@[simp] theorem afterRun_height (k : Nat) (s : State) : (afterRun k s).height = s.height := rfl
@[simp] theorem afterRun_channels (k : Nat) (s : State) : (afterRun k s).channels = s.channels := rfl
@[simp] theorem afterRun_colorspace (k : Nat) (s : State) : (afterRun k s).colorspace = s.colorspace := rfl
@[simp] theorem afterRun_inLen (k : Nat) (s : State) : (afterRun k s).inLen = s.inLen := rfl
@[simp] theorem afterRun_outLen (k : Nat) (s : State) : (afterRun k s).outLen = s.outLen := rfl
@[simp] theorem afterRun_prev (k : Nat) (s : State) : (afterRun k s).prev = s.prev := rfl
@[simp] theorem afterRun_runCnt (k : Nat) (s : State) : (afterRun k s).runCnt = s.runCnt := rfl
@[simp] theorem afterRun_pxPtr (k : Nat) (s : State) : (afterRun k s).pxPtr = s.pxPtr + BitVec.ofNat 32 k := rfl
@[simp] theorem afterRun_bsPtr (k : Nat) (s : State) : (afterRun k s).bsPtr = s.bsPtr + 1 := rfl
@[simp] theorem afterRun_n (k : Nat) (s : State) : (afterRun k s).n = s.n := rfl
@[simp] theorem afterRun_l (k : Nat) (s : State) : (afterRun k s).l = s.l := rfl
@[simp] theorem afterRun_e (k : Nat) (s : State) : (afterRun k s).e = s.e := rfl
@[simp] theorem afterRun_hdrW (k : Nat) (s : State) : (afterRun k s).hdrW = s.hdrW := rfl
@[simp] theorem afterRun_hdrH (k : Nat) (s : State) : (afterRun k s).hdrH = s.hdrH := rfl
@[simp] theorem afterRun_hdrC (k : Nat) (s : State) : (afterRun k s).hdrC = s.hdrC := rfl
@[simp] theorem afterRun_hdrS (k : Nat) (s : State) : (afterRun k s).hdrS = s.hdrS := rfl
@[simp] theorem afterRun_cache (k : Nat) (s : State) : (afterRun k s).cache = s.cache.set (pixelHash s.prev).val s.prev (pixelHash s.prev).isLt := rfl
@[simp] theorem afterRun_px (k : Nat) (s : State) : (afterRun k s).px = s.px.fill s.pxPtr.toNat (pix32 s.prev) k := rfl
@[simp] theorem afterRun_bs (k : Nat) (s : State) : (afterRun k s).bs = s.bs := rfl
@[simp] theorem afterRun_cfg (k : Nat) (s : State) : (afterRun k s).cfg = s.cfg := rfl
@[simp] theorem afterRun_draws (k : Nat) (s : State) : (afterRun k s).draws = s.draws := rfl
@[simp] theorem afterRun_turns (k : Nat) (s : State) : (afterRun k s).turns = s.turns := rfl
@[simp] theorem afterRun_answers (k : Nat) (s : State) : (afterRun k s).answers = s.answers := rfl

/-! ### `encAdvance` -/

@[simp] theorem encAdvance_pass (p : Pixel) (s : State) : (encAdvance p s).pass = s.pass := rfl
@[simp] theorem encAdvance_mode (p : Pixel) (s : State) : (encAdvance p s).mode = s.mode := rfl
@[simp] theorem encAdvance_errcode (p : Pixel) (s : State) : (encAdvance p s).errcode = s.errcode := rfl
@[simp] theorem encAdvance_width (p : Pixel) (s : State) : (encAdvance p s).width = s.width := rfl
@[simp] theorem encAdvance_height (p : Pixel) (s : State) : (encAdvance p s).height = s.height := rfl
@[simp] theorem encAdvance_channels (p : Pixel) (s : State) : (encAdvance p s).channels = s.channels := rfl
@[simp] theorem encAdvance_colorspace (p : Pixel) (s : State) : (encAdvance p s).colorspace = s.colorspace := rfl
@[simp] theorem encAdvance_inLen (p : Pixel) (s : State) : (encAdvance p s).inLen = s.inLen := rfl
@[simp] theorem encAdvance_outLen (p : Pixel) (s : State) : (encAdvance p s).outLen = s.outLen := rfl
@[simp] theorem encAdvance_prev (p : Pixel) (s : State) : (encAdvance p s).prev = p := rfl
@[simp] theorem encAdvance_runCnt (p : Pixel) (s : State) : (encAdvance p s).runCnt = s.runCnt := rfl
@[simp] theorem encAdvance_pxPtr (p : Pixel) (s : State) : (encAdvance p s).pxPtr = s.pxPtr + 1 := rfl
@[simp] theorem encAdvance_bsPtr (p : Pixel) (s : State) : (encAdvance p s).bsPtr = s.bsPtr := rfl
@[simp] theorem encAdvance_n (p : Pixel) (s : State) : (encAdvance p s).n = s.n := rfl
@[simp] theorem encAdvance_l (p : Pixel) (s : State) : (encAdvance p s).l = s.l := rfl
@[simp] theorem encAdvance_e (p : Pixel) (s : State) : (encAdvance p s).e = s.e := rfl
@[simp] theorem encAdvance_hdrW (p : Pixel) (s : State) : (encAdvance p s).hdrW = s.hdrW := rfl
@[simp] theorem encAdvance_hdrH (p : Pixel) (s : State) : (encAdvance p s).hdrH = s.hdrH := rfl
@[simp] theorem encAdvance_hdrC (p : Pixel) (s : State) : (encAdvance p s).hdrC = s.hdrC := rfl
@[simp] theorem encAdvance_hdrS (p : Pixel) (s : State) : (encAdvance p s).hdrS = s.hdrS := rfl
@[simp] theorem encAdvance_cache (p : Pixel) (s : State) : (encAdvance p s).cache = s.cache := rfl
@[simp] theorem encAdvance_px (p : Pixel) (s : State) : (encAdvance p s).px = s.px := rfl
@[simp] theorem encAdvance_bs (p : Pixel) (s : State) : (encAdvance p s).bs = s.bs := rfl
@[simp] theorem encAdvance_cfg (p : Pixel) (s : State) : (encAdvance p s).cfg = s.cfg := rfl
@[simp] theorem encAdvance_draws (p : Pixel) (s : State) : (encAdvance p s).draws = s.draws := rfl
@[simp] theorem encAdvance_turns (p : Pixel) (s : State) : (encAdvance p s).turns = s.turns := rfl
@[simp] theorem encAdvance_answers (p : Pixel) (s : State) : (encAdvance p s).answers = s.answers := rfl

/-! ### `countRun` -/

@[simp] theorem countRun_pass (s : State) : (countRun s).pass = s.pass := rfl
@[simp] theorem countRun_mode (s : State) : (countRun s).mode = s.mode := rfl
@[simp] theorem countRun_errcode (s : State) : (countRun s).errcode = s.errcode := rfl
@[simp] theorem countRun_width (s : State) : (countRun s).width = s.width := rfl
@[simp] theorem countRun_height (s : State) : (countRun s).height = s.height := rfl
@[simp] theorem countRun_channels (s : State) : (countRun s).channels = s.channels := rfl
@[simp] theorem countRun_colorspace (s : State) : (countRun s).colorspace = s.colorspace := rfl
@[simp] theorem countRun_inLen (s : State) : (countRun s).inLen = s.inLen := rfl
@[simp] theorem countRun_outLen (s : State) : (countRun s).outLen = s.outLen := rfl
@[simp] theorem countRun_prev (s : State) : (countRun s).prev = s.prev := rfl
@[simp] theorem countRun_runCnt (s : State) : (countRun s).runCnt = s.runCnt + 1 := rfl
@[simp] theorem countRun_pxPtr (s : State) : (countRun s).pxPtr = s.pxPtr := rfl
@[simp] theorem countRun_bsPtr (s : State) : (countRun s).bsPtr = s.bsPtr := rfl
@[simp] theorem countRun_n (s : State) : (countRun s).n = s.n := rfl
@[simp] theorem countRun_l (s : State) : (countRun s).l = s.l := rfl
@[simp] theorem countRun_e (s : State) : (countRun s).e = s.e := rfl
@[simp] theorem countRun_hdrW (s : State) : (countRun s).hdrW = s.hdrW := rfl
@[simp] theorem countRun_hdrH (s : State) : (countRun s).hdrH = s.hdrH := rfl
@[simp] theorem countRun_hdrC (s : State) : (countRun s).hdrC = s.hdrC := rfl
@[simp] theorem countRun_hdrS (s : State) : (countRun s).hdrS = s.hdrS := rfl
@[simp] theorem countRun_cache (s : State) : (countRun s).cache = s.cache := rfl
@[simp] theorem countRun_px (s : State) : (countRun s).px = s.px := rfl
@[simp] theorem countRun_bs (s : State) : (countRun s).bs = s.bs := rfl
@[simp] theorem countRun_cfg (s : State) : (countRun s).cfg = s.cfg := rfl
@[simp] theorem countRun_draws (s : State) : (countRun s).draws = s.draws := rfl
@[simp] theorem countRun_turns (s : State) : (countRun s).turns = s.turns := rfl
@[simp] theorem countRun_answers (s : State) : (countRun s).answers = s.answers := rfl

/-! ### `latchCount` -/

@[simp] theorem latchCount_pass (s : State) : (latchCount s).pass = s.pass := rfl
@[simp] theorem latchCount_mode (s : State) : (latchCount s).mode = s.mode := rfl
@[simp] theorem latchCount_errcode (s : State) : (latchCount s).errcode = s.errcode := rfl
@[simp] theorem latchCount_width (s : State) : (latchCount s).width = s.width := rfl
@[simp] theorem latchCount_height (s : State) : (latchCount s).height = s.height := rfl
@[simp] theorem latchCount_channels (s : State) : (latchCount s).channels = s.channels := rfl
@[simp] theorem latchCount_colorspace (s : State) : (latchCount s).colorspace = s.colorspace := rfl
@[simp] theorem latchCount_inLen (s : State) : (latchCount s).inLen = s.inLen := rfl
@[simp] theorem latchCount_outLen (s : State) : (latchCount s).outLen = s.outLen := rfl
@[simp] theorem latchCount_prev (s : State) : (latchCount s).prev = s.prev := rfl
@[simp] theorem latchCount_runCnt (s : State) : (latchCount s).runCnt = s.runCnt := rfl
@[simp] theorem latchCount_pxPtr (s : State) : (latchCount s).pxPtr = s.pxPtr := rfl
@[simp] theorem latchCount_bsPtr (s : State) : (latchCount s).bsPtr = s.bsPtr := rfl
@[simp] theorem latchCount_n (s : State) : (latchCount s).n = BitVec.ofNat 32 (s.hdrW.toNat * s.hdrH.toNat) := rfl
@[simp] theorem latchCount_l (s : State) : (latchCount s).l = s.l := rfl
@[simp] theorem latchCount_e (s : State) : (latchCount s).e = s.e := rfl
@[simp] theorem latchCount_hdrW (s : State) : (latchCount s).hdrW = s.hdrW := rfl
@[simp] theorem latchCount_hdrH (s : State) : (latchCount s).hdrH = s.hdrH := rfl
@[simp] theorem latchCount_hdrC (s : State) : (latchCount s).hdrC = s.hdrC := rfl
@[simp] theorem latchCount_hdrS (s : State) : (latchCount s).hdrS = s.hdrS := rfl
@[simp] theorem latchCount_cache (s : State) : (latchCount s).cache = s.cache := rfl
@[simp] theorem latchCount_px (s : State) : (latchCount s).px = s.px := rfl
@[simp] theorem latchCount_bs (s : State) : (latchCount s).bs = s.bs := rfl
@[simp] theorem latchCount_cfg (s : State) : (latchCount s).cfg = s.cfg := rfl
@[simp] theorem latchCount_draws (s : State) : (latchCount s).draws = s.draws := rfl
@[simp] theorem latchCount_turns (s : State) : (latchCount s).turns = s.turns := rfl
@[simp] theorem latchCount_answers (s : State) : (latchCount s).answers = s.answers := rfl

/-! ### `rewindStream` -/

@[simp] theorem rewindStream_pass (s : State) : (rewindStream s).pass = s.pass := rfl
@[simp] theorem rewindStream_mode (s : State) : (rewindStream s).mode = s.mode := rfl
@[simp] theorem rewindStream_errcode (s : State) : (rewindStream s).errcode = s.errcode := rfl
@[simp] theorem rewindStream_width (s : State) : (rewindStream s).width = s.width := rfl
@[simp] theorem rewindStream_height (s : State) : (rewindStream s).height = s.height := rfl
@[simp] theorem rewindStream_channels (s : State) : (rewindStream s).channels = s.channels := rfl
@[simp] theorem rewindStream_colorspace (s : State) : (rewindStream s).colorspace = s.colorspace := rfl
@[simp] theorem rewindStream_inLen (s : State) : (rewindStream s).inLen = s.inLen := rfl
@[simp] theorem rewindStream_outLen (s : State) : (rewindStream s).outLen = s.outLen := rfl
@[simp] theorem rewindStream_prev (s : State) : (rewindStream s).prev = s.prev := rfl
@[simp] theorem rewindStream_runCnt (s : State) : (rewindStream s).runCnt = s.runCnt := rfl
@[simp] theorem rewindStream_pxPtr (s : State) : (rewindStream s).pxPtr = s.pxPtr := rfl
@[simp] theorem rewindStream_bsPtr (s : State) : (rewindStream s).bsPtr = 0 := rfl
@[simp] theorem rewindStream_n (s : State) : (rewindStream s).n = s.n := rfl
@[simp] theorem rewindStream_l (s : State) : (rewindStream s).l = s.l := rfl
@[simp] theorem rewindStream_e (s : State) : (rewindStream s).e = s.e := rfl
@[simp] theorem rewindStream_hdrW (s : State) : (rewindStream s).hdrW = s.hdrW := rfl
@[simp] theorem rewindStream_hdrH (s : State) : (rewindStream s).hdrH = s.hdrH := rfl
@[simp] theorem rewindStream_hdrC (s : State) : (rewindStream s).hdrC = s.hdrC := rfl
@[simp] theorem rewindStream_hdrS (s : State) : (rewindStream s).hdrS = s.hdrS := rfl
@[simp] theorem rewindStream_cache (s : State) : (rewindStream s).cache = s.cache := rfl
@[simp] theorem rewindStream_px (s : State) : (rewindStream s).px = s.px := rfl
@[simp] theorem rewindStream_bs (s : State) : (rewindStream s).bs = s.bs := rfl
@[simp] theorem rewindStream_cfg (s : State) : (rewindStream s).cfg = s.cfg := rfl
@[simp] theorem rewindStream_draws (s : State) : (rewindStream s).draws = s.draws := rfl
@[simp] theorem rewindStream_turns (s : State) : (rewindStream s).turns = s.turns := rfl
@[simp] theorem rewindStream_answers (s : State) : (rewindStream s).answers = s.answers := rfl

/-! ### `enterEnc` -/

@[simp] theorem enterEnc_pass (s : State) : (enterEnc s).pass = .enc := rfl
@[simp] theorem enterEnc_mode (s : State) : (enterEnc s).mode = s.mode := rfl
@[simp] theorem enterEnc_errcode (s : State) : (enterEnc s).errcode = s.errcode := rfl
@[simp] theorem enterEnc_width (s : State) : (enterEnc s).width = s.width := rfl
@[simp] theorem enterEnc_height (s : State) : (enterEnc s).height = s.height := rfl
@[simp] theorem enterEnc_channels (s : State) : (enterEnc s).channels = s.channels := rfl
@[simp] theorem enterEnc_colorspace (s : State) : (enterEnc s).colorspace = s.colorspace := rfl
@[simp] theorem enterEnc_inLen (s : State) : (enterEnc s).inLen = s.inLen := rfl
@[simp] theorem enterEnc_outLen (s : State) : (enterEnc s).outLen = s.outLen := rfl
@[simp] theorem enterEnc_prev (s : State) : (enterEnc s).prev = s.prev := rfl
@[simp] theorem enterEnc_runCnt (s : State) : (enterEnc s).runCnt = s.runCnt := rfl
@[simp] theorem enterEnc_pxPtr (s : State) : (enterEnc s).pxPtr = s.pxPtr := rfl
@[simp] theorem enterEnc_bsPtr (s : State) : (enterEnc s).bsPtr = s.bsPtr := rfl
@[simp] theorem enterEnc_n (s : State) : (enterEnc s).n = s.n := rfl
@[simp] theorem enterEnc_l (s : State) : (enterEnc s).l = s.l := rfl
@[simp] theorem enterEnc_e (s : State) : (enterEnc s).e = s.e := rfl
@[simp] theorem enterEnc_hdrW (s : State) : (enterEnc s).hdrW = s.hdrW := rfl
@[simp] theorem enterEnc_hdrH (s : State) : (enterEnc s).hdrH = s.hdrH := rfl
@[simp] theorem enterEnc_hdrC (s : State) : (enterEnc s).hdrC = s.hdrC := rfl
@[simp] theorem enterEnc_hdrS (s : State) : (enterEnc s).hdrS = s.hdrS := rfl
@[simp] theorem enterEnc_cache (s : State) : (enterEnc s).cache = s.cache := rfl
@[simp] theorem enterEnc_px (s : State) : (enterEnc s).px = s.px := rfl
@[simp] theorem enterEnc_bs (s : State) : (enterEnc s).bs = s.bs := rfl
@[simp] theorem enterEnc_cfg (s : State) : (enterEnc s).cfg = s.cfg := rfl
@[simp] theorem enterEnc_draws (s : State) : (enterEnc s).draws = s.draws := rfl
@[simp] theorem enterEnc_turns (s : State) : (enterEnc s).turns = s.turns := rfl
@[simp] theorem enterEnc_answers (s : State) : (enterEnc s).answers = s.answers := rfl

/-! ### `latchLength` -/

@[simp] theorem latchLength_pass (s : State) : (latchLength s).pass = s.pass := rfl
@[simp] theorem latchLength_mode (s : State) : (latchLength s).mode = s.mode := rfl
@[simp] theorem latchLength_errcode (s : State) : (latchLength s).errcode = s.errcode := rfl
@[simp] theorem latchLength_width (s : State) : (latchLength s).width = s.width := rfl
@[simp] theorem latchLength_height (s : State) : (latchLength s).height = s.height := rfl
@[simp] theorem latchLength_channels (s : State) : (latchLength s).channels = s.channels := rfl
@[simp] theorem latchLength_colorspace (s : State) : (latchLength s).colorspace = s.colorspace := rfl
@[simp] theorem latchLength_inLen (s : State) : (latchLength s).inLen = s.inLen := rfl
@[simp] theorem latchLength_outLen (s : State) : (latchLength s).outLen = s.outLen := rfl
@[simp] theorem latchLength_prev (s : State) : (latchLength s).prev = s.prev := rfl
@[simp] theorem latchLength_runCnt (s : State) : (latchLength s).runCnt = s.runCnt := rfl
@[simp] theorem latchLength_pxPtr (s : State) : (latchLength s).pxPtr = s.pxPtr := rfl
@[simp] theorem latchLength_bsPtr (s : State) : (latchLength s).bsPtr = s.bsPtr := rfl
@[simp] theorem latchLength_n (s : State) : (latchLength s).n = s.n := rfl
@[simp] theorem latchLength_l (s : State) : (latchLength s).l = s.inLen := rfl
@[simp] theorem latchLength_e (s : State) : (latchLength s).e = s.e := rfl
@[simp] theorem latchLength_hdrW (s : State) : (latchLength s).hdrW = s.hdrW := rfl
@[simp] theorem latchLength_hdrH (s : State) : (latchLength s).hdrH = s.hdrH := rfl
@[simp] theorem latchLength_hdrC (s : State) : (latchLength s).hdrC = s.hdrC := rfl
@[simp] theorem latchLength_hdrS (s : State) : (latchLength s).hdrS = s.hdrS := rfl
@[simp] theorem latchLength_cache (s : State) : (latchLength s).cache = s.cache := rfl
@[simp] theorem latchLength_px (s : State) : (latchLength s).px = s.px := rfl
@[simp] theorem latchLength_bs (s : State) : (latchLength s).bs = s.bs := rfl
@[simp] theorem latchLength_cfg (s : State) : (latchLength s).cfg = s.cfg := rfl
@[simp] theorem latchLength_draws (s : State) : (latchLength s).draws = s.draws := rfl
@[simp] theorem latchLength_turns (s : State) : (latchLength s).turns = s.turns := rfl
@[simp] theorem latchLength_answers (s : State) : (latchLength s).answers = s.answers := rfl

/-! ### `openChunks` -/

@[simp] theorem openChunks_pass (s : State) : (openChunks s).pass = .dec := rfl
@[simp] theorem openChunks_mode (s : State) : (openChunks s).mode = s.mode := rfl
@[simp] theorem openChunks_errcode (s : State) : (openChunks s).errcode = s.errcode := rfl
@[simp] theorem openChunks_width (s : State) : (openChunks s).width = s.width := rfl
@[simp] theorem openChunks_height (s : State) : (openChunks s).height = s.height := rfl
@[simp] theorem openChunks_channels (s : State) : (openChunks s).channels = s.channels := rfl
@[simp] theorem openChunks_colorspace (s : State) : (openChunks s).colorspace = s.colorspace := rfl
@[simp] theorem openChunks_inLen (s : State) : (openChunks s).inLen = s.inLen := rfl
@[simp] theorem openChunks_outLen (s : State) : (openChunks s).outLen = s.outLen := rfl
@[simp] theorem openChunks_prev (s : State) : (openChunks s).prev = s.prev := rfl
@[simp] theorem openChunks_runCnt (s : State) : (openChunks s).runCnt = s.runCnt := rfl
@[simp] theorem openChunks_pxPtr (s : State) : (openChunks s).pxPtr = s.pxPtr := rfl
@[simp] theorem openChunks_bsPtr (s : State) : (openChunks s).bsPtr = 14 := rfl
@[simp] theorem openChunks_n (s : State) : (openChunks s).n = s.n := rfl
@[simp] theorem openChunks_l (s : State) : (openChunks s).l = s.l := rfl
@[simp] theorem openChunks_e (s : State) : (openChunks s).e = s.l - 8 := rfl
@[simp] theorem openChunks_hdrW (s : State) : (openChunks s).hdrW = s.hdrW := rfl
@[simp] theorem openChunks_hdrH (s : State) : (openChunks s).hdrH = s.hdrH := rfl
@[simp] theorem openChunks_hdrC (s : State) : (openChunks s).hdrC = s.hdrC := rfl
@[simp] theorem openChunks_hdrS (s : State) : (openChunks s).hdrS = s.hdrS := rfl
@[simp] theorem openChunks_cache (s : State) : (openChunks s).cache = s.cache := rfl
@[simp] theorem openChunks_px (s : State) : (openChunks s).px = s.px := rfl
@[simp] theorem openChunks_bs (s : State) : (openChunks s).bs = s.bs := rfl
@[simp] theorem openChunks_cfg (s : State) : (openChunks s).cfg = s.cfg := rfl
@[simp] theorem openChunks_draws (s : State) : (openChunks s).draws = s.draws := rfl
@[simp] theorem openChunks_turns (s : State) : (openChunks s).turns = s.turns := rfl
@[simp] theorem openChunks_answers (s : State) : (openChunks s).answers = s.answers := rfl

/-! ### `passReset` -/

@[simp] theorem passReset_pass (s : State) : (passReset s).pass = s.pass := rfl
@[simp] theorem passReset_mode (s : State) : (passReset s).mode = s.mode := rfl
@[simp] theorem passReset_errcode (s : State) : (passReset s).errcode = 0 := rfl
@[simp] theorem passReset_width (s : State) : (passReset s).width = s.width := rfl
@[simp] theorem passReset_height (s : State) : (passReset s).height = s.height := rfl
@[simp] theorem passReset_channels (s : State) : (passReset s).channels = s.channels := rfl
@[simp] theorem passReset_colorspace (s : State) : (passReset s).colorspace = s.colorspace := rfl
@[simp] theorem passReset_inLen (s : State) : (passReset s).inLen = s.inLen := rfl
@[simp] theorem passReset_outLen (s : State) : (passReset s).outLen = 0 := rfl
@[simp] theorem passReset_prev (s : State) : (passReset s).prev = initPrev := rfl
@[simp] theorem passReset_runCnt (s : State) : (passReset s).runCnt = 0 := rfl
@[simp] theorem passReset_pxPtr (s : State) : (passReset s).pxPtr = 0 := rfl
@[simp] theorem passReset_bsPtr (s : State) : (passReset s).bsPtr = s.bsPtr := rfl
@[simp] theorem passReset_n (s : State) : (passReset s).n = s.n := rfl
@[simp] theorem passReset_l (s : State) : (passReset s).l = s.l := rfl
@[simp] theorem passReset_e (s : State) : (passReset s).e = s.e := rfl
@[simp] theorem passReset_hdrW (s : State) : (passReset s).hdrW = s.hdrW := rfl
@[simp] theorem passReset_hdrH (s : State) : (passReset s).hdrH = s.hdrH := rfl
@[simp] theorem passReset_hdrC (s : State) : (passReset s).hdrC = s.hdrC := rfl
@[simp] theorem passReset_hdrS (s : State) : (passReset s).hdrS = s.hdrS := rfl
@[simp] theorem passReset_cache (s : State) : (passReset s).cache = clearedCache := rfl
@[simp] theorem passReset_px (s : State) : (passReset s).px = s.px := rfl
@[simp] theorem passReset_bs (s : State) : (passReset s).bs = s.bs := rfl
@[simp] theorem passReset_cfg (s : State) : (passReset s).cfg = s.cfg := rfl
@[simp] theorem passReset_draws (s : State) : (passReset s).draws = s.draws := rfl
@[simp] theorem passReset_turns (s : State) : (passReset s).turns = s.turns := rfl
@[simp] theorem passReset_answers (s : State) : (passReset s).answers = s.answers := rfl

/-! ### `encLatch` -/

@[simp] theorem encLatch_pass (s : State) : (encLatch s).pass = s.pass := rfl
@[simp] theorem encLatch_mode (s : State) : (encLatch s).mode = s.mode := rfl
@[simp] theorem encLatch_errcode (s : State) : (encLatch s).errcode = s.errcode := rfl
@[simp] theorem encLatch_width (s : State) : (encLatch s).width = s.width := rfl
@[simp] theorem encLatch_height (s : State) : (encLatch s).height = s.height := rfl
@[simp] theorem encLatch_channels (s : State) : (encLatch s).channels = s.channels := rfl
@[simp] theorem encLatch_colorspace (s : State) : (encLatch s).colorspace = s.colorspace := rfl
@[simp] theorem encLatch_inLen (s : State) : (encLatch s).inLen = s.inLen := rfl
@[simp] theorem encLatch_outLen (s : State) : (encLatch s).outLen = s.outLen := rfl
@[simp] theorem encLatch_prev (s : State) : (encLatch s).prev = s.prev := rfl
@[simp] theorem encLatch_runCnt (s : State) : (encLatch s).runCnt = s.runCnt := rfl
@[simp] theorem encLatch_pxPtr (s : State) : (encLatch s).pxPtr = s.pxPtr := rfl
@[simp] theorem encLatch_bsPtr (s : State) : (encLatch s).bsPtr = s.bsPtr := rfl
@[simp] theorem encLatch_n (s : State) : (encLatch s).n = s.n := rfl
@[simp] theorem encLatch_l (s : State) : (encLatch s).l = Config.freeL s.draws := rfl
@[simp] theorem encLatch_e (s : State) : (encLatch s).e = Config.freeE s.draws := rfl
@[simp] theorem encLatch_hdrW (s : State) : (encLatch s).hdrW = s.width := rfl
@[simp] theorem encLatch_hdrH (s : State) : (encLatch s).hdrH = s.height := rfl
@[simp] theorem encLatch_hdrC (s : State) : (encLatch s).hdrC = s.channels := rfl
@[simp] theorem encLatch_hdrS (s : State) : (encLatch s).hdrS = s.colorspace := rfl
@[simp] theorem encLatch_cache (s : State) : (encLatch s).cache = s.cache := rfl
@[simp] theorem encLatch_px (s : State) : (encLatch s).px = s.px := rfl
@[simp] theorem encLatch_bs (s : State) : (encLatch s).bs = s.bs := rfl
@[simp] theorem encLatch_cfg (s : State) : (encLatch s).cfg = s.cfg := rfl
@[simp] theorem encLatch_draws (s : State) : (encLatch s).draws = s.draws + 1 := rfl
@[simp] theorem encLatch_turns (s : State) : (encLatch s).turns = s.turns := rfl
@[simp] theorem encLatch_answers (s : State) : (encLatch s).answers = s.answers := rfl

/-! ### `decLatch` -/

@[simp] theorem decLatch_pass (s : State) : (decLatch s).pass = s.pass := rfl
@[simp] theorem decLatch_mode (s : State) : (decLatch s).mode = s.mode := rfl
@[simp] theorem decLatch_errcode (s : State) : (decLatch s).errcode = s.errcode := rfl
@[simp] theorem decLatch_width (s : State) : (decLatch s).width = s.width := rfl
@[simp] theorem decLatch_height (s : State) : (decLatch s).height = s.height := rfl
@[simp] theorem decLatch_channels (s : State) : (decLatch s).channels = s.channels := rfl
@[simp] theorem decLatch_colorspace (s : State) : (decLatch s).colorspace = s.colorspace := rfl
@[simp] theorem decLatch_inLen (s : State) : (decLatch s).inLen = s.inLen := rfl
@[simp] theorem decLatch_outLen (s : State) : (decLatch s).outLen = s.outLen := rfl
@[simp] theorem decLatch_prev (s : State) : (decLatch s).prev = s.prev := rfl
@[simp] theorem decLatch_runCnt (s : State) : (decLatch s).runCnt = s.runCnt := rfl
@[simp] theorem decLatch_pxPtr (s : State) : (decLatch s).pxPtr = s.pxPtr := rfl
@[simp] theorem decLatch_bsPtr (s : State) : (decLatch s).bsPtr = s.bsPtr := rfl
@[simp] theorem decLatch_n (s : State) : (decLatch s).n = s.n := rfl
@[simp] theorem decLatch_l (s : State) : (decLatch s).l = s.l := rfl
@[simp] theorem decLatch_e (s : State) : (decLatch s).e = s.e := rfl
@[simp] theorem decLatch_hdrW (s : State) : (decLatch s).hdrW = s.streamWord 4 := rfl
@[simp] theorem decLatch_hdrH (s : State) : (decLatch s).hdrH = s.streamWord 8 := rfl
@[simp] theorem decLatch_hdrC (s : State) : (decLatch s).hdrC = s.streamByte 12 := rfl
@[simp] theorem decLatch_hdrS (s : State) : (decLatch s).hdrS = s.streamByte 13 := rfl
@[simp] theorem decLatch_cache (s : State) : (decLatch s).cache = s.cache := rfl
@[simp] theorem decLatch_px (s : State) : (decLatch s).px = s.px := rfl
@[simp] theorem decLatch_bs (s : State) : (decLatch s).bs = s.bs := rfl
@[simp] theorem decLatch_cfg (s : State) : (decLatch s).cfg = s.cfg := rfl
@[simp] theorem decLatch_draws (s : State) : (decLatch s).draws = s.draws := rfl
@[simp] theorem decLatch_turns (s : State) : (decLatch s).turns = s.turns := rfl
@[simp] theorem decLatch_answers (s : State) : (decLatch s).answers = s.answers := rfl

/-! ### `raiseError` -/

@[simp] theorem raiseError_pass (site : ErrorSite) (c : QoiError) (s : State) : (raiseError site c s).pass = .err := rfl
@[simp] theorem raiseError_mode (site : ErrorSite) (c : QoiError) (s : State) : (raiseError site c s).mode = s.mode := rfl
@[simp] theorem raiseError_errcode (site : ErrorSite) (c : QoiError) (s : State) : (raiseError site c s).errcode = c.code := rfl
@[simp] theorem raiseError_width (site : ErrorSite) (c : QoiError) (s : State) : (raiseError site c s).width = s.width := rfl
@[simp] theorem raiseError_height (site : ErrorSite) (c : QoiError) (s : State) : (raiseError site c s).height = s.height := rfl
@[simp] theorem raiseError_channels (site : ErrorSite) (c : QoiError) (s : State) : (raiseError site c s).channels = s.channels := rfl
@[simp] theorem raiseError_colorspace (site : ErrorSite) (c : QoiError) (s : State) : (raiseError site c s).colorspace = s.colorspace := rfl
@[simp] theorem raiseError_inLen (site : ErrorSite) (c : QoiError) (s : State) : (raiseError site c s).inLen = s.inLen := rfl
@[simp] theorem raiseError_outLen (site : ErrorSite) (c : QoiError) (s : State) : (raiseError site c s).outLen = 0 := rfl
@[simp] theorem raiseError_prev (site : ErrorSite) (c : QoiError) (s : State) : (raiseError site c s).prev = Config.freePrev s.draws := rfl
@[simp] theorem raiseError_runCnt (site : ErrorSite) (c : QoiError) (s : State) : (raiseError site c s).runCnt = BitVec.ofNat 6 (Config.freeRunCnt s.draws).val := rfl
@[simp] theorem raiseError_pxPtr (site : ErrorSite) (c : QoiError) (s : State) : (raiseError site c s).pxPtr = Config.freePxPtr s.draws := rfl
@[simp] theorem raiseError_bsPtr (site : ErrorSite) (c : QoiError) (s : State) : (raiseError site c s).bsPtr = Config.freeBsPtr s.draws := rfl
@[simp] theorem raiseError_n (site : ErrorSite) (c : QoiError) (s : State) : (raiseError site c s).n = s.n := rfl
@[simp] theorem raiseError_l (site : ErrorSite) (c : QoiError) (s : State) : (raiseError site c s).l = s.l := rfl
@[simp] theorem raiseError_e (site : ErrorSite) (c : QoiError) (s : State) : (raiseError site c s).e = s.e := rfl
@[simp] theorem raiseError_hdrW (site : ErrorSite) (c : QoiError) (s : State) : (raiseError site c s).hdrW = s.hdrW := rfl
@[simp] theorem raiseError_hdrH (site : ErrorSite) (c : QoiError) (s : State) : (raiseError site c s).hdrH = s.hdrH := rfl
@[simp] theorem raiseError_hdrC (site : ErrorSite) (c : QoiError) (s : State) : (raiseError site c s).hdrC = s.hdrC := rfl
@[simp] theorem raiseError_hdrS (site : ErrorSite) (c : QoiError) (s : State) : (raiseError site c s).hdrS = s.hdrS := rfl
@[simp] theorem raiseError_cache (site : ErrorSite) (c : QoiError) (s : State) : (raiseError site c s).cache = Config.freeCache s.draws := rfl
@[simp] theorem raiseError_cfg (site : ErrorSite) (c : QoiError) (s : State) : (raiseError site c s).cfg = s.cfg := rfl
@[simp] theorem raiseError_draws (site : ErrorSite) (c : QoiError) (s : State) : (raiseError site c s).draws = s.draws + 1 := rfl
@[simp] theorem raiseError_turns (site : ErrorSite) (c : QoiError) (s : State) : (raiseError site c s).turns = s.turns := rfl
@[simp] theorem raiseError_answers (site : ErrorSite) (c : QoiError) (s : State) : (raiseError site c s).answers = s.answers := rfl
@[simp] theorem raiseError_start_px (c : QoiError) (s : State) : (raiseError .start c s).px = s.px := rfl
@[simp] theorem raiseError_encStep_px (c : QoiError) (s : State) : (raiseError .encStep c s).px = s.px := rfl
@[simp] theorem raiseError_decStep_px (c : QoiError) (s : State) : (raiseError .decStep c s).px = s.px.drawBelow s.n.toNat s.draws := rfl
@[simp] theorem raiseError_start_bs (c : QoiError) (s : State) : (raiseError .start c s).bs = s.bs := rfl
@[simp] theorem raiseError_decStep_bs (c : QoiError) (s : State) : (raiseError .decStep c s).bs = s.bs := rfl
@[simp] theorem raiseError_encStep_bs (c : QoiError) (s : State) : (raiseError .encStep c s).bs = s.bs.drawBelow s.cfg.bsCap s.draws := rfl

/-! ### `powerOnReset` -/

@[simp] theorem powerOnReset_pass (s : State) : (powerOnReset s).pass = .idle := rfl
@[simp] theorem powerOnReset_mode (s : State) : (powerOnReset s).mode = .encode := rfl
@[simp] theorem powerOnReset_errcode (s : State) : (powerOnReset s).errcode = 0 := rfl
@[simp] theorem powerOnReset_width (s : State) : (powerOnReset s).width = 0 := rfl
@[simp] theorem powerOnReset_height (s : State) : (powerOnReset s).height = 0 := rfl
@[simp] theorem powerOnReset_channels (s : State) : (powerOnReset s).channels = 0 := rfl
@[simp] theorem powerOnReset_colorspace (s : State) : (powerOnReset s).colorspace = 0 := rfl
@[simp] theorem powerOnReset_inLen (s : State) : (powerOnReset s).inLen = 0 := rfl
@[simp] theorem powerOnReset_outLen (s : State) : (powerOnReset s).outLen = 0 := rfl
@[simp] theorem powerOnReset_prev (s : State) : (powerOnReset s).prev = Config.freePrev s.draws := rfl
@[simp] theorem powerOnReset_runCnt (s : State) : (powerOnReset s).runCnt = BitVec.ofNat 6 (Config.freeRunCnt s.draws).val := rfl
@[simp] theorem powerOnReset_pxPtr (s : State) : (powerOnReset s).pxPtr = Config.freePxPtr s.draws := rfl
@[simp] theorem powerOnReset_bsPtr (s : State) : (powerOnReset s).bsPtr = Config.freeBsPtr s.draws := rfl
@[simp] theorem powerOnReset_n (s : State) : (powerOnReset s).n = Config.freeN s.draws := rfl
@[simp] theorem powerOnReset_l (s : State) : (powerOnReset s).l = Config.freeL s.draws := rfl
@[simp] theorem powerOnReset_e (s : State) : (powerOnReset s).e = Config.freeE s.draws := rfl
@[simp] theorem powerOnReset_hdrW (s : State) : (powerOnReset s).hdrW = Config.freeHdrW s.draws := rfl
@[simp] theorem powerOnReset_hdrH (s : State) : (powerOnReset s).hdrH = Config.freeHdrH s.draws := rfl
@[simp] theorem powerOnReset_hdrC (s : State) : (powerOnReset s).hdrC = Config.freeHdrC s.draws := rfl
@[simp] theorem powerOnReset_hdrS (s : State) : (powerOnReset s).hdrS = Config.freeHdrS s.draws := rfl
@[simp] theorem powerOnReset_cache (s : State) : (powerOnReset s).cache = Config.freeCache s.draws := rfl
@[simp] theorem powerOnReset_px (s : State) : (powerOnReset s).px = s.px.drawBelow s.cfg.pxCap s.draws := rfl
@[simp] theorem powerOnReset_bs (s : State) : (powerOnReset s).bs = s.bs.drawBelow s.cfg.bsCap s.draws := rfl
@[simp] theorem powerOnReset_cfg (s : State) : (powerOnReset s).cfg = s.cfg := rfl
@[simp] theorem powerOnReset_draws (s : State) : (powerOnReset s).draws = s.draws + 1 := rfl
@[simp] theorem powerOnReset_turns (s : State) : (powerOnReset s).turns = s.turns := rfl
@[simp] theorem powerOnReset_answers (s : State) : (powerOnReset s).answers = s.answers := rfl

end Sys2Proof.Machine
end

