-- ==== Sys2Proof/Laws/Ops.lean ====
section
/-! SUPPORT. For each shared operation, once, everything it can do; later proofs cite these and unfold nothing. -/

namespace Sys2Proof.Machine

/-! ### Reads after the named updates -/

theorem cacheLookup_cacheStore (s : State) (p : Pixel) (k : Slot) :
    (s.cacheStore p).cacheLookup k = if k = pixelHash p then p else s.cacheLookup k := by
  simp only [State.cacheLookup, State.cacheStore, Vector.get_eq_getElem, Vector.getElem_set]
  by_cases h : k = pixelHash p
  · simp [h]
  · have : (pixelHash p).val ≠ k.val := fun e => h (Fin.ext e.symm)
    simp [h, this]

@[simp] theorem clearedCache_get (k : Slot) : clearedCache.get k = initSlot := by
  simp [clearedCache, Vector.get_eq_getElem]

theorem cacheLookup_passReset (s : State) (k : Slot) : (passReset s).cacheLookup k = initSlot := by
  simp [State.cacheLookup]

theorem pixelWord_committed (p : Pixel) (len : Nat) (s : State) (i : Nat) :
    (committed p len s).pixelWord i = if i = s.pxPtr.toNat then pix32 p else s.pixelWord i := by
  simp [State.pixelWord, Mem.read_write]

theorem pixelWord_afterRun (k : Nat) (s : State) (i : Nat) :
    (afterRun k s).pixelWord i =
      if s.pxPtr.toNat ≤ i ∧ i < s.pxPtr.toNat + k then pix32 s.prev else s.pixelWord i := by
  simp [State.pixelWord, Mem.read_fill]

theorem streamByte_emitted_of_lt (bytes : List Byte) (s : State) (a : Nat) (h : a < s.bsPtr.toNat) :
    (emitted bytes s).streamByte a = s.streamByte a := by
  simpa [State.streamByte] using Mem.read_writeList_of_outside _ _ _ _ _ (.inl h)

theorem streamByte_emitted_of_ge (bytes : List Byte) (s : State) (a : Nat) (h : s.bsPtr.toNat + bytes.length ≤ a) :
    (emitted bytes s).streamByte a = s.streamByte a := by
  simpa [State.streamByte] using Mem.read_writeList_of_outside _ _ _ _ _ (.inr h)

theorem streamByte_emitted_inside (bytes : List Byte) (s : State) (j : Nat) (h : j < bytes.length) :
    (emitted bytes s).streamByte (s.bsPtr.toNat + j) = bytes[j] := by
  simpa [State.streamByte] using Mem.read_writeList_of_inside _ _ _ _ _ h

/-! ### Attempts -/

/-- A step answers a next state when its pseudocode reaches the end, or raises an error. -/
theorem settle_eq_next_iff {site : ErrorSite} {x : Attempt} {t : State} :
    settle site x = .next t ↔ x = .ok t ∨ ∃ c s, x = .error (.error c s) ∧ t = raiseError site c s := by
  match x with
  | .ok s => simp [settle]
  | .error (.error c s) =>
    simp only [settle, Host.Outcome.next.injEq, reduceCtorEq, false_or, Except.error.injEq, Stop.error.injEq]
    exact ⟨fun h => ⟨c, s, ⟨rfl, rfl⟩, h.symm⟩, by rintro ⟨_, _, ⟨rfl, rfl⟩, rfl⟩; rfl⟩
  | .error (.fault f) => simp [settle]

theorem settle_eq_fault_iff {site : ErrorSite} {x : Attempt} {f : Fault} :
    settle site x = .fault f ↔ x = .error (.fault f) := by
  match x with
  | .ok s => simp [settle]
  | .error (.error c s) => simp [settle]
  | .error (.fault g) => simp [settle]

theorem settle_ne_refused {site : ErrorSite} {x : Attempt} {r : Refusal} : settle site x ≠ .refused r := by
  match x with
  | .ok s => simp [settle]
  | .error (.error c s) => simp [settle]
  | .error (.fault g) => simp [settle]

/-- The two things a sequence of two attempts can do. -/
theorem bind_eq_ok_iff {x : Attempt} {f : State → Attempt} {t : State} :
    (x >>= f) = .ok t ↔ ∃ s, x = .ok s ∧ f s = .ok t := by
  cases x <;> simp [bind, Except.bind]

theorem bind_eq_error_iff {x : Attempt} {f : State → Attempt} {st : Stop} :
    (x >>= f) = .error st ↔ x = .error st ∨ ∃ s, x = .ok s ∧ f s = .error st := by
  cases x <;> simp [bind, Except.bind]

/-- `Emit` appends all its bytes when they fit. -/
theorem emit_eq_ok_iff {bytes : List Byte} {s t : State} :
    emit bytes s = .ok t ↔ s.bsPtr.toNat + bytes.length ≤ s.cfg.bsCap ∧ t = emitted bytes s := by
  unfold emit
  split
  · simp; omega
  · simp only [Except.ok.injEq]
    exact ⟨fun h => ⟨by omega, h.symm⟩, fun h => h.2.symm⟩

/-- `Emit` raises CAPACITY, and writes nothing, when they do not. -/
theorem emit_eq_error_iff {bytes : List Byte} {s : State} {st : Stop} :
    emit bytes s = .error st ↔ s.cfg.bsCap < s.bsPtr.toNat + bytes.length ∧ st = .error .capacity s := by
  unfold emit
  split
  · simp only [Except.error.injEq]
    exact ⟨fun h => ⟨by omega, h.symm⟩, fun h => h.2.symm⟩
  · simp; omega

theorem commit_eq_ok_iff {p : Pixel} {len : Nat} {s t : State} :
    commit p len s = .ok t ↔ s.pxPtr.toNat < s.cfg.pxCap ∧ t = committed p len s := by
  simp only [commit, State.pixelsExist, decide_eq_true_eq]
  split
  · simp only [Except.ok.injEq]
    exact ⟨fun h => ⟨by omega, h.symm⟩, fun h => h.2.symm⟩
  · simp; omega

theorem commit_ne_error {p : Pixel} {len : Nat} {s t : State} {c : QoiError} : commit p len s ≠ .error (.error c t) := by
  unfold commit
  split <;> simp

/-- What a single-pixel chunk does: `committed`, and never an error. -/
theorem settle_commit_eq_next_iff {site : ErrorSite} {p : Pixel} {len : Nat} {s t : State} :
    settle site (commit p len s) = .next t ↔ s.pxPtr.toNat < s.cfg.pxCap ∧ t = committed p len s := by
  rw [settle_eq_next_iff, commit_eq_ok_iff]
  exact ⟨fun h => h.resolve_right fun ⟨_, _, e, _⟩ => commit_ne_error e, .inl⟩

/-- What a RUN chunk does: OVERRUN, or `afterRun`. -/
theorem execRun_eq_next_iff {k : Nat} {s t : State} :
    execRun k s = .next t ↔
      (s.n.toNat < s.pxPtr.toNat + k ∧ t = raiseError .decStep .overrun s) ∨
        (s.pxPtr.toNat + k ≤ s.n.toNat ∧ s.pxPtr.toNat + k ≤ s.cfg.pxCap ∧ t = afterRun k s) := by
  rw [execRun, settle_eq_next_iff]
  simp only [decodeRun, State.pixelsExist, decide_eq_true_eq]
  split
  · simp only [reduceCtorEq, false_or, Except.error.injEq, Stop.error.injEq]
    constructor
    · rintro ⟨_, _, ⟨rfl, rfl⟩, rfl⟩
      exact .inl ⟨by omega, rfl⟩
    · rintro (⟨_, rfl⟩ | ⟨_, _, _⟩)
      · exact ⟨_, _, ⟨rfl, rfl⟩, rfl⟩
      · omega
  · split
    · simp only [Except.ok.injEq, reduceCtorEq, false_and, exists_false, or_false]
      constructor
      · rintro rfl
        exact .inr ⟨by omega, by omega, rfl⟩
      · rintro (⟨_, _⟩ | ⟨_, _, rfl⟩)
        · omega
        · rfl
    · simp only [reduceCtorEq, false_or, Except.error.injEq, exists_false, false_and]
      constructor
      · exact False.elim
      · rintro (⟨_, _⟩ | ⟨_, _, _⟩) <;> omega

/-! ### Header checks -/

/-- The header passes when all five checks do (rules R151, R201). -/
theorem headerError_eq_none_iff {s : State} :
    headerError s = none ↔
      (s.hdrC = 3 ∨ s.hdrC = 4) ∧ (s.hdrS = 0 ∨ s.hdrS = 1) ∧ s.hdrW ≠ 0 ∧ s.hdrH ≠ 0 ∧
        s.hdrW.toNat * s.hdrH.toNat ≤ s.cfg.pxCap := by
  unfold headerError
  constructor
  · intro h
    repeat' split at h
    all_goals simp only [reduceCtorEq] at h
    next hc hs hw hh hp => exact ⟨not_not.1 hc, not_not.1 hs, hw, hh, Nat.le_of_not_lt hp⟩
  · rintro ⟨hc, hs, hw, hh, hp⟩
    rw [if_neg (not_not.2 hc), if_neg (not_not.2 hs), if_neg hw, if_neg hh, if_neg (Nat.not_lt.2 hp)]

end Sys2Proof.Machine
end

