-- ==== Sys2Proof/Laws/Decoder.lean ====
section
/-! SUPPORT. What each step of the decoder, but for the chunks' own meanings, can do. -/

namespace Sys2Proof.Machine

theorem endMarkerError_eq_false_iff {s : State} :
    endMarkerError s = false ↔ 22 ≤ s.l.toNat ∧ s.streamBytes (s.l.toNat - 8) 8 = endMarker := by
  simp [endMarkerError]

theorem decStartHeader_eq_ok_iff {s t : State} :
    decStartHeader s = .ok t ↔
      headerError s = none ∧ (22 ≤ s.l.toNat ∧ s.streamBytes (s.l.toNat - 8) 8 = endMarker) ∧
        t = openChunks (latchCount s) := by
  rw [← endMarkerError_eq_false_iff, decStartHeader]
  split
  · next c h => simp [h]
  · next h => cases endMarkerError s <;> simp [h, eq_comm]

/-- The bytes of the stream memory do not depend on the latches. -/
@[simp] theorem streamBytes_latchLength (s : State) (a n : Nat) :
    (latchLength s).streamBytes a n = s.streamBytes a n := State.streamBytes_congr fun _ _ => rfl

@[simp] theorem streamBytes_decLatch (s : State) (a n : Nat) :
    (decLatch s).streamBytes a n = s.streamBytes a n := State.streamBytes_congr fun _ _ => rfl

theorem decStartLength_eq_ok_iff {s t : State} :
    decStartLength s = .ok t ↔
      s.l.toNat ≤ s.cfg.bsCap ∧ 14 ≤ s.l.toNat ∧ s.streamBytes 0 4 = s.cfg.magic.bytes ∧
        decStartHeader (decLatch s) = .ok t := by
  unfold decStartLength
  split
  · simp; omega
  · split
    · simp; omega
    · split
      · next h => simp [h]
      · next h => simp only [not_not.1 h, true_and]; exact ⟨fun e => ⟨by omega, by omega, e⟩, fun e => e.2.2⟩

/-- What the start of a decode pass leaves when its checks pass. -/
def decStarted (s : State) : State := openChunks (latchCount (decLatch (latchLength s)))

/-- A decode pass starts exactly when every check of rule R201 passes. -/
theorem decStart_eq_ok_iff {s t : State} :
    decStart s = .ok t ↔
      s.inLen.toNat ≤ s.cfg.bsCap ∧ 22 ≤ s.inLen.toNat ∧ s.streamBytes 0 4 = s.cfg.magic.bytes ∧
        headerError (decLatch s) = none ∧ s.streamBytes (s.inLen.toNat - 8) 8 = endMarker ∧ t = decStarted s := by
  have hl : headerError (decLatch (latchLength s)) = headerError (decLatch s) := rfl
  simp only [decStart, decStartLength_eq_ok_iff, decStartHeader_eq_ok_iff, hl, latchLength_l, latchLength_cfg,
    decLatch_l, streamBytes_latchLength, streamBytes_decLatch, decStarted]
  constructor
  · rintro ⟨h1, -, h2, h3, ⟨h4, h5⟩, h6⟩
    exact ⟨h1, h4, h2, h3, h5, h6⟩
  · rintro ⟨h1, h4, h2, h3, h5, h6⟩
    exact ⟨h1, by omega, h2, h3, ⟨h4, h5⟩, h6⟩

theorem readChunk_eq_ok_iff {s : State} {i : Instr} :
    readChunk s = .ok i ↔ ∃ rest, decode (s.streamBytes s.bsPtr.toNat (chunkLenAt s)) = .ok (i, rest) := by
  unfold readChunk
  split
  · next j rest h => simp [h]
  · next h => simp [h]

/-- A chunk is fetched when it lies whole in the chunk region (rule R205) and in the memory. -/
theorem fetchChunk_eq_ok_iff {s : State} {i : Instr} :
    fetchChunk s = .ok i ↔
      s.bsPtr.toNat + chunkLenAt s ≤ s.e.toNat ∧ s.bsPtr.toNat + chunkLenAt s ≤ s.cfg.bsCap ∧
        ∃ rest, decode (s.streamBytes s.bsPtr.toNat (chunkLenAt s)) = .ok (i, rest) := by
  have hp : 1 ≤ chunkLenAt s := chunkLen_pos _
  simp only [fetchChunk, State.bytesExist, decide_eq_true_eq]
  split
  · simp; omega
  · split
    · split
      · simp; omega
      · split
        · next h1 h2 => rw [readChunk_eq_ok_iff, and_iff_right (by omega), and_iff_right h2]
        · simp; omega
    · simp; omega

/-- A chunk's fetch raises no error but TRUNCATED, with the state as it was. -/
theorem fetchChunk_eq_error {s u : State} {c : QoiError} (h : fetchChunk s = .error (.error c u)) :
    c = .truncated ∧ u = s := by
  simp only [fetchChunk, readChunk] at h
  repeat' split at h
  all_goals simp_all

/-- What the finish step leaves when the cursors agree. -/
def decFinished (s : State) : State :=
  { s with
    width := s.hdrW
    height := s.hdrH
    channels := s.hdrC
    colorspace := s.hdrS
    outLen := s.n
    pass := .done
    runCnt := BitVec.ofNat 6 (Config.freeRunCnt s.draws).val
    draws := s.draws + 1 }

theorem decFinish_eq_ok_iff {s t : State} : decFinish s = .ok t ↔ s.bsPtr = s.e ∧ t = decFinished s := by
  unfold decFinish
  split
  · next h => simp [h]
  · next h =>
    simp only [Except.ok.injEq]
    exact ⟨fun e => ⟨not_not.1 h, e.symm⟩, fun e => e.2.symm⟩

theorem decFinish_eq_error_iff {s : State} {st : Stop} :
    decFinish s = .error st ↔ s.bsPtr ≠ s.e ∧ st = .error .endMarker s := by
  unfold decFinish
  split
  · next h =>
    rw [Except.error.injEq]
    exact ⟨fun e => ⟨h, e.symm⟩, fun e => e.2.symm⟩
  · next h => simp [not_not.1 h]

end Sys2Proof.Machine
end

