-- ==== Sys2Proof/Laws/Encoder.lean ====
section
/-! SUPPORT. What each step of the encoder can do. -/

namespace Sys2Proof.Machine

/-- What the flush of a run leaves. -/
def afterFlush (s : State) : State := { emitted (runBytes s) s with runCnt := 0 }

@[simp] theorem runBytes_length (s : State) : (runBytes s).length = 1 := rfl

theorem flushRun_eq_ok_iff {s t : State} :
    flushRun s = .ok t ↔ s.bsPtr.toNat + 1 ≤ s.cfg.bsCap ∧ t = afterFlush s := by
  simp only [flushRun, bind_eq_ok_iff, emit_eq_ok_iff, runBytes_length]
  constructor
  · rintro ⟨u, ⟨h, rfl⟩, h2⟩
    exact ⟨h, (Except.ok.inj h2).symm⟩
  · rintro ⟨h, rfl⟩
    exact ⟨_, ⟨h, rfl⟩, rfl⟩

theorem flushRun_eq_error_iff {s : State} {st : Stop} :
    flushRun s = .error st ↔ s.cfg.bsCap < s.bsPtr.toNat + 1 ∧ st = .error .capacity s := by
  simp [flushRun, bind_eq_error_iff, emit_eq_error_iff]

theorem runEnds_iff {s : State} : runEnds s = true ↔ s.runCnt = 62 ∨ s.pxPtr.toNat + 1 = s.n.toNat := by
  simp [runEnds]

/-- A run pixel is counted, and a full or last run is flushed. -/
theorem encRunPixel_eq_ok_iff {s t : State} :
    encRunPixel s = .ok t ↔
      if runEnds (countRun s) then s.bsPtr.toNat + 1 ≤ s.cfg.bsCap ∧ t = afterFlush (countRun s)
      else t = countRun s := by
  unfold encRunPixel
  split
  · exact flushRun_eq_ok_iff
  · simp [eq_comm]

/-- A pending run is flushed before any other chunk. -/
theorem encPendingFlush_eq_ok_iff {s t : State} :
    encPendingFlush s = .ok t ↔
      if s.runCnt = 0 then t = s else s.bsPtr.toNat + 1 ≤ s.cfg.bsCap ∧ t = afterFlush s := by
  unfold encPendingFlush
  split
  · simp [eq_comm]
  · exact flushRun_eq_ok_iff

/-- The chunk of a pixel that is no run pixel, and the state it is emitted from. -/
theorem encOtherPixel_eq_ok_iff {p : Pixel} {s t : State} :
    encOtherPixel p s = .ok t ↔
      if s.cacheLookup (pixelHash p) = p then
        s.bsPtr.toNat + 1 ≤ s.cfg.bsCap ∧ t = emitted (encode (.index (pixelHash p))) s
      else
        s.bsPtr.toNat + (encode (encMissChunk p s.prev)).length ≤ s.cfg.bsCap ∧
          t = emitted (encode (encMissChunk p s.prev)) (s.cacheStore p) := by
  unfold encOtherPixel
  split <;> simp [emit_eq_ok_iff]

/-- The pixel step: a run pixel, or the flush of the pending run and another chunk; then the advance (rule R154). -/
theorem encPixel_eq_ok_iff {p : Pixel} {s t : State} :
    encPixel p s = .ok t ↔
      ∃ u, t = encAdvance p u ∧
        if p = s.prev then encRunPixel s = .ok u
        else ∃ v, encPendingFlush s = .ok v ∧ encOtherPixel p v = .ok u := by
  simp only [encPixel, bind_eq_ok_iff, Except.ok.injEq]
  refine exists_congr fun u => ?_
  rw [encClassify, and_comm, eq_comm]
  split
  · rfl
  · rw [bind_eq_ok_iff]

theorem encPixelStep_eq_ok_iff {s t : State} :
    encPixelStep s = .ok t ↔ s.pxPtr.toNat < s.cfg.pxCap ∧ encPixel (s.pixelAt s.pxPtr.toNat) s = .ok t := by
  unfold encPixelStep
  simp only [State.pixelsExist, decide_eq_true_eq]
  split
  · simp only [show s.pxPtr.toNat < s.cfg.pxCap by omega, true_and]
  · simp; omega

/-- The tail step appends the end marker when it fits. -/
theorem encTail_eq_ok_iff {s t : State} :
    encTail s = .ok t ↔
      s.bsPtr.toNat + 8 ≤ s.cfg.bsCap ∧
        t = { emitted endMarker s with outLen := s.bsPtr + 8, pass := .done } := by
  simp only [encTail, bind_eq_ok_iff, emit_eq_ok_iff]
  constructor
  · rintro ⟨u, ⟨h, rfl⟩, e⟩
    exact ⟨h, (Except.ok.inj e).symm⟩
  · rintro ⟨h, rfl⟩
    exact ⟨_, ⟨h, rfl⟩, rfl⟩

theorem encTail_eq_error_iff {s : State} {st : Stop} :
    encTail s = .error st ↔ s.cfg.bsCap < s.bsPtr.toNat + 8 ∧ st = .error .capacity s := by
  simp [encTail, bind_eq_error_iff, emit_eq_error_iff, endMarker]

@[simp] theorem headerBytes_length (s : State) : (headerBytes s).length = 14 := rfl

/-- What the start of an encode pass leaves when its checks pass. -/
def encStarted (s : State) : State :=
  enterEnc (emitted (headerBytes (encLatch s)) (rewindStream (latchCount (encLatch s))))

theorem encStart_eq_ok_iff {s t : State} :
    encStart s = .ok t ↔ headerError (encLatch s) = none ∧ 14 ≤ s.cfg.bsCap ∧ t = encStarted s := by
  unfold encStart
  split
  · next c h => simp [h]
  · next h =>
    simp only [bind_eq_ok_iff, emit_eq_ok_iff, h, true_and]
    constructor
    · rintro ⟨u, ⟨h1, rfl⟩, e⟩
      exact ⟨by simpa using h1, (Except.ok.inj e).symm⟩
    · rintro ⟨h1, rfl⟩
      exact ⟨_, ⟨by simpa using h1, rfl⟩, rfl⟩

end Sys2Proof.Machine
end

