-- ==== Sys2Proof/Laws/PerInstr.lean ====
section
/-! SUPPORT. The per-instruction families of LAWS.json. -/

namespace Sys2Proof.Laws

/-- The number of bytes of a chunk, by its class (rules R91, R92). -/
def chunkBytes : Instr → Nat
  | .rgb _ _ _ => 4
  | .rgba _ _ _ _ => 5
  | .run _ => 1
  | .luma _ _ _ => 2
  | .diff _ _ _ => 1
  | .index _ => 1

/-- A chunk is encoded in as many bytes as its class has. -/
def EncodeLength.Statement (i : Instr) : Prop := (encode i).length = chunkBytes i

namespace EncodeLength

theorem rgb (r g b : Byte) : Statement (.rgb r g b) := rfl
theorem rgba (r g b a : Byte) : Statement (.rgba r g b a) := rfl
theorem run (n : Nat) : Statement (.run n) := rfl
theorem luma (dg drdg dbdg : Int) : Statement (.luma dg drdg dbdg) := rfl
theorem diff (dr dg db : Int) : Statement (.diff dr dg db) := rfl
theorem index (k : Slot) : Statement (.index k) := rfl

end EncodeLength

end Sys2Proof.Laws
end

