-- ==== Sys2Proof/Laws/Step.lean ====
section
/-! SUPPORT. What one step can do: by the turn it takes, and by the step of the pipeline. -/

namespace Sys2Proof.Machine

theorem step_of_turns {s : State} {t : Turn} {rest : List Turn} (h : s.turns = t :: rest) :
    step s = move t { s with turns := rest } := by
  simp [step, h]

theorem step_of_no_turn {s : State} (h : s.turns = []) : step s = pipelineMove s := by simp [step, h]

/-- A step is the pipeline's move or the move of the first turn. -/
theorem step_eq_next_cases {s t : State} (h : step s = .next t) :
    (s.turns = [] ∧ pipelineMove s = .next t) ∨
      ∃ turn rest, s.turns = turn :: rest ∧ move turn { s with turns := rest } = .next t := by
  cases hs : s.turns with
  | nil => exact .inl ⟨rfl, step_of_no_turn hs ▸ h⟩
  | cons turn rest => exact .inr ⟨turn, rest, rfl, step_of_turns hs ▸ h⟩

/-- A chunk step executes the chunk it fetched, or raises the error of the fetch. -/
theorem decChunkStep_eq_next_iff {s t : State} :
    decChunkStep s = .next t ↔
      (∃ i, fetchChunk s = .ok i ∧ exec i s = .next t) ∨
        ∃ c u, fetchChunk s = .error (.error c u) ∧ t = raiseError .decStep c u := by
  unfold decChunkStep
  split
  · next i h => simp [h]
  · next c u h =>
    simp only [h, Host.Outcome.next.injEq, reduceCtorEq, false_and, exists_false, false_or, Except.error.injEq,
      Stop.error.injEq]
    exact ⟨fun e => ⟨c, u, ⟨rfl, rfl⟩, e.symm⟩, by rintro ⟨_, _, ⟨rfl, rfl⟩, rfl⟩; rfl⟩
  · next f h => simp [h]

/-- The five things the pipeline's move can be (rules R153, R204). -/
theorem pipelineMove_eq_next_cases {s t : State} (h : pipelineMove s = .next t) :
    (s.pass = .enc ∧ s.pxPtr < s.n ∧ settle .encStep (encPixelStep s) = .next t) ∨
      (s.pass = .enc ∧ ¬s.pxPtr < s.n ∧ settle .encStep (encTail s) = .next t) ∨
      (s.pass = .dec ∧ s.pxPtr < s.n ∧ decChunkStep s = .next t) ∨
      (s.pass = .dec ∧ ¬s.pxPtr < s.n ∧ settle .decStep (decFinish s) = .next t) ∨
      (s.busy = false ∧ t = s) := by
  unfold pipelineMove at h
  split at h
  · next hp => split at h <;> simp_all
  · next hp => split at h <;> simp_all
  all_goals next hp => simp_all [State.busy]

/-- A host access to a memory happens only while no pass runs. -/
theorem whenIdle_eq_next_iff {s u t : State} : whenIdle s u = .next t ↔ s.busy = false ∧ t = u := by
  unfold whenIdle
  cases s.busy <;> simp [eq_comm]

/-- A register write while a pass runs changes nothing (rule R45). -/
theorem hostWriteReg_of_busy {s : State} (h : s.busy = true) (r : RegNum) (v : Word) :
    hostWriteReg r v s = .next s := by
  simp [hostWriteReg, h]

/-- The eight things an answered host move can be. -/
theorem hostMove_eq_next_cases {op : HostOp} {s t : State} (h : hostMove op s = .next t) :
    (∃ x, t = answer x s) ∨ t = s ∨ (s.busy = false ∧ ∃ i w, t = hostWritePixel i w s) ∨
      (s.busy = false ∧ ∃ a b, t = hostWriteStream a b s) ∨
      (s.busy = false ∧ ∃ r v, op = .writeReg r v ∧ regOf r = .ctrl ∧ ctrlWrite v s = .next t) ∨
      (s.busy = false ∧ ∃ w h c d l,
        t = { s with width := w, height := h, channels := c, colorspace := d, inLen := l }) := by
  cases op with
  | readReg r => exact .inl ⟨_, (Host.Outcome.next.inj h).symm⟩
  | readPixel i => exact .inl ⟨_, (whenIdle_eq_next_iff.1 h).2⟩
  | readStream a => exact .inl ⟨_, (whenIdle_eq_next_iff.1 h).2⟩
  | writePixel i w =>
    obtain ⟨hb, ht⟩ := whenIdle_eq_next_iff.1 h
    exact .inr (.inr (.inl ⟨hb, i, w, ht⟩))
  | writeStream a b =>
    obtain ⟨hb, ht⟩ := whenIdle_eq_next_iff.1 h
    exact .inr (.inr (.inr (.inl ⟨hb, a, b, ht⟩)))
  | writeReg r v =>
    simp only [hostMove, hostWriteReg] at h
    split at h
    · exact .inr (.inl (Host.Outcome.next.inj h).symm)
    · next hb =>
      have hb : s.busy = false := by simpa using hb
      split at h
      · next hr => exact .inr (.inr (.inr (.inr (.inl ⟨hb, r, v, rfl, hr, h⟩))))
      all_goals
        have h := Host.Outcome.next.inj h
        first
          | exact .inr (.inl h.symm)
          | exact .inr (.inr (.inr (.inr (.inr ⟨hb, _, _, _, _, _, h.symm⟩))))

/-- A `CTRL` write stores MODE and, with START = 1, starts a pass from the reset pass state. -/
theorem ctrlWrite_eq_next_iff {v : Word} {s t : State} :
    ctrlWrite v s = .next t ↔
      if v.getLsbD 0 then
        settle .start ((if v.getLsbD 1 then decStart else encStart)
          (passReset { s with mode := modeOfBit (v.getLsbD 1) })) = .next t
      else t = { s with mode := modeOfBit (v.getLsbD 1) } := by
  unfold ctrlWrite
  split
  · cases v.getLsbD 1 <;> simp [modeOfBit]
  · simp [eq_comm]

end Sys2Proof.Machine
end

