-- ==== Sys2Proof/Tests/Slice0.lean ====
section
/-! SUPPORT. The model's own tests. Expected values are the vectors of spec/95_test_vectors.md (named by their numbers), the
examples of the rules, or words written out from the formats of spec/30_encoding.md; and, for every statement with
hypotheses, a concrete state and operands that meet them. -/

namespace Sys2Proof.Tests

open Sys2Proof.Machine

/-! ## Helpers -/

/-- What a function reads in the next state. -/
def got {β : Type} (o : Host.Outcome State Fault Refusal) (f : State → β) : Option β :=
  match o with
  | .next t => some (f t)
  | .fault _ => none
  | .refused _ => none

/-- A small block: 8 pixels, 64 stream bytes. -/
def idleS : State :=
  { State.reset with
    cfg := ⟨8, 64, ⟨0x71, 0x6F, 0x69, 0x66⟩⟩
    width := 1
    height := 1
    channels := 4
    colorspace := 0
    px := ⟨[(0, 0x0A141EFF)], []⟩ }

/-- The small block with a stream at offset 0 and its length in `IN_LEN`. -/
def streamS (bytes : List Byte) : State :=
  { idleS with bs := idleS.bs.writeList 0 bytes, inLen := BitVec.ofNat 32 bytes.length }

/-- `HDR(w,h,c,s)` of rule R108 for sizes below 256. -/
def hdr (w h c s : Byte) : List Byte := [0x71, 0x6F, 0x69, 0x66, 0, 0, 0, w, 0, 0, 0, h, c, s]

/-- A decode pass of 4 pixels at its first chunk, with the given chunk region and the end marker after it. -/
def decS (chunks : List Byte) : State :=
  { idleS with
    pass := .dec
    prev := initPrev
    cache := clearedCache
    bs := idleS.bs.writeList 0 (hdr 4 1 4 0 ++ chunks ++ [0, 0, 0, 0, 0, 0, 0, 1])
    hdrW := 4
    hdrH := 1
    hdrC := 4
    hdrS := 0
    n := 4
    l := BitVec.ofNat 32 (22 + chunks.length)
    e := BitVec.ofNat 32 (14 + chunks.length)
    bsPtr := 14 }

/-- An encode pass of the given pixel words at its first pixel. -/
def encS (words : List Word) : State :=
  { idleS with
    pass := .enc
    prev := initPrev
    cache := clearedCache
    px := idleS.px.writeList 0 words
    bs := idleS.bs.writeList 0 (hdr (BitVec.ofNat 8 words.length) 1 4 0)
    hdrW := BitVec.ofNat 32 words.length
    hdrH := 1
    hdrC := 4
    hdrS := 0
    n := BitVec.ofNat 32 words.length
    bsPtr := 14 }

/-- The encode pass of one pixel (10,20,30,255), S8, at its tail step. -/
def tailS : State :=
  { encS [0x0A141EFF] with
    pxPtr := 1
    prev := ⟨10, 20, 30, 255⟩
    bs := (encS [0x0A141EFF]).bs.writeList 14 [0xFE, 0x0A, 0x14, 0x1E]
    bsPtr := 18 }

/-- A START write. -/
def start (v : Word) (s : State) : Host.Outcome State Fault Refusal := hostMove (.writeReg 0 v) s

/-! ## Well-formed terms: one ill-formed term for each check -/

theorem test_wf_run_zero : (Instr.run 0).wf = false := by decide
theorem test_wf_run_long : (Instr.run 63).wf = false := by decide
theorem test_wf_luma_dg_low : (Instr.luma (-33) 0 0).wf = false := by decide
theorem test_wf_luma_dg_high : (Instr.luma 32 0 0).wf = false := by decide
theorem test_wf_luma_dr_low : (Instr.luma 0 (-9) 0).wf = false := by decide
theorem test_wf_luma_dr_high : (Instr.luma 0 8 0).wf = false := by decide
theorem test_wf_luma_db_low : (Instr.luma 0 0 (-9)).wf = false := by decide
theorem test_wf_luma_db_high : (Instr.luma 0 0 8).wf = false := by decide
theorem test_wf_diff_dr_low : (Instr.diff (-3) 0 0).wf = false := by decide
theorem test_wf_diff_dr_high : (Instr.diff 2 0 0).wf = false := by decide
theorem test_wf_diff_dg_low : (Instr.diff 0 (-3) 0).wf = false := by decide
theorem test_wf_diff_dg_high : (Instr.diff 0 2 0).wf = false := by decide
theorem test_wf_diff_db_low : (Instr.diff 0 0 (-3)).wf = false := by decide
theorem test_wf_diff_db_high : (Instr.diff 0 0 2).wf = false := by decide

/-! ## Decoding: words written out bit by bit from rules R94 to R99 -/

/-- INDEX `00 110101`: slot 53. -/
theorem test_decode_index : decode [0b00110101] = .ok (.index 53, []) := by rfl
/-- DIFF `01 11 00 11`: (3-2, 0-2, 3-2). -/
theorem test_decode_diff : decode [0b01110011] = .ok (.diff 1 (-2) 1, []) := by rfl
/-- LUMA `10 111111`, `1111 0000`: dg = 63-32, dr-dg = 15-8, db-dg = 0-8; the byte after is left over. -/
theorem test_decode_luma : decode [0b10111111, 0b11110000, 0x55] = .ok (.luma 31 7 (-8), [0x55]) := by rfl
/-- RUN `11 111101`: 61 + 1. -/
theorem test_decode_run : decode [0b11111101] = .ok (.run 62, []) := by rfl
/-- RGB `11111110`, then R, G, B; a payload byte may look like a tag (rule R106). -/
theorem test_decode_rgb : decode [0b11111110, 0xFF, 0x14, 0xFE] = .ok (.rgb 0xFF 0x14 0xFE, []) := by rfl
/-- RGBA `11111111`, then R, G, B, A. -/
theorem test_decode_rgba : decode [0b11111111, 1, 2, 3, 4] = .ok (.rgba 1 2 3 4, []) := by rfl
/-- An RGB chunk with two payload bytes is cut off. -/
theorem test_decode_cut_off : decode [0xFE, 1, 2] = .error (.chunkCutOff .rgb) := by rfl
/-- The encoder's word of LUMA, from R108's table. -/
theorem test_encode_luma : encode (.luma 31 7 (-8)) = [0xBF, 0xF0] := by rfl
/-- The table's numbering: LUMA's second byte stands in bits 15..8. -/
theorem test_table_word : decodeTableWord 16 0xF0BF = some (.luma 31 7 (-8)) := by rfl
/-- The table gives RGB eight bits; its payload bytes are then 0. -/
theorem test_table_word_short : decodeTableWord 8 0xFE = some (.rgb 0 0 0) := by rfl

/-! ## Chunk steps (spec/95_test_vectors.md 2.4, 2.5) -/

/-- DV1. -/
theorem test_rgb : got (step (decS [0xFE, 0x0A, 0x14, 0x1E])) (fun t => (t.pixelAt 0, t.cache.get 9, t.bsPtr)) =
    some (⟨10, 20, 30, 255⟩, ⟨10, 20, 30, 255⟩, 18) := by rfl
/-- DE16: RGB cut off. -/
theorem test_rgb_truncated : got (step (decS [0xFE, 0x0A])) statusWord = some 0x64 := by rfl
/-- DV3. -/
theorem test_rgba : got (step (decS [0xFF, 1, 2, 3, 4])) (fun t => (t.pixelAt 0, t.cache.get 14, t.prev)) =
    some (⟨1, 2, 3, 4⟩, ⟨1, 2, 3, 4⟩, ⟨1, 2, 3, 4⟩) := by rfl
/-- DE18: RGBA cut off. -/
theorem test_rgba_truncated : got (step (decS [0xFF, 1, 2, 3])) statusWord = some 0x64 := by rfl
/-- DV5: a run of the initial `PREV` stores it at slot 53. -/
theorem test_run : got (step (decS [0xC1])) (fun t => (t.pixelAt 1, t.cache.get 53, t.pxPtr)) =
    some (⟨0, 0, 0, 255⟩, ⟨0, 0, 0, 255⟩, 2) := by rfl
/-- DE22 with 4 pixels: a run of 5 overruns. -/
theorem test_run_overrun : got (step (decS [0xC4])) statusWord = some 0x74 := by rfl
/-- DV11: all channels wrap below 0. -/
theorem test_luma : got (step (decS [0x80, 0x00])) (fun t => (t.prev, t.cache.get 5)) =
    some (⟨216, 224, 216, 255⟩, ⟨216, 224, 216, 255⟩) := by rfl
/-- DE19: LUMA's second byte would be the marker's first. -/
theorem test_luma_truncated : got (step (decS [0xBF])) statusWord = some 0x64 := by rfl
/-- DV14: red wraps below 0. -/
theorem test_diff : got (step (decS [0x5B])) (fun t => (t.prev, t.cache.get 57)) =
    some (⟨255, 0, 1, 255⟩, ⟨255, 0, 1, 255⟩) := by rfl
/-- DV20: slot 5 was never written; the store goes to slot 0. -/
theorem test_index : got (step (decS [0x05])) (fun t => (t.prev, t.cache.get 0, t.pxPtr)) =
    some (⟨0, 0, 0, 0⟩, ⟨0, 0, 0, 0⟩, 1) := by rfl
/-- DV22: INDEX takes the slot's alpha, not `PREV`'s. -/
theorem test_index_alpha : got (exec (.index 53) { decS [0x35] with prev := ⟨1, 2, 3, 4⟩ }) (fun t => t.prev) =
    some ⟨0, 0, 0, 0⟩ := by rfl

/-! ## Encoder steps (2.2) and the tail (S8, EE9) -/

/-- EV1: the first pixel equals the initial `PREV` and is the last: RUN(1). -/
theorem test_enc_run : got (step (encS [0x000000FF])) (fun t => (t.streamBytes 14 1, t.runCnt)) = some ([0xC0], 0) := by rfl
/-- EV3, third step: the pending run, then LUMA. -/
theorem test_enc_pending :
    got (step { encS [0xFF, 0xFF, 0x070707FF] with pxPtr := 2, runCnt := 2 }) (fun t => (t.streamBytes 14 3, t.bsPtr)) =
      some ([0xC1, 0xA7, 0x88], 17) := by rfl
/-- EV4: the zero pixel hits the cleared slot 0. -/
theorem test_enc_index : got (step (encS [0x00000000])) (fun t => t.streamBytes 14 1) = some [0x00] := by rfl
/-- EV8: DIFF(-1,0,1), the difference wrapping. -/
theorem test_enc_diff : got (step (encS [0xFF0001FF])) (fun t => (t.streamBytes 14 1, t.cache.get 57)) =
    some ([0x5B], ⟨255, 0, 1, 255⟩) := by rfl
/-- EV16: dr-dg = 8, one past the LUMA range. -/
theorem test_enc_rgb : got (step (encS [0x271F17FF])) (fun t => t.streamBytes 14 4) = some [0xFE, 0x27, 0x1F, 0x17] := by rfl
/-- EV21: colour equal to `PREV`, alpha changed. -/
theorem test_enc_rgba : got (step (encS [0x000000FE])) (fun t => t.streamBytes 14 5) = some [0xFF, 0, 0, 0, 0xFE] := by rfl
/-- S8: 26 bytes in all. -/
theorem test_enc_tail : got (step tailS) (fun t => (t.outLen, statusWord t, t.streamBytes 18 8)) =
    some (26, 0x02, [0, 0, 0, 0, 0, 0, 0, 1]) := by rfl
/-- EE9: the marker does not fit. -/
theorem test_enc_tail_capacity :
    got (step { tailS with cfg := { tailS.cfg with bsCap := 25 } }) statusWord = some 0x94 := by rfl

/-! ## Starts: each check at its own vector (2.3, 2.5, S9), and a start that passes -/

/-- EE1 to EE6. -/
theorem test_enc_start_errors :
    got (start 1 { idleS with channels := 5 }) statusWord = some 0x24 ∧
      got (start 1 { idleS with colorspace := 2 }) statusWord = some 0x34 ∧
      got (start 1 { idleS with width := 0 }) statusWord = some 0x44 ∧
      got (start 1 { idleS with height := 0 }) statusWord = some 0x54 ∧
      got (start 1 { idleS with width := 3, height := 3 }) statusWord = some 0x94 ∧
      got (start 1 { idleS with width := 0, channels := 5, colorspace := 2 }) statusWord = some 0x24 :=
  ⟨rfl, rfl, rfl, rfl, rfl, rfl⟩

theorem test_enc_start : got (start 1 { idleS with width := 2, height := 4 }) (fun t => (t.pass, t.n, t.streamBytes 0 14)) =
    some (.enc, 8, hdr 2 4 4 0) := by rfl

/-- DE11, DE1, S9, DE4, DE6, DE7, DE9. -/
theorem test_dec_start_errors :
    got (start 3 { streamS [] with inLen := 65 }) statusWord = some 0x94 ∧
      got (start 3 { streamS (hdr 1 1 4 0) with inLen := 13 }) statusWord = some 0x64 ∧
      got (start 3 (streamS ([0x71, 0x6F, 0x69, 0x78] ++ (hdr 1 1 5 0).drop 4))) statusWord = some 0x14 ∧
      got (start 3 (streamS (hdr 1 1 5 0))) statusWord = some 0x24 ∧
      got (start 3 (streamS (hdr 1 1 4 2))) statusWord = some 0x34 ∧
      got (start 3 (streamS (hdr 0 1 4 0))) statusWord = some 0x44 ∧
      got (start 3 (streamS (hdr 1 0 4 0))) statusWord = some 0x54 :=
  ⟨rfl, rfl, rfl, rfl, rfl, rfl, rfl⟩

/-- DE10, DE12, DE13, and a stream that starts. -/
theorem test_dec_start_end :
    got (start 3 (streamS (hdr 3 3 4 0))) statusWord = some 0x94 ∧
      got (start 3 (streamS (hdr 1 1 4 0 ++ [0, 0, 0, 0, 0, 0, 1]))) statusWord = some 0x84 ∧
      got (start 3 (streamS (hdr 1 1 4 0 ++ [0x7F, 0, 0, 0, 0, 0, 0, 0, 0]))) statusWord = some 0x84 ∧
      got (start 3 (streamS (hdr 1 1 4 0 ++ [0x7F, 0, 0, 0, 0, 0, 0, 0, 1]))) (fun t => (t.pass, t.e, t.bsPtr)) =
        some (.dec, 15, 14) :=
  ⟨rfl, rfl, rfl, rfl⟩

/-! ## The other host moves (2.6), the finish, and the placed chunk -/

/-- HV2: MODE stored, START reads 0, no pass. -/
theorem test_mode_write : got (start 2 idleS) (fun t => (readReg t 0, readReg t 1)) = some (2, 0) := by rfl
/-- EE7: bits [31:8] of `CHANNELS` are reserved. -/
theorem test_channels_write : got (hostMove (.writeReg 4 0x104) idleS) (fun t => readReg t 4) = some 4 := by rfl
/-- HV5, HV6: reserved and read-only numbers ignore a write. -/
theorem test_reserved_write : got (hostMove (.writeReg 40 0xFFFFFFFF) idleS) (fun t => (readReg t 40, readReg t 7)) =
    some (0, 0) := by rfl
/-- HV7: a write while busy is ignored. -/
theorem test_busy_write : got (hostMove (.writeReg 2 9) (decS [])) (fun t => t.width) = some 1 := by rfl
/-- R72: outside the pixel memory a read gives 0. -/
theorem test_outside_read : got (hostMove (.readPixel 8) idleS) (fun t => t.answers) = some [.pixel 8 0] := by rfl
/-- DE25 shortened: a byte is left over when the pixels are complete. -/
theorem test_finish_leftover : got (step { decS [0x05] with pxPtr := 4 }) statusWord = some 0x84 := by rfl
/-- The finish reports the header. -/
theorem test_finish : got (step { decS [] with pxPtr := 4 }) (fun t => (statusWord t, t.width, t.outLen)) =
    some (0x02, 4, 4) := by rfl
/-- The next step after placing a table word runs its chunk: RUN(1), from reset. -/
theorem test_fetch_word : got (step (State.reset.withFetchWord 8 0xC0)) (fun t => (t.pxPtr, t.bsPtr, t.turns)) =
    some (1, 15, []) := by rfl

/-! ## Witnesses: the hypotheses of each statement can be met -/

theorem witness_DecodeOfEncodedChunk :
    (Instr.run 1).wf = true ∧ (Instr.run 62).wf = true ∧ (Instr.luma (-32) 7 (-8)).wf = true ∧
      (Instr.luma 31 (-8) 7).wf = true ∧ (Instr.diff (-2) 1 (-2)).wf = true ∧ (Instr.index 63).wf = true ∧
      (Instr.rgb 0 255 0).wf = true ∧ (Instr.rgba 255 0 255 0).wf = true := by decide
theorem witness_DecodedBytesReencode : decode [0xFD, 7] = .ok (.run 62, [7]) := by rfl
theorem witness_ChunkLengthFromLeadByte :
    decode (0xBF :: [0xF0]) = .ok (.luma 31 7 (-8), []) ∧ decode (0xFE :: [1, 2, 3]) = .ok (.rgb 1 2 3, []) ∧
      decode (0xFF :: [1, 2, 3, 4]) = .ok (.rgba 1 2 3 4, []) ∧ decode (0x3F :: []) = .ok (.index 63, []) :=
  ⟨rfl, rfl, rfl, rfl⟩
theorem witness_ExactTagsBeforeRun :
    decode (0xFD :: []) = .ok (.run 62, []) ∧ decode (0xC0 :: [9]) = .ok (.run 1, [9]) := ⟨rfl, rfl⟩
theorem witness_LeadByteHasOneClass : ∃ row ∈ opcodeTable, row.admits 0xFD = true := by decide

/-- A chunk of every length fits, to the last byte and the last pixel: for the six chunk statements and
MissChunkDecodesToItsPixel. -/
theorem witness_ChunkFits :
    ChunkFits (decS [0xFE, 1, 2, 3]) 4 ∧ ChunkFits (decS [0xFF, 1, 2, 3, 4]) 5 ∧ ChunkFits (decS [0x80, 0]) 2 ∧
      ChunkFits (decS [0x40]) 1 ∧ ChunkFits { decS [0x40] with pxPtr := 3 } 1 := by
  unfold ChunkFits
  decide

/-- Cut-off chunks, for RgbChunk, RgbaChunk and LumaChunk. -/
theorem witness_ChunkCutOff :
    ChunkCutOff (decS [0xFE, 1, 2]) 0xFE 4 ∧ ChunkCutOff (decS [0xFE]) 0xFE 4 ∧ ChunkCutOff (decS [0xFF, 1, 2, 3]) 0xFF 5 ∧
      ChunkCutOff (decS [0xBF]) 0xBF 2 := by
  unfold ChunkCutOff
  decide

theorem witness_RunChunk :
    (0xC0 : Byte).toNat / 64 = 3 ∧ (0xFD : Byte).toNat / 64 = 3 ∧ (0xFD : Byte) ≠ 0xFE ∧ (0xFD : Byte) ≠ 0xFF ∧
      (decS [0xC3]).bsPtr.toNat + 1 ≤ (decS [0xC3]).e.toNat ∧ (decS [0xC3]).pxPtr.toNat + 4 ≤ (decS [0xC3]).n.toNat ∧
      (decS [0xC3]).n.toNat ≤ (decS [0xC3]).cfg.pxCap ∧ (decS [0xC4]).n.toNat < (decS [0xC4]).pxPtr.toNat + 5 := by
  decide

/-- Lead bytes at the ends of their classes, for LumaChunk, DiffChunk and IndexChunk. -/
theorem witness_LeadBytes :
    (0x80 : Byte).toNat / 64 = 2 ∧ (0xBF : Byte).toNat / 64 = 2 ∧ (0x40 : Byte).toNat / 64 = 1 ∧
      (0x7F : Byte).toNat / 64 = 1 ∧ (0x3F : Byte).toNat / 64 = 0 ∧ (63 : Slot).val = (0x3F : Byte).toNat := by decide

theorem witness_SinglePixelChunkFrame :
    (∀ k, Instr.diff 1 1 1 ≠ .run k) ∧ ∃ t, exec (.diff 1 1 1) (decS [0x7F]) = .next t := ⟨nofun, _, rfl⟩

theorem witness_TruncatedChunkFails :
    (decS []).pass = .dec ∧ (decS []).pipelineTurn ∧ (decS []).pxPtr < (decS []).n ∧
      (decS []).e.toNat ≤ (decS []).cfg.bsCap ∧ (decS []).e.toNat ≤ (decS []).bsPtr.toNat ∧
      (decS [0xBF]).e.toNat < (decS [0xBF]).bsPtr.toNat + chunkLen ((decS [0xBF]).streamByte (decS [0xBF]).bsPtr.toNat) :=
  ⟨rfl, .inl rfl, by decide, by decide, by decide, by decide⟩

theorem witness_StepExecutesDecodedChunk :
    (decS [0x73, 0x00]).pipelineTurn ∧ { decS [0x73] with turns := [.pipeline] }.pipelineTurn ∧
      (decS [0x73, 0x00]).pxPtr < (decS [0x73, 0x00]).n ∧
      (decS [0x73, 0x00]).e.toNat ≤ (decS [0x73, 0x00]).cfg.bsCap ∧
      decode ((decS [0x73, 0x00]).streamBytes 14 2) = .ok (.diff 1 (-2) 1, [0x00]) :=
  ⟨.inl rfl, .inr ⟨[], rfl⟩, by decide, by decide, rfl⟩

/-- The hypotheses of DecodeStartReportsFirstFailure and EncodeStartReportsFirstFailure; each clause of the chains has its state in the tests of the starts
above. -/
theorem witness_Starts :
    idleS.busy = false ∧ idleS.cfg.wf ∧ (3 : Word).getLsbD 0 = true ∧ (3 : Word).getLsbD 1 = true ∧
      (1 : Word).getLsbD 0 = true ∧ (1 : Word).getLsbD 1 = false := by decide

theorem witness_DecodeStartEstablishesPass :
    ∃ t, hostMove (.writeReg 0 3) (streamS (hdr 1 1 4 0 ++ [0x7F, 0, 0, 0, 0, 0, 0, 0, 1])) = .next t ∧ t.pass = .dec :=
  ⟨_, rfl, rfl⟩

theorem witness_EncodeStartEstablishesPass : ∃ t, hostMove (.writeReg 0 1) idleS = .next t ∧ t.pass = .enc := ⟨_, rfl, rfl⟩

theorem witness_DecodeFinish :
    { decS [] with pxPtr := 4 }.pass = .dec ∧ { decS [] with pxPtr := 4 }.pipelineTurn ∧
      ¬{ decS [] with pxPtr := 4 }.pxPtr < { decS [] with pxPtr := 4 }.n ∧
      { decS [] with pxPtr := 4 }.bsPtr = { decS [] with pxPtr := 4 }.e ∧
      { decS [0x05] with pxPtr := 4 }.bsPtr ≠ { decS [0x05] with pxPtr := 4 }.e :=
  ⟨rfl, .inl rfl, by decide, by decide, by decide⟩

theorem witness_EmitAllOrNothing :
    idleS.cfg.bsCap < 2 ^ 32 ∧ ¬(tailS.bsPtr.toNat + endMarker.length > tailS.cfg.bsCap) ∧
      { tailS with bsPtr := 57 }.bsPtr.toNat + endMarker.length > tailS.cfg.bsCap := by decide

/-- For RunPixelCounted and RunFlushedWhenFullOrLast: a run pixel in the middle of an image, and one that fills or ends the run, with room for the byte and without. -/
theorem witness_RunPixels :
    EncoderReads { encS [0xFF, 0xFF] with runCnt := 60 } initPrev ∧ EncoderReads (encS [0xFF]) initPrev ∧
      { encS [0xFF, 0xFF] with runCnt := 60 }.runCnt.toNat ≤ 60 ∧
      { encS [0xFF, 0xFF] with runCnt := 60 }.pxPtr.toNat + 1 ≠ (encS [0xFF, 0xFF]).n.toNat ∧
      { encS [0xFF, 0xFF] with runCnt := 61 }.runCnt.toNat = 61 ∧ (encS [0xFF]).pxPtr.toNat + 1 = (encS [0xFF]).n.toNat ∧
      (encS [0xFF]).bsPtr.toNat + 1 ≤ (encS [0xFF]).cfg.bsCap ∧
      ¬({ encS [0xFF] with bsPtr := 64 }.bsPtr.toNat + 1 ≤ (encS [0xFF]).cfg.bsCap) := by
  unfold EncoderReads
  decide

/-- For CacheHitEmitsIndex and CacheMissEmitsFirstFittingChunk: a hit and a miss, with a run
pending and without, and with room for the bytes, with room for the pending run alone, and without room. -/
theorem witness_OtherPixels :
    EncoderReads (encS [0]) ⟨0, 0, 0, 0⟩ ∧ (⟨0, 0, 0, 0⟩ : Pixel) ≠ (encS [0]).prev ∧
      (encS [0]).cacheLookup (pixelHash ⟨0, 0, 0, 0⟩) = ⟨0, 0, 0, 0⟩ ∧ (encS [0]).runCnt = 0 ∧
      { encS [0, 0, 0] with pxPtr := 2, runCnt := 2 }.runCnt.toNat ≤ 61 ∧ (encS [0]).bsPtr.toNat + 2 ≤ (encS [0]).cfg.bsCap ∧
      EncoderReads (encS [0x01020304]) ⟨1, 2, 3, 4⟩ ∧ (⟨1, 2, 3, 4⟩ : Pixel) ≠ (encS [0x01020304]).prev ∧
      (encS [0x01020304]).cacheLookup (pixelHash ⟨1, 2, 3, 4⟩) ≠ ⟨1, 2, 3, 4⟩ ∧
      (encS [0x01020304]).bsPtr.toNat + 6 ≤ (encS [0x01020304]).cfg.bsCap ∧
      EncoderReads { encS [0, 0, 0] with pxPtr := 2, runCnt := 2, bsPtr := 63 } ⟨0, 0, 0, 0⟩ ∧
      ¬({ encS [0, 0, 0] with pxPtr := 2, runCnt := 2, bsPtr := 63 }.bsPtr.toNat + 2 ≤ (encS [0, 0, 0]).cfg.bsCap) ∧
      ¬({ encS [0x01020304] with bsPtr := 60 }.bsPtr.toNat + 5 ≤ (encS [0x01020304]).cfg.bsCap) := by
  unfold EncoderReads
  decide

theorem witness_EncoderStepErrorIsCapacity :
    ∃ c u, encPixelStep { encS [0x01020304] with bsPtr := 60 } = .error (.error c u) := ⟨_, _, rfl⟩

theorem witness_EncodeTail :
    tailS.pass = .enc ∧ tailS.pipelineTurn ∧ ¬tailS.pxPtr < tailS.n ∧ tailS.cfg.bsCap < 2 ^ 32 ∧
      tailS.bsPtr.toNat + 8 ≤ tailS.cfg.bsCap :=
  ⟨rfl, .inl rfl, by decide, by decide, by decide⟩

theorem witness_HeaderMetadata : ∃ t, encPixelStep (encS [0x01020304]) = .ok t := ⟨_, rfl⟩

/-- For RegisterWrites and HostMemoryAccess. -/
theorem witness_RegisterWrites :
    (decS []).busy = true ∧ idleS.busy = false ∧ (0 : RegNum).val = 0 ∧ (2 : Word).getLsbD 0 = false ∧
      8 ≤ (8 : RegNum).val ∧ 8 ≤ (63 : RegNum).val := by decide

theorem witness_HostMovesLeaveRunningPassAlone :
    { decS [0x73] with turns := [.host (.readReg 1)] }.busy = true ∧
      ∃ t, step { decS [0x73] with turns := [.host (.readReg 1)] } = .next t := ⟨rfl, _, rfl⟩

theorem witness_MemoryAccessWhileBusyRefused :
    (decS []).busy = true ∧ (HostOp.readPixel 0).touchesMemory = true ∧ (HostOp.writeStream 0 0).touchesMemory = true := by
  decide

theorem witness_StartForgetsEarlierPasses :
    idleS.busy = false ∧ { idleS with prev := ⟨1, 2, 3, 4⟩, runCnt := 5, pass := .done }.busy = false ∧
      HostValuesKept idleS { idleS with prev := ⟨1, 2, 3, 4⟩, runCnt := 5, pass := .done } ∧
      ∃ t₁ t₂, hostMove (.writeReg 0 1) idleS = .next t₁ ∧
        hostMove (.writeReg 0 1) { idleS with prev := ⟨1, 2, 3, 4⟩, runCnt := 5, pass := .done } = .next t₂ ∧ t₁.busy = true :=
  ⟨rfl, rfl, ⟨rfl, rfl, rfl, rfl, rfl⟩, _, _, rfl, rfl, rfl⟩

theorem witness_ErrorStaysUntilStartOrReset :
    ∃ t, step { idleS with pass := .err, errcode := 7 } = .next t := ⟨_, rfl⟩

/-! ### States with the invariant (for every statement that assumes it, NoFaultUnderInvariant among them) -/

theorem witness_blockInv_idle : BlockInv idleS where
  config := by decide
  pixelMem := by decide
  streamMem := by decide
  pixelCells := by decide
  streamCells := by decide
  pixelDraws := by decide
  streamDraws := by decide
  drawsPos := by decide
  runValues := by decide
  errorCode := nofun
  noErrorCode := fun _ => rfl
  outLen := fun _ => rfl
  cacheSlots := nofun
  encode := nofun
  decode := nofun

theorem witness_blockInv_enc : BlockInv (encS [0x0A141EFF]) where
  config := by decide
  pixelMem := by decide
  streamMem := by decide
  pixelCells := by decide
  streamCells := by decide
  pixelDraws := by decide
  streamDraws := by decide
  drawsPos := by decide
  runValues := by decide
  errorCode := nofun
  noErrorCode := fun _ => rfl
  outLen := fun _ => rfl
  cacheSlots := fun _ => by decide
  encode := fun _ => ⟨by decide, by decide, by decide, by decide, by decide, by decide, by decide, by rfl, by decide,
    by decide, by decide, by decide⟩
  decode := nofun

theorem witness_blockInv_tail : BlockInv tailS where
  config := by decide
  pixelMem := by decide
  streamMem := by decide
  pixelCells := by decide
  streamCells := by decide
  pixelDraws := by decide
  streamDraws := by decide
  drawsPos := by decide
  runValues := by decide
  errorCode := nofun
  noErrorCode := fun _ => rfl
  outLen := fun _ => rfl
  cacheSlots := fun _ => by decide
  encode := fun _ => ⟨by decide, by decide, by decide, by decide, by decide, by decide, by decide, by rfl, by decide,
    by decide, by decide, by decide⟩
  decode := nofun

theorem witness_blockInv_dec : BlockInv (decS [0x73]) where
  config := by decide
  pixelMem := by decide
  streamMem := by decide
  pixelCells := by decide
  streamCells := by decide
  pixelDraws := by decide
  streamDraws := by decide
  drawsPos := by decide
  runValues := by decide
  errorCode := nofun
  noErrorCode := fun _ => rfl
  outLen := fun _ => rfl
  cacheSlots := fun _ => by decide
  encode := nofun
  decode := fun _ => ⟨by decide, by decide, by decide, by decide, by decide, by decide, by decide, by decide, by rfl⟩

/-- With the invariant states above: a step of each, for StepKeepsInvariant, PassWritesOnlyItsOutput and
EncodedLengthBounds. -/
theorem witness_StepKeepsInvariant :
    (∃ t, step (encS [0x0A141EFF]) = .next t ∧ t.pass = .enc) ∧ (∃ t, step (decS [0x73]) = .next t ∧ t.pass = .dec) ∧
      ∃ t, step tailS = .next t ∧ t.pass = .done :=
  ⟨⟨_, rfl, rfl⟩, ⟨_, rfl, rfl⟩, _, rfl, rfl⟩

theorem witness_RefusalIsHostBreach :
    step { decS [] with turns := [.host (.readPixel 0)] } = .refused .hostMemoryAccessWhileBusy := by rfl

/-- One state for each way `STATE` changes. -/
theorem witness_PassStateTransitions :
    (∃ t, step { decS [] with turns := [.powerOn] } = .next t ∧ t.pass = .idle) ∧
      (∃ t, step { idleS with turns := [.host (.writeReg 0 1)] } = .next t ∧ t.pass = .enc) ∧
      (∃ t, step tailS = .next t ∧ t.pass = .done) ∧ (∃ t, step { decS [] with pxPtr := 4 } = .next t ∧ t.pass = .done) ∧
      ∃ t, step (decS []) = .next t ∧ t.pass = .err :=
  ⟨⟨_, rfl, rfl⟩, ⟨_, rfl, rfl⟩, ⟨_, rfl, rfl⟩, ⟨_, rfl, rfl⟩, _, rfl, rfl⟩

theorem witness_EveryPassEnds : (encS [0x0A141EFF]).busy = true ∧ (encS [0x0A141EFF]).turns = [] := ⟨rfl, rfl⟩

/-- An encode pass of one pixel that completes, from a state with the invariant (witness_blockInv_idle), and S8, its output
(with the header of that state), in a block that holds no pixel of it (witness_blockInv_other). -/
def otherS : State :=
  { streamS (hdr 1 1 4 0 ++ [0xFE, 0x0A, 0x14, 0x1E] ++ [0, 0, 0, 0, 0, 0, 0, 1]) with cfg := ⟨1, 26, idleS.cfg.magic⟩, px := Mem.empty }

theorem witness_blockInv_other : BlockInv otherS where
  config := by decide
  pixelMem := by decide
  streamMem := by decide
  pixelCells := by decide
  streamCells := by decide
  pixelDraws := by decide
  streamDraws := by decide
  drawsPos := by decide
  runValues := by decide
  errorCode := nofun
  noErrorCode := fun _ => rfl
  outLen := fun _ => rfl
  cacheSlots := nofun
  encode := nofun
  decode := nofun

theorem witness_DecodeRestoresEncodedImage :
    (∃ t, Host.Core.run Sys2Proof.core (2 + 1) { idleS with turns := [.host (.writeReg 0 1)] } = .next t ∧ t.pass = .done ∧
      t.outLen.toNat ≤ otherS.cfg.bsCap ∧ ∀ a < t.outLen.toNat, otherS.streamByte a = t.streamByte a) ∧
      idleS.busy = false ∧ otherS.busy = false ∧ otherS.cfg.magic = idleS.cfg.magic ∧
      idleS.width.toNat * idleS.height.toNat ≤ otherS.cfg.pxCap :=
  ⟨⟨_, rfl, rfl, by decide, by decide⟩, rfl, rfl, rfl, by decide⟩

theorem witness_OneStepEnabled :
    (encS [0]).pipelineTurn ∧ (encS [0]).pxPtr < (encS [0]).n ∧ ¬tailS.pxPtr < tailS.n ∧ idleS.busy = false :=
  ⟨.inl rfl, by decide, by decide, rfl⟩

end Sys2Proof.Tests
end

