-- ==== Sys2Proof/Proofs/StepKeepsInvariant.lean ====
section
/-! SUPPORT. Every step keeps the block invariant (O46). The invariant is cut into three parts, each kept for a reason
of its own: the memories (`MemoriesInv`), which every state a step ends in has, an error's included; the status registers
(`StatusInv`); and the running pass (`PassInv`), of which nothing is asked when no pass runs. -/

namespace Sys2Proof.Machine

/-! ### A bounded memory -/

section
variable {α : Type}

/-- What the invariant asks of one memory: the canonical form, cells inside the capacity, and no draw number in use that
is still to come. -/
structure MemBounded (m : Mem α) (cap draws : Nat) : Prop where
  canonical : m.wf
  cells : ∀ c ∈ m.cells, c.1 < cap
  layers : ∀ y ∈ m.layers, y.2 < draws

variable {m : Mem α} {cap draws : Nat}

theorem MemBounded.writeList (h : MemBounded m cap draws) {a : Nat} {vs : List α} (hroom : a + vs.length ≤ cap) :
    MemBounded (m.writeList a vs) cap draws where
  canonical := m.writeList_wf h.canonical a vs
  cells c hc := by
    rcases Mem.mem_writeList_cells hc with hc | ⟨-, hc⟩
    · exact h.cells c hc
    · omega
  layers := by simpa using h.layers

theorem MemBounded.write (h : MemBounded m cap draws) {a : Nat} (ha : a < cap) (v : α) :
    MemBounded (m.write a v) cap draws :=
  h.writeList (a := a) (vs := [v]) ha

theorem MemBounded.fill (h : MemBounded m cap draws) {a k : Nat} (hroom : a + k ≤ cap) (v : α) :
    MemBounded (m.fill a v k) cap draws := by
  rw [Mem.fill_eq_writeList]
  exact h.writeList (by simpa using hroom)

/-- A move that draws leaves a memory it does not draw bounded. -/
theorem MemBounded.succ_draws (h : MemBounded m cap draws) : MemBounded m cap (draws + 1) :=
  ⟨h.canonical, h.cells, fun y hy => Nat.lt_succ_of_lt (h.layers y hy)⟩

theorem MemBounded.drawBelow (h : MemBounded m cap draws) (size : Nat) :
    MemBounded (m.drawBelow size draws) cap (draws + 1) where
  canonical := m.drawBelow_wf h.canonical size draws
  cells c hc := h.cells c (Mem.mem_drawBelow_cells hc)
  layers y hy := by
    rcases Mem.mem_drawBelow_layers hy with rfl | hy
    · exact Nat.lt_succ_self _
    · exact h.succ_draws.layers y hy

end

/-! ### The three parts of the invariant -/

/-- The part about the parameters and the memories. It speaks of `cfg`, `px`, `bs` and `draws` alone, so an update of
other fields keeps it by unfolding. -/
def MemoriesInv (s : State) : Prop :=
  s.cfg.wf ∧ MemBounded s.px s.cfg.pxCap s.draws ∧ MemBounded s.bs s.cfg.bsCap s.draws ∧ 1 ≤ s.draws

/-- The part about `RUN_CNT`, `ERRCODE` and `OUT_LEN`. -/
structure StatusInv (s : State) : Prop where
  runValues : s.runCnt.toNat ≤ 62
  errorCode : s.pass = .err → ∃ c : QoiError, s.errcode = c.code
  noErrorCode : s.pass ≠ .err → s.errcode = 0
  outLen : s.pass ≠ .done → s.outLen = 0

/-- A slot holds (0,0,0,0) or a pixel whose hash is the slot. -/
def CacheInv (c : Vector Pixel 64) : Prop := ∀ k : Slot, c.get k = initSlot ∨ pixelHash (c.get k) = k

/-- The part about the running pass. -/
structure PassInv (s : State) : Prop where
  cacheSlots : s.busy = true → CacheInv s.cache
  encode : s.pass = .enc → EncInv s
  decode : s.pass = .dec → DecInv s

theorem blockInv_iff {s : State} : BlockInv s ↔ MemoriesInv s ∧ StatusInv s ∧ PassInv s := by
  constructor
  · intro h
    exact ⟨⟨h.config, ⟨h.pixelMem, h.pixelCells, h.pixelDraws⟩, ⟨h.streamMem, h.streamCells, h.streamDraws⟩, h.drawsPos⟩,
      ⟨h.runValues, h.errorCode, h.noErrorCode, h.outLen⟩, ⟨h.cacheSlots, h.encode, h.decode⟩⟩
  · rintro ⟨⟨hcfg, hpx, hbs, hdraws⟩, hstatus, hpass⟩
    exact ⟨hcfg, hpx.canonical, hbs.canonical, hpx.cells, hbs.cells, hpx.layers, hbs.layers, hdraws,
      hstatus.runValues, hstatus.errorCode, hstatus.noErrorCode, hstatus.outLen,
      hpass.cacheSlots, hpass.encode, hpass.decode⟩

theorem BlockInv.memories {s : State} (h : BlockInv s) : MemoriesInv s := (blockInv_iff.1 h).1

theorem BlockInv.status {s : State} (h : BlockInv s) : StatusInv s := (blockInv_iff.1 h).2.1

theorem busy_of_enc {s : State} (h : s.pass = .enc) : s.busy = true := by simp [State.busy, h]

theorem busy_of_dec {s : State} (h : s.pass = .dec) : s.busy = true := by simp [State.busy, h]

theorem passInv_of_not_busy {s : State} (h : s.busy = false) : PassInv s where
  cacheSlots hb := by simp [h] at hb
  encode hp := by simp [busy_of_enc hp] at h
  decode hp := by simp [busy_of_dec hp] at h

/-- An update of a state in which no pass runs needs the first two parts only. -/
theorem blockInv_of_not_busy {s : State} (hb : s.busy = false) (hm : MemoriesInv s) (hs : StatusInv s) : BlockInv s :=
  blockInv_iff.2 ⟨hm, hs, passInv_of_not_busy hb⟩

theorem blockInv_of_enc {s : State} (hp : s.pass = .enc) (hm : MemoriesInv s) (hs : StatusInv s)
    (hc : CacheInv s.cache) (h : EncInv s) : BlockInv s :=
  blockInv_iff.2 ⟨hm, hs, fun _ => hc, fun _ => h, fun hd => by simp [hp] at hd⟩

theorem blockInv_of_dec {s : State} (hp : s.pass = .dec) (hm : MemoriesInv s) (hs : StatusInv s)
    (hc : CacheInv s.cache) (h : DecInv s) : BlockInv s :=
  blockInv_iff.2 ⟨hm, hs, fun _ => hc, fun he => by simp [hp] at he, fun _ => h⟩

/-! ### The memories -/

theorem MemoriesInv.config {s : State} (h : MemoriesInv s) : s.cfg.wf := h.1

theorem MemoriesInv.pixels {s : State} (h : MemoriesInv s) : MemBounded s.px s.cfg.pxCap s.draws := h.2.1

theorem MemoriesInv.stream {s : State} (h : MemoriesInv s) : MemBounded s.bs s.cfg.bsCap s.draws := h.2.2.1

theorem MemoriesInv.drawsPos {s : State} (h : MemoriesInv s) : 1 ≤ s.draws := h.2.2.2

theorem memoriesInv_emitted {bytes : List Byte} {s : State} (h : MemoriesInv s)
    (hroom : s.bsPtr.toNat + bytes.length ≤ s.cfg.bsCap) : MemoriesInv (emitted bytes s) :=
  ⟨h.config, h.pixels, h.stream.writeList hroom, h.drawsPos⟩

theorem memoriesInv_committed {s : State} (h : MemoriesInv s) (hroom : s.pxPtr.toNat < s.cfg.pxCap) (p : Pixel)
    (len : Nat) : MemoriesInv (committed p len s) :=
  ⟨h.config, h.pixels.write hroom _, h.stream, h.drawsPos⟩

theorem memoriesInv_afterRun {k : Nat} {s : State} (h : MemoriesInv s) (hroom : s.pxPtr.toNat + k ≤ s.cfg.pxCap) :
    MemoriesInv (afterRun k s) :=
  ⟨h.config, h.pixels.fill hroom _, h.stream, h.drawsPos⟩

theorem memoriesInv_encLatch {s : State} (h : MemoriesInv s) : MemoriesInv (encLatch s) :=
  ⟨h.config, h.pixels.succ_draws, h.stream.succ_draws, Nat.succ_pos _⟩

theorem memoriesInv_decFinished {s : State} (h : MemoriesInv s) : MemoriesInv (decFinished s) :=
  ⟨h.config, h.pixels.succ_draws, h.stream.succ_draws, Nat.succ_pos _⟩

theorem memoriesInv_raiseError {s : State} (h : MemoriesInv s) (site : ErrorSite) (c : QoiError) :
    MemoriesInv (raiseError site c s) := by
  obtain ⟨hcfg, hpx, hbs, -⟩ := h
  cases site with
  | start => exact ⟨hcfg, hpx.succ_draws, hbs.succ_draws, Nat.succ_pos _⟩
  | encStep => exact ⟨hcfg, hpx.succ_draws, hbs.drawBelow _, Nat.succ_pos _⟩
  | decStep => exact ⟨hcfg, hpx.drawBelow _, hbs.succ_draws, Nat.succ_pos _⟩

theorem memoriesInv_powerOnReset {s : State} (h : MemoriesInv s) : MemoriesInv (powerOnReset s) :=
  ⟨h.config, h.pixels.drawBelow _, h.stream.drawBelow _, Nat.succ_pos _⟩

/-! ### What an attempt ends in -/

/-- The attempt ends in a state with the property, whether it reaches its last line or raises an error. -/
def Attempt.EndsIn (P : State → Prop) : Attempt → Prop
  | .ok s => P s
  | .error (.error _ s) => P s
  | .error (.fault _) => True

theorem Attempt.EndsIn.of_eq_ok {P : State → Prop} {x : Attempt} {t : State} (hx : Attempt.EndsIn P x) (h : x = .ok t) :
    P t := by
  subst h
  exact hx

theorem Attempt.endsIn_bind {P : State → Prop} {x : Attempt} {f : State → Attempt} (hx : Attempt.EndsIn P x)
    (hf : ∀ s, P s → Attempt.EndsIn P (f s)) : Attempt.EndsIn P (x >>= f) := by
  match x, hx with
  | .ok s, hx => exact hf s hx
  | .error (.error _ _), hx => exact hx
  | .error (.fault _), _ => trivial

theorem emit_endsIn_memoriesInv {s : State} (h : MemoriesInv s) (bytes : List Byte) :
    Attempt.EndsIn MemoriesInv (emit bytes s) := by
  unfold emit
  split
  · exact h
  · exact memoriesInv_emitted h (by omega)

theorem flushRun_endsIn_memoriesInv {s : State} (h : MemoriesInv s) : Attempt.EndsIn MemoriesInv (flushRun s) :=
  Attempt.endsIn_bind (emit_endsIn_memoriesInv h _) fun _ hu => hu

theorem encRunPixel_endsIn_memoriesInv {s : State} (h : MemoriesInv s) :
    Attempt.EndsIn MemoriesInv (encRunPixel s) := by
  unfold encRunPixel
  split
  · exact flushRun_endsIn_memoriesInv (s := countRun s) h
  · exact h

theorem encPendingFlush_endsIn_memoriesInv {s : State} (h : MemoriesInv s) :
    Attempt.EndsIn MemoriesInv (encPendingFlush s) := by
  unfold encPendingFlush
  split
  · exact h
  · exact flushRun_endsIn_memoriesInv h

theorem encOtherPixel_endsIn_memoriesInv {s : State} (h : MemoriesInv s) (p : Pixel) :
    Attempt.EndsIn MemoriesInv (encOtherPixel p s) := by
  unfold encOtherPixel
  split
  · exact emit_endsIn_memoriesInv h _
  · exact emit_endsIn_memoriesInv (s := s.cacheStore p) h _

theorem encClassify_endsIn_memoriesInv {s : State} (h : MemoriesInv s) (p : Pixel) :
    Attempt.EndsIn MemoriesInv (encClassify p s) := by
  unfold encClassify
  split
  · exact encRunPixel_endsIn_memoriesInv h
  · exact Attempt.endsIn_bind (encPendingFlush_endsIn_memoriesInv h) fun _ hu => encOtherPixel_endsIn_memoriesInv hu p

theorem encPixelStep_endsIn_memoriesInv {s : State} (h : MemoriesInv s) :
    Attempt.EndsIn MemoriesInv (encPixelStep s) := by
  unfold encPixelStep
  split
  · exact Attempt.endsIn_bind (encClassify_endsIn_memoriesInv h _) fun _ hu => hu
  · trivial

theorem encTail_endsIn_memoriesInv {s : State} (h : MemoriesInv s) : Attempt.EndsIn MemoriesInv (encTail s) :=
  Attempt.endsIn_bind (emit_endsIn_memoriesInv h _) fun _ hu => hu

theorem encStart_endsIn_memoriesInv {s : State} (h : MemoriesInv s) : Attempt.EndsIn MemoriesInv (encStart s) := by
  have hl := memoriesInv_encLatch h
  unfold encStart
  split
  · exact hl
  · have hr : MemoriesInv (rewindStream (latchCount (encLatch s))) := hl
    exact Attempt.endsIn_bind (emit_endsIn_memoriesInv hr _) fun _ hu => hu

theorem decStart_endsIn_memoriesInv {s : State} (h : MemoriesInv s) : Attempt.EndsIn MemoriesInv (decStart s) := by
  unfold decStart decStartLength decStartHeader
  repeat' split
  all_goals exact h

theorem decFinish_endsIn_memoriesInv {s : State} (h : MemoriesInv s) : Attempt.EndsIn MemoriesInv (decFinish s) := by
  unfold decFinish
  split
  · exact h
  · exact memoriesInv_decFinished h

/-! ### Errors -/

theorem drawnRunCnt_le (draw : Nat) : (BitVec.ofNat 6 (Config.freeRunCnt draw).val).toNat ≤ 62 := by
  have := (Config.freeRunCnt draw).isLt
  rw [BitVec.toNat_ofNat]
  omega

/-- An error leaves a state with the invariant, wherever in its step it was raised. -/
theorem blockInv_raiseError {s : State} (h : MemoriesInv s) (site : ErrorSite) (c : QoiError) :
    BlockInv (raiseError site c s) :=
  blockInv_of_not_busy rfl (memoriesInv_raiseError h site c)
    ⟨drawnRunCnt_le _, fun _ => ⟨c, rfl⟩, fun hp => absurd rfl hp, fun _ => rfl⟩

/-- A step that may raise an error keeps the invariant when its last state has it. -/
theorem blockInv_of_settle {site : ErrorSite} {x : Attempt} {t : State} (hx : Attempt.EndsIn MemoriesInv x)
    (hok : x = .ok t → BlockInv t) (h : settle site x = .next t) : BlockInv t := by
  obtain h | ⟨c, u, rfl, rfl⟩ := settle_eq_next_iff.1 h
  · exact hok h
  · exact blockInv_raiseError hx site c

/-! ### The cache -/

theorem cacheInv_clearedCache : CacheInv clearedCache := fun k => .inl (clearedCache_get k)

theorem CacheInv.cacheStore {s : State} (h : CacheInv s.cache) (p : Pixel) : CacheInv (s.cacheStore p).cache := by
  intro k
  change (s.cacheStore p).cacheLookup k = initSlot ∨ pixelHash ((s.cacheStore p).cacheLookup k) = k
  rw [cacheLookup_cacheStore]
  split
  · next hk => exact .inr hk.symm
  · exact h k

/-! ### Reads that do not depend on what changed -/

theorem streamBytes_congr_of_bs {s t : State} (h : t.bs = s.bs) (a n : Nat) : t.streamBytes a n = s.streamBytes a n :=
  State.streamBytes_congr fun _ _ => by simp [State.streamByte, h]

theorem headerError_congr {s t : State} (h : LatchesKept s t) : headerError t = headerError s := by
  obtain ⟨-, -, -, hw, hh, hc, hs, hcfg⟩ := h
  simp only [headerError, hw, hh, hc, hs, hcfg]

theorem headerBytes_congr {s t : State} (h : LatchesKept s t) : headerBytes t = headerBytes s := by
  obtain ⟨-, -, -, hw, hh, hc, hs, hcfg⟩ := h
  simp only [headerBytes, hw, hh, hc, hs, hcfg]

theorem State.getElem_streamBytes (s : State) (a n j : Nat) (hj : j < (s.streamBytes a n).length) :
    (s.streamBytes a n)[j] = s.streamByte (a + j) := by
  induction n generalizing a j with
  | zero => simp at hj
  | succ n ih =>
    cases j with
    | zero => rfl
    | succ j =>
      simp only [State.streamBytes, List.getElem_cons_succ, ih]
      congr 1
      omega

/-- The emitted bytes stand where they were emitted. -/
theorem streamBytes_emitted (bytes : List Byte) (s : State) :
    (emitted bytes s).streamBytes s.bsPtr.toNat bytes.length = bytes :=
  List.ext_getElem (by simp) fun j _ hj => by rw [State.getElem_streamBytes, streamByte_emitted_inside _ _ _ hj]

/-! ### The model's own lists -/

theorem EncInv.with_queues {s : State} (h : EncInv s) (ts : List Turn) (as : List HostAnswer) :
    EncInv { s with turns := ts, answers := as } :=
  { h with headerWritten := h.headerWritten }

theorem DecInv.with_queues {s : State} (h : DecInv s) (ts : List Turn) (as : List HostAnswer) :
    DecInv { s with turns := ts, answers := as } :=
  { h with marker := h.marker }

/-- The invariant does not speak of the pending moves and the answers. -/
theorem BlockInv.with_queues {s : State} (h : BlockInv s) (ts : List Turn) (as : List HostAnswer) :
    BlockInv { s with turns := ts, answers := as } :=
  { h with
    encode := fun hp => (h.encode hp).with_queues ts as
    decode := fun hp => (h.decode hp).with_queues ts as }

/-! ### The encoder's pixel step -/

/-- Stated of one state; an update of other fields keeps the registers by unfolding. -/
theorem RegistersKept.refl (s : State) : RegistersKept s s := ⟨rfl, rfl, rfl, rfl, rfl, rfl, rfl, rfl, rfl⟩

theorem RegistersKept.trans {s t u : State} (h₁ : RegistersKept s t) (h₂ : RegistersKept t u) : RegistersKept s u := by
  simp_all [RegistersKept]

/-- Stated of one state; an update of other fields keeps the latches by unfolding. -/
theorem LatchesKept.refl (s : State) : LatchesKept s s := ⟨rfl, rfl, rfl, rfl, rfl, rfl, rfl, rfl⟩

theorem LatchesKept.trans {s t u : State} (h₁ : LatchesKept s t) (h₂ : LatchesKept t u) : LatchesKept s u := by
  simp_all [LatchesKept]

/-- `u` is `s` after the encoder appended `k` bytes to its stream: what it may change besides is `RUN_CNT` and the
cache. -/
structure StreamGrown (s u : State) (k : Nat) : Prop where
  registers : RegistersKept s u
  latches : LatchesKept s u
  pixels : u.px = s.px
  pixelCursor : u.pxPtr = s.pxPtr
  streamCursor : u.bsPtr.toNat = s.bsPtr.toNat + k
  earlierBytes : ∀ a < s.bsPtr.toNat, u.streamByte a = s.streamByte a

theorem streamGrown_countRun (s : State) : StreamGrown s (countRun s) 0 :=
  ⟨RegistersKept.refl s, LatchesKept.refl s, rfl, rfl, rfl, fun _ _ => rfl⟩

theorem streamGrown_cacheStore (s : State) (p : Pixel) : StreamGrown s (s.cacheStore p) 0 :=
  ⟨RegistersKept.refl s, LatchesKept.refl s, rfl, rfl, rfl, fun _ _ => rfl⟩

theorem streamGrown_emitted {bytes : List Byte} {s : State} (hfit : s.bsPtr.toNat + bytes.length < 2 ^ 32) :
    StreamGrown s (emitted bytes s) bytes.length where
  registers := RegistersKept.refl s
  latches := LatchesKept.refl s
  pixels := rfl
  pixelCursor := rfl
  streamCursor := by
    rw [emitted_bsPtr, BitVec.toNat_add, BitVec.toNat_ofNat]
    omega
  earlierBytes a ha := streamByte_emitted_of_lt bytes s a ha

theorem streamGrown_afterFlush {s : State} (hfit : s.bsPtr.toNat + 1 < 2 ^ 32) : StreamGrown s (afterFlush s) 1 :=
  { streamGrown_emitted (bytes := runBytes s) hfit with
    earlierBytes := (streamGrown_emitted (bytes := runBytes s) hfit).earlierBytes }

theorem StreamGrown.trans {s u v : State} {j k : Nat} (h₁ : StreamGrown s u j) (h₂ : StreamGrown u v k) :
    StreamGrown s v (j + k) where
  registers := h₁.registers.trans h₂.registers
  latches := h₁.latches.trans h₂.latches
  pixels := h₂.pixels.trans h₁.pixels
  pixelCursor := h₂.pixelCursor.trans h₁.pixelCursor
  streamCursor := by rw [h₂.streamCursor, h₁.streamCursor, Nat.add_assoc]
  earlierBytes a ha := by
    have := h₁.streamCursor
    rw [h₂.earlierBytes a (by omega), h₁.earlierBytes a ha]

/-- Branches 2 to 6 of rule R154, after the flush, append one chunk. -/
theorem encOtherPixel_outcome {p : Pixel} {v u : State} (hcap : v.cfg.bsCap < 2 ^ 32) (h : encOtherPixel p v = .ok u) :
    ∃ k, 1 ≤ k ∧ k ≤ 5 ∧ StreamGrown v u k ∧ u.bsPtr.toNat ≤ v.cfg.bsCap ∧ u.runCnt = v.runCnt ∧
      (CacheInv v.cache → CacheInv u.cache) := by
  rw [encOtherPixel_eq_ok_iff] at h
  split at h
  · obtain ⟨hroom, rfl⟩ := h
    have hg := streamGrown_emitted (bytes := encode (.index (pixelHash p))) (s := v) (by simp; omega)
    exact ⟨1, by omega, by omega, hg, hg.streamCursor ▸ hroom, rfl, id⟩
  · obtain ⟨hroom, rfl⟩ := h
    have hg := streamGrown_emitted (bytes := encode (encMissChunk p v.prev)) (s := v.cacheStore p) (by simp; omega)
    exact ⟨_, encode_length_pos _, encode_length_le_five _, by simpa using (streamGrown_cacheStore v p).trans hg,
      hg.streamCursor ▸ hroom, rfl, fun hc => hc.cacheStore p⟩

/-- A pixel step either counts a run pixel and emits nothing, or leaves no run pending and emits at least a byte, at most
5 besides the one owed to a run pending before (rules R154 to R164). -/
theorem encPixel_outcome {p : Pixel} {s t : State} (hcap : s.cfg.bsCap < 2 ^ 32) (h : encPixel p s = .ok t) :
    ∃ u, t = encAdvance p u ∧ (CacheInv s.cache → CacheInv u.cache) ∧
      ((p = s.prev ∧ u = countRun s ∧ ¬runEnds (countRun s)) ∨
        u.runCnt = 0 ∧ u.bsPtr.toNat ≤ s.cfg.bsCap ∧
          ∃ k, 1 ≤ k ∧ k ≤ 5 + min s.runCnt.toNat 1 ∧ StreamGrown s u k) := by
  obtain ⟨u, rfl, hu⟩ := encPixel_eq_ok_iff.1 h
  refine ⟨u, rfl, ?_⟩
  split at hu
  · next hp =>
    rw [encRunPixel_eq_ok_iff] at hu
    split at hu
    · obtain ⟨hroom, rfl⟩ := hu
      have hg := streamGrown_afterFlush (s := countRun s) (by simp at hroom ⊢; omega)
      exact ⟨id, .inr ⟨rfl, hg.streamCursor ▸ hroom, 1, by omega, by omega,
        by simpa using (streamGrown_countRun s).trans hg⟩⟩
    · next hr =>
      subst hu
      exact ⟨id, .inl ⟨hp, rfl, hr⟩⟩
  · obtain ⟨v, hv, hu⟩ := hu
    rw [encPendingFlush_eq_ok_iff] at hv
    split at hv
    · next hr =>
      subst hv
      obtain ⟨k, hk1, hk5, hg, hroom, hrun, hc⟩ := encOtherPixel_outcome hcap hu
      exact ⟨hc, .inr ⟨hrun.trans hr, hroom, k, hk1, by omega, hg⟩⟩
    · next hr =>
      obtain ⟨hroom', rfl⟩ := hv
      obtain ⟨k, hk1, hk5, hg, hroom, hrun, hc⟩ := encOtherPixel_outcome (v := afterFlush s) hcap hu
      have hpending : s.runCnt.toNat ≠ 0 := fun e => hr (BitVec.eq_of_toNat_eq e)
      exact ⟨hc, .inr ⟨hrun, hroom, 1 + k, by omega, by omega, (streamGrown_afterFlush (by omega)).trans hg⟩⟩

theorem StreamGrown.streamBytes_header {s u : State} {k : Nat} (h : StreamGrown s u k) (hlow : 14 ≤ s.bsPtr.toNat) :
    u.streamBytes 0 14 = s.streamBytes 0 14 :=
  State.streamBytes_congr fun j hj => h.earlierBytes _ (by omega)

/-- The advance past a pixel keeps the invariant of the pass when the counters and the pending run of the state it is made
from fit the next pixel index. -/
theorem EncInv.advance {p : Pixel} {s u : State} {k : Nat} (h : EncInv s) (hlt : s.pxPtr.toNat < s.n.toNat)
    (hg : StreamGrown s u k) (hroom : u.bsPtr.toNat ≤ s.cfg.bsCap) (hbound : u.runCnt.toNat ≤ 61)
    (hinside : u.runCnt.toNat ≤ s.pxPtr.toNat + 1)
    (hpixels : ∀ j < s.pxPtr.toNat + 1, s.pxPtr.toNat + 1 ≤ j + u.runCnt.toNat → s.pixelAt j = p)
    (hend : s.pxPtr.toNat + 1 = s.n.toNat → u.runCnt = 0)
    (hupper : u.bsPtr.toNat + min u.runCnt.toNat 1 ≤ 14 + 5 * (s.pxPtr.toNat + 1))
    (hlower : s.pxPtr.toNat + 1 ≤ 62 * (u.bsPtr.toNat - 14) + u.runCnt.toNat) :
    EncInv (encAdvance p u) := by
  have hlatches : LatchesKept s (encAdvance p u) := hg.latches
  obtain ⟨hn, -, -, hw, hh, -, -, hcfg⟩ := hg.latches
  have hcursor : (encAdvance p u).pxPtr.toNat = s.pxPtr.toNat + 1 := by
    rw [encAdvance_pxPtr, hg.pixelCursor, BitVec.toNat_add_of_lt (by simp; omega)]
    rfl
  have hstream := hg.streamCursor
  have hlow := h.streamLow
  constructor
  case header => rw [headerError_congr hlatches, h.header]
  case pixels => simpa [hn, hw, hh] using h.pixels
  case cursor => rw [hcursor, encAdvance_n, hn]; exact hlt
  case runBound => exact hbound
  case runInside => rwa [hcursor]
  case runPixels =>
    intro j hj hjrun
    rw [hcursor] at hj hjrun
    simpa [State.pixelAt, State.pixelWord, hg.pixels] using hpixels j hj hjrun
  case runEnd =>
    intro he
    exact hend (by simpa only [hcursor, encAdvance_n, hn] using congrArg BitVec.toNat he)
  case headerWritten =>
    rw [headerBytes_congr hlatches, ← h.headerWritten, ← hg.streamBytes_header hlow]
    exact streamBytes_congr_of_bs rfl _ _
  case streamLow => rw [encAdvance_bsPtr]; omega
  case streamHigh => rwa [encAdvance_cfg, hcfg]
  case upper => rwa [hcursor]
  case lower => rwa [hcursor]

/-- A counted run pixel: the run is one longer, and the pixel read equals `PREV` (rule R155). -/
theorem EncInv.advance_counted {s : State} (h : EncInv s) (hlt : s.pxPtr.toNat < s.n.toNat)
    (hp : s.pixelAt s.pxPtr.toNat = s.prev) (hends : ¬runEnds (countRun s)) :
    EncInv (encAdvance s.prev (countRun s)) := by
  obtain ⟨hfull, hlast⟩ := not_or.1 (runEnds_iff.not.1 hends)
  have hbound := h.runBound
  have hinside := h.runInside
  have hupper := h.upper
  have hlower := h.lower
  have hrun : (countRun s).runCnt.toNat = s.runCnt.toNat + 1 := by
    rw [countRun_runCnt, BitVec.toNat_add_of_lt (by simp; omega)]
    rfl
  have hfull : (countRun s).runCnt.toNat ≠ 62 := fun e => hfull (BitVec.eq_of_toNat_eq e)
  have hbs : (countRun s).bsPtr = s.bsPtr := rfl
  refine h.advance hlt (streamGrown_countRun s) h.streamHigh (by omega) (by omega) (fun j hj hjrun => ?_)
    (fun e => absurd e hlast) (by rw [hbs]; omega) (by rw [hbs]; omega)
  obtain hj | rfl : j < s.pxPtr.toNat ∨ j = s.pxPtr.toNat := by omega
  · exact h.runPixels j hj (by omega)
  · exact hp

/-- A pixel after which no run is pending (rules R156 to R164). -/
theorem EncInv.advance_of_no_run {p : Pixel} {s u : State} {k : Nat} (h : EncInv s) (hlt : s.pxPtr.toNat < s.n.toNat)
    (hg : StreamGrown s u k) (hroom : u.bsPtr.toNat ≤ s.cfg.bsCap) (hrun : u.runCnt = 0) (hk : 1 ≤ k)
    (hk' : k ≤ 5 + min s.runCnt.toNat 1) : EncInv (encAdvance p u) := by
  have hbound := h.runBound
  have hlow := h.streamLow
  have hupper := h.upper
  have hlower := h.lower
  have hrun0 : u.runCnt.toNat = 0 := by rw [hrun]; rfl
  have hstream := hg.streamCursor
  exact h.advance hlt hg hroom (by omega) (by omega) (fun j hj hjrun => by omega) (fun _ => hrun) (by omega) (by omega)

theorem StatusInv.of_registersKept {s t : State} (h : StatusInv s) (hr : RegistersKept s t)
    (hrun : t.runCnt.toNat ≤ 62) : StatusInv t := by
  obtain ⟨hpass, -, herr, -, -, -, -, -, hout⟩ := hr
  refine ⟨hrun, ?_, ?_, ?_⟩
  · rw [hpass, herr]; exact h.errorCode
  · rw [hpass, herr]; exact h.noErrorCode
  · rw [hpass, hout]; exact h.outLen

theorem blockInv_of_encPixelStep {s t : State} (h : BlockInv s) (hpass : s.pass = .enc) (hlt : s.pxPtr < s.n)
    (ht : encPixelStep s = .ok t) : BlockInv t := by
  have hi := h.encode hpass
  obtain ⟨-, -, -, hcap⟩ := h.config
  have hm : MemoriesInv t := (encPixelStep_endsIn_memoriesInv h.memories).of_eq_ok ht
  obtain ⟨u, rfl, hc, hcase⟩ := encPixel_outcome hcap (encPixelStep_eq_ok_iff.1 ht).2
  have hc := hc (h.cacheSlots (busy_of_enc hpass))
  obtain ⟨hi', hr⟩ : EncInv (encAdvance (s.pixelAt s.pxPtr.toNat) u) ∧ RegistersKept s u := by
    obtain ⟨hp, rfl, hends⟩ | ⟨hrun, hroom, k, hk, hk', hg⟩ := hcase
    · exact ⟨hp ▸ hi.advance_counted hlt hp hends, (streamGrown_countRun s).registers⟩
    · exact ⟨hi.advance_of_no_run hlt hg hroom hrun hk hk', hg.registers⟩
  exact blockInv_of_enc (hr.1.trans hpass) hm
    (h.status.of_registersKept hr (hi'.runBound.trans (by omega))) hc hi'

theorem blockInv_of_encTail {s t : State} (h : BlockInv s) (hpass : s.pass = .enc) (ht : encTail s = .ok t) :
    BlockInv t := by
  have hm : MemoriesInv t := (encTail_endsIn_memoriesInv h.memories).of_eq_ok ht
  obtain ⟨-, rfl⟩ := encTail_eq_ok_iff.1 ht
  exact blockInv_of_not_busy rfl hm
    ⟨h.runValues, nofun, fun _ => h.noErrorCode (by simp [hpass]), fun hd => absurd rfl hd⟩

/-! ### The decoder's steps -/

/-- What decodes from a list is as long as its lead byte says (rule R105). -/
theorem encode_length_of_decode {b : Byte} {tail rest : List Byte} {i : Instr}
    (h : decode (b :: tail) = .ok (i, rest)) : (encode i).length = chunkLen b := by
  rw [chunkLen_eq]
  cases hc : classify b <;> simp only [decode, hc] at h
  case rgb | rgba | luma =>
    split at h
    · cases h; rfl
    · contradiction
  case run | diff | index => cases h; rfl

theorem encode_length_of_fetchChunk {s : State} {i : Instr} (h : fetchChunk s = .ok i) :
    s.bsPtr.toNat + (encode i).length ≤ s.e.toNat := by
  obtain ⟨hfit, -, rest, hdec⟩ := fetchChunk_eq_ok_iff.1 h
  obtain ⟨m, hm⟩ := Nat.exists_eq_add_of_le' (chunkLen_pos (s.streamByte s.bsPtr.toNat))
  rw [chunkLenAt] at hfit hdec
  rw [hm, State.streamBytes] at hdec
  rwa [encode_length_of_decode hdec]

/-- What a chunk can do when the decoder executes it (rules R206 to R213). -/
theorem exec_eq_next_cases {i : Instr} {s t : State} (h : exec i s = .next t) :
    (s.pxPtr.toNat < s.cfg.pxCap ∧ ∃ p, t = committed p (encode i).length s) ∨
      t = raiseError .decStep .overrun s ∨
      ∃ k, i = .run k ∧ s.pxPtr.toNat + k ≤ s.n.toNat ∧ s.pxPtr.toNat + k ≤ s.cfg.pxCap ∧ t = afterRun k s := by
  cases i with
  | run k =>
    obtain ⟨-, ht⟩ | ht := execRun_eq_next_iff.1 h
    · exact .inr (.inl ht)
    · exact .inr (.inr ⟨k, rfl, ht⟩)
  | rgb r g b => exact .inl ((settle_commit_eq_next_iff.1 h).imp_right fun ht => ⟨_, ht⟩)
  | rgba r g b a => exact .inl ((settle_commit_eq_next_iff.1 h).imp_right fun ht => ⟨_, ht⟩)
  | luma dg drdg dbdg => exact .inl ((settle_commit_eq_next_iff.1 h).imp_right fun ht => ⟨_, ht⟩)
  | diff dr dg db => exact .inl ((settle_commit_eq_next_iff.1 h).imp_right fun ht => ⟨_, ht⟩)
  | index k => exact .inl ((settle_commit_eq_next_iff.1 h).imp_right fun ht => ⟨_, ht⟩)

/-- A move of the two cursors, inside the pixels and inside the chunk region, keeps the invariant of the pass. -/
theorem DecInv.advance {s t : State} (h : DecInv s) (hl : LatchesKept s t) (hbs : t.bs = s.bs)
    (hcursor : t.pxPtr.toNat ≤ s.n.toNat) (hlow : s.bsPtr.toNat ≤ t.bsPtr.toNat) (hhigh : t.bsPtr.toNat ≤ s.e.toNat) :
    DecInv t := by
  have hheader := headerError_congr hl
  obtain ⟨hn, hlen, he, hw, hh, -, -, hcfg⟩ := hl
  constructor
  case header => rw [hheader, h.header]
  case pixels => rw [hn, hw, hh, h.pixels]
  case cursor => rwa [hn]
  case lengthLow => rw [hlen]; exact h.lengthLow
  case lengthHigh => rw [hlen, hcfg]; exact h.lengthHigh
  case regionEnd => rw [he, hlen]; exact h.regionEnd
  case streamLow => exact h.streamLow.trans hlow
  case streamHigh => rwa [he]
  case marker => rw [he, streamBytes_congr_of_bs hbs]; exact h.marker

theorem blockInv_of_exec {i : Instr} {s t : State} (h : BlockInv s) (hpass : s.pass = .dec) (hlt : s.pxPtr < s.n)
    (hfit : s.bsPtr.toNat + (encode i).length ≤ s.e.toNat) (ht : exec i s = .next t) : BlockInv t := by
  have hi := h.decode hpass
  have hc : CacheInv s.cache := h.cacheSlots (busy_of_dec hpass)
  have hlt : s.pxPtr.toNat < s.n.toNat := hlt
  obtain ⟨hroom, p, rfl⟩ | rfl | ⟨k, rfl, hk, hroom, rfl⟩ := exec_eq_next_cases ht
  · have hpx : (committed p (encode i).length s).pxPtr.toNat = s.pxPtr.toNat + 1 := by
      rw [committed_pxPtr, BitVec.toNat_add_of_lt (by simp; omega)]
      rfl
    have hbs : (committed p (encode i).length s).bsPtr.toNat = s.bsPtr.toNat + (encode i).length := by
      rw [committed_bsPtr, BitVec.toNat_add, BitVec.toNat_ofNat]
      omega
    exact blockInv_of_dec hpass (memoriesInv_committed h.memories hroom p _)
      (h.status.of_registersKept (RegistersKept.refl s) h.runValues) (hc.cacheStore p)
      (hi.advance (LatchesKept.refl s) rfl (by omega) (by omega) (by omega))
  · exact blockInv_raiseError h.memories _ _
  · rw [encode_run_length] at hfit
    have hpx : (afterRun k s).pxPtr.toNat = s.pxPtr.toNat + k := by
      rw [afterRun_pxPtr, BitVec.toNat_add, BitVec.toNat_ofNat]
      omega
    have hbs : (afterRun k s).bsPtr.toNat = s.bsPtr.toNat + 1 := by
      rw [afterRun_bsPtr, BitVec.toNat_add_of_lt (by simp; omega)]
      rfl
    exact blockInv_of_dec hpass (memoriesInv_afterRun h.memories hroom)
      (h.status.of_registersKept (RegistersKept.refl s) h.runValues) (hc.cacheStore s.prev)
      (hi.advance (LatchesKept.refl s) rfl (by omega) (by omega) (by omega))

theorem blockInv_of_decChunkStep {s t : State} (h : BlockInv s) (hpass : s.pass = .dec) (hlt : s.pxPtr < s.n)
    (ht : decChunkStep s = .next t) : BlockInv t := by
  obtain ⟨i, hi, ht⟩ | ⟨c, u, hu, rfl⟩ := decChunkStep_eq_next_iff.1 ht
  · exact blockInv_of_exec h hpass hlt (encode_length_of_fetchChunk hi) ht
  · obtain ⟨-, rfl⟩ := fetchChunk_eq_error hu
    exact blockInv_raiseError h.memories _ _

theorem blockInv_of_decFinish {s t : State} (h : BlockInv s) (hpass : s.pass = .dec) (ht : decFinish s = .ok t) :
    BlockInv t := by
  obtain ⟨-, rfl⟩ := decFinish_eq_ok_iff.1 ht
  exact blockInv_of_not_busy rfl (memoriesInv_decFinished h.memories)
    ⟨drawnRunCnt_le _, nofun, fun _ => h.noErrorCode (by simp [hpass]), fun hd => absurd rfl hd⟩

theorem blockInv_of_pipelineMove {s t : State} (h : BlockInv s) (ht : pipelineMove s = .next t) : BlockInv t := by
  have hm := h.memories
  obtain ⟨hp, hlt, ht⟩ | ⟨hp, -, ht⟩ | ⟨hp, hlt, ht⟩ | ⟨hp, -, ht⟩ | ⟨-, rfl⟩ := pipelineMove_eq_next_cases ht
  · exact blockInv_of_settle (encPixelStep_endsIn_memoriesInv hm) (blockInv_of_encPixelStep h hp hlt) ht
  · exact blockInv_of_settle (encTail_endsIn_memoriesInv hm) (blockInv_of_encTail h hp) ht
  · exact blockInv_of_decChunkStep h hp hlt ht
  · exact blockInv_of_settle (decFinish_endsIn_memoriesInv hm) (blockInv_of_decFinish h hp) ht
  · exact h

/-! ### The starts -/

/-- The exact product of a header that passed its checks fits the register `N` (rule R26). -/
theorem latchCount_n_toNat {s : State} (hcfg : s.cfg.wf) (h : headerError s = none) :
    (latchCount s).n.toNat = s.hdrW.toNat * s.hdrH.toNat := by
  obtain ⟨-, -, -, -, hproduct⟩ := headerError_eq_none_iff.1 h
  obtain ⟨-, hcap, -, -⟩ := hcfg
  rw [latchCount_n, BitVec.toNat_ofNat, Nat.mod_eq_of_lt (by omega)]

theorem encInv_encStarted {s : State} (hcfg : s.cfg.wf) (hpx : s.pxPtr = 0) (hrun : s.runCnt = 0)
    (hheader : headerError (encLatch s) = none) : EncInv (encStarted s) := by
  have hpx : (encStarted s).pxPtr.toNat = 0 := by simp [encStarted, hpx]
  have hrun' : (encStarted s).runCnt.toNat = 0 := by simp [encStarted, hrun]
  have hbs : (encStarted s).bsPtr.toNat = 14 := rfl
  obtain ⟨-, -, hcap, -⟩ := id hcfg
  constructor
  case header => exact hheader
  case pixels => exact latchCount_n_toNat (s := encLatch s) hcfg hheader
  case runEnd => exact fun _ => hrun
  case headerWritten =>
    exact streamBytes_emitted (headerBytes (encLatch s)) (rewindStream (latchCount (encLatch s)))
  case streamHigh =>
    change 14 ≤ s.cfg.bsCap
    omega
  all_goals omega

theorem decInv_decStarted {s : State} (hcfg : s.cfg.wf) (hpx : s.pxPtr = 0) (hlow : 22 ≤ s.inLen.toNat)
    (hhigh : s.inLen.toNat ≤ s.cfg.bsCap) (hheader : headerError (decLatch s) = none)
    (hmarker : s.streamBytes (s.inLen.toNat - 8) 8 = endMarker) : DecInv (decStarted s) := by
  have hpx : (decStarted s).pxPtr.toNat = 0 := by simp [decStarted, hpx]
  have he : (decStarted s).e.toNat = s.inLen.toNat - 8 := by
    change (s.inLen - 8).toNat = _
    rw [BitVec.toNat_sub_of_le (by simp [BitVec.le_def]; omega)]
    rfl
  have hbs : (decStarted s).bsPtr.toNat = 14 := rfl
  have hl : (decStarted s).l.toNat = s.inLen.toNat := rfl
  constructor
  case header => exact hheader
  case pixels => exact latchCount_n_toNat (s := decLatch s) hcfg hheader
  case lengthHigh => exact hhigh
  case marker => rw [he, streamBytes_congr_of_bs (s := s) (t := decStarted s) rfl, hmarker]
  all_goals omega

theorem blockInv_of_encStart {s t : State} (h : MemoriesInv s) (ht : encStart (passReset s) = .ok t) : BlockInv t := by
  have hm : MemoriesInv t := (encStart_endsIn_memoriesInv (s := passReset s) h).of_eq_ok ht
  obtain ⟨hheader, -, rfl⟩ := encStart_eq_ok_iff.1 ht
  exact blockInv_of_enc rfl hm ⟨Nat.zero_le _, nofun, fun _ => rfl, fun _ => rfl⟩ cacheInv_clearedCache
    (encInv_encStarted h.config rfl rfl hheader)

theorem blockInv_of_decStart {s t : State} (h : MemoriesInv s) (ht : decStart (passReset s) = .ok t) : BlockInv t := by
  obtain ⟨hhigh, hlow, -, hheader, hmarker, rfl⟩ := decStart_eq_ok_iff.1 ht
  exact blockInv_of_dec rfl h ⟨Nat.zero_le _, nofun, fun _ => rfl, fun _ => rfl⟩ cacheInv_clearedCache
    (decInv_decStarted h.config rfl hlow hhigh hheader hmarker)

/-! ### The host's moves and the step -/

/-- A `CTRL` write starts a pass from the reset pass state, or stores MODE and changes nothing else. -/
theorem blockInv_of_ctrlWrite {v : Word} {s t : State} (h : BlockInv s) (hb : s.busy = false)
    (ht : ctrlWrite v s = .next t) : BlockInv t := by
  rw [ctrlWrite_eq_next_iff] at ht
  generalize hu : { s with mode := modeOfBit (v.getLsbD 1) } = u at ht
  have hm : MemoriesInv u := hu ▸ h.memories
  split at ht
  · split at ht
    · exact blockInv_of_settle (decStart_endsIn_memoriesInv (s := passReset u) hm) (blockInv_of_decStart hm) ht
    · exact blockInv_of_settle (encStart_endsIn_memoriesInv (s := passReset u) hm) (blockInv_of_encStart hm) ht
  · subst ht hu
    exact blockInv_of_not_busy hb hm ⟨h.runValues, h.errorCode, h.noErrorCode, h.outLen⟩

theorem blockInv_hostWritePixel {s : State} (h : BlockInv s) (hb : s.busy = false) (i : Nat) (w : Word) :
    BlockInv (hostWritePixel i w s) := by
  have hm := h.memories
  unfold hostWritePixel
  split
  · next hi =>
    exact blockInv_of_not_busy hb ⟨hm.config, hm.pixels.write (of_decide_eq_true hi) w, hm.stream, hm.drawsPos⟩
      ⟨h.runValues, h.errorCode, h.noErrorCode, h.outLen⟩
  · exact h

theorem blockInv_hostWriteStream {s : State} (h : BlockInv s) (hb : s.busy = false) (a : Nat) (b : Byte) :
    BlockInv (hostWriteStream a b s) := by
  have hm := h.memories
  unfold hostWriteStream
  split
  · next ha =>
    exact blockInv_of_not_busy hb ⟨hm.config, hm.pixels, hm.stream.write (of_decide_eq_true ha) b, hm.drawsPos⟩
      ⟨h.runValues, h.errorCode, h.noErrorCode, h.outLen⟩
  · exact h

theorem blockInv_of_hostMove {op : HostOp} {s t : State} (h : BlockInv s) (ht : hostMove op s = .next t) :
    BlockInv t := by
  obtain ⟨x, rfl⟩ | rfl | ⟨hb, i, w, rfl⟩ | ⟨hb, a, b, rfl⟩ | ⟨hb, r, v, -, -, ht⟩ | ⟨hb, w, ht', c, d, l, rfl⟩ :=
    hostMove_eq_next_cases ht
  · exact h.with_queues s.turns (x :: s.answers)
  · exact h
  · exact blockInv_hostWritePixel h hb i w
  · exact blockInv_hostWriteStream h hb a b
  · exact blockInv_of_ctrlWrite h hb ht
  · exact blockInv_of_not_busy hb h.memories ⟨h.runValues, h.errorCode, h.noErrorCode, h.outLen⟩

theorem blockInv_powerOnReset {s : State} (h : BlockInv s) : BlockInv (powerOnReset s) :=
  blockInv_of_not_busy rfl (memoriesInv_powerOnReset h.memories)
    ⟨drawnRunCnt_le _, nofun, fun _ => rfl, fun _ => rfl⟩

theorem blockInv_of_move {turn : Turn} {s t : State} (h : BlockInv s) (ht : move turn s = .next t) : BlockInv t := by
  cases turn with
  | host op => exact blockInv_of_hostMove h ht
  | pipeline => exact blockInv_of_pipelineMove h ht
  | powerOn => exact Host.Outcome.next.inj ht ▸ blockInv_powerOnReset h

/-- Settles O46, by the move the step makes: each keeps the memories bounded, the status registers consistent, and the
invariant of the pass it leaves running. -/
theorem stepKeepsInvariant : Obligations.StepKeepsInvariant := by
  intro s t h ht
  obtain ⟨-, ht⟩ | ⟨turn, rest, -, ht⟩ := step_eq_next_cases ht
  · exact blockInv_of_pipelineMove h ht
  · exact blockInv_of_move (h.with_queues rest s.answers) ht

end Sys2Proof.Machine
end

