-- ==== Sys2Proof/Proofs/RegisterBlock.lean ====
section
/-! SUPPORT. The register block as the host sees it: the fields of STATUS (O35), the state after reset (O45, O47), and a
running pass, which no host move disturbs (O37). -/

namespace Sys2Proof.Machine

/-! ### The fields of `STATUS` -/

/-- A concatenation as a number: the low part's bits do not reach the high part's. -/
theorem toNat_append_eq_add {n m : Nat} (x : BitVec n) (y : BitVec m) :
    (x ++ y).toNat = 2 ^ m * x.toNat + y.toNat := by
  rw [BitVec.toNat_append, ← Nat.shiftLeft_add_eq_or_of_lt y.isLt, Nat.shiftLeft_eq, Nat.mul_comm]

/-- `STATUS` as a number: its fields at their weights (rule R37). -/
theorem statusWord_toNat (s : State) :
    (statusWord s).toNat =
      16 * s.errField.toNat + 4 * s.errFlag.toNat + 2 * s.doneFlag.toNat + s.busy.toNat := by
  have hzero : ∀ n, (0 : BitVec n).toNat = 0 := fun _ => rfl
  simp only [statusWord, toNat_append_eq_add, BitVec.toNat_ofBool, hzero]
  omega

theorem getLsbD_eq_of_toNat {w : Word} {i : Nat} {b : Bool} (h : w.toNat / 2 ^ i % 2 = b.toNat) : w.getLsbD i = b := by
  rw [BitVec.getLsbD, Nat.testBit_eq_decide_div_mod_eq, h]
  cases b <;> rfl

/-- The bits below ERRCODE (rule R37). -/
theorem statusWord_getLsbD (s : State) :
    (statusWord s).getLsbD 0 = s.busy ∧ (statusWord s).getLsbD 1 = s.doneFlag ∧
      (statusWord s).getLsbD 2 = s.errFlag ∧ (statusWord s).getLsbD 3 = false := by
  have hword := statusWord_toNat s
  have hbusy := s.busy.toNat_le
  have hdone := s.doneFlag.toNat_le
  have herr := s.errFlag.toNat_le
  have hreserved : false.toNat = 0 := rfl
  refine ⟨getLsbD_eq_of_toNat ?_, getLsbD_eq_of_toNat ?_, getLsbD_eq_of_toNat ?_, getLsbD_eq_of_toNat ?_⟩ <;> omega

theorem busy_iff {s : State} : s.busy = true ↔ s.pass = .enc ∨ s.pass = .dec := by
  cases h : s.pass <;> simp [State.busy, h]

/-- ERRCODE and the bits above it, as one number. -/
theorem statusWord_toNat_div_sixteen (s : State) :
    (statusWord s).toNat / 16 = if s.pass = .err then s.errcode.toNat else 0 := by
  have hlow : 4 * s.errFlag.toNat + 2 * s.doneFlag.toNat + s.busy.toNat < 16 := by
    have := s.errFlag.toNat_le
    have := s.doneFlag.toNat_le
    have := s.busy.toNat_le
    omega
  have hfield : s.errField.toNat = if s.pass = .err then s.errcode.toNat else 0 := by
    simp only [State.errField, State.errFlag, decide_eq_true_eq]
    split <;> rfl
  rw [statusWord_toNat, ← hfield]
  omega

/-- With the three flags 0, `STATE` is IDLE, and only then (rule R37). -/
theorem statusWord_toNat_mod_eight_eq_zero_iff (s : State) : (statusWord s).toNat % 8 = 0 ↔ s.pass = .idle := by
  rw [statusWord_toNat]
  cases h : s.pass <;> simp [State.errFlag, State.doneFlag, State.busy, h] <;> omega

/-- Settles O35, field by field. -/
theorem statusFields : Obligations.StatusFields := by
  refine ⟨rfl, fun s => ?_⟩
  obtain ⟨hbusy, hdone, herr, hreserved⟩ := statusWord_getLsbD s
  refine ⟨?_, ?_, ?_, hreserved, statusWord_toNat_div_sixteen s, statusWord_toNat_mod_eight_eq_zero_iff s, rfl,
    fun v => ite_self _⟩
  · rw [hbusy, busy_iff]
  · rw [hdone, State.doneFlag, decide_eq_true_eq]
  · rw [herr, State.errFlag, decide_eq_true_eq]

/-! ### The state after reset -/

theorem readReg_reset (r : RegNum) : readReg State.reset r = 0 := by
  unfold readReg
  split <;> rfl

/-- Settles O45: each register is 0 at reset, and with no turn pending and no pass running a step is the idle pipeline's. -/
theorem resetState : Obligations.ResetState :=
  ⟨rfl, readReg_reset, rfl, rfl, rfl, step_of_no_turn rfl⟩

theorem memBounded_empty {α : Type} (cap draws : Nat) : MemBounded (Mem.empty : Mem α) cap draws :=
  ⟨Mem.empty_wf, nofun, nofun⟩

theorem memoriesInv_reset : MemoriesInv State.reset :=
  ⟨by decide, memBounded_empty _ _, memBounded_empty _ _, Nat.le_refl 1⟩

/-- Settles O47: no pass runs at reset, so the memories, which list nothing, and the status registers are all there is. -/
theorem invariantAtReset : Obligations.InvariantAtReset :=
  blockInv_of_not_busy rfl memoriesInv_reset ⟨Nat.zero_le _, nofun, fun _ => rfl, fun _ => rfl⟩

/-! ### Host moves while a pass runs -/

/-- A host move answered while a pass runs adds an answer at most: every move that would change the block happens only while
no pass runs (rules R45, R255). -/
theorem hostMove_of_busy {op : HostOp} {s t : State} (hb : s.busy = true) (h : hostMove op s = .next t) :
    t = { s with answers := t.answers } := by
  obtain ⟨x, rfl⟩ | rfl | ⟨hi, -⟩ | ⟨hi, -⟩ | ⟨hi, -⟩ | ⟨hi, -⟩ := hostMove_eq_next_cases h
  · rfl
  · rfl
  all_goals simp [hb] at hi

/-- Settles O37: the writes by rule R45, a step by what any host move can do while a pass runs. -/
theorem hostMovesLeaveRunningPassAlone : Obligations.HostMovesLeaveRunningPassAlone := by
  intro s hb
  refine ⟨hostWriteReg_of_busy hb, fun _ => rfl, fun t op rest hturns hstep => ?_⟩
  rw [step_of_turns hturns] at hstep
  exact hostMove_of_busy (s := { s with turns := rest }) hb hstep

end Sys2Proof.Machine
end

