-- ==== Sys2Proof/Proofs/NoFault.lean ====
section
/-! SUPPORT. No step faults from a state with the block invariant (O48). Outside the pipeline nothing can fault, nor can
what the encoder does with a pixel once it is read; the three guards that can stop a pipeline step are met by the bounds of
the running pass. -/

namespace Sys2Proof.Machine

/-! ### Attempts that cannot fault -/

/-- The attempt reaches its last line or raises an error of the block. -/
def Attempt.Faultless (x : Attempt) : Prop := ∀ f, x ≠ .error (.fault f)

theorem Attempt.faultless_ok (s : State) : Attempt.Faultless (.ok s) := nofun

theorem Attempt.faultless_error (c : QoiError) (s : State) : Attempt.Faultless (.error (.error c s)) := nofun

theorem Attempt.faultless_bind {x : Attempt} {g : State → Attempt} (hx : x.Faultless) (hg : ∀ s, (g s).Faultless) :
    Attempt.Faultless (x >>= g) := fun f h => by
  obtain h | ⟨s, -, h⟩ := bind_eq_error_iff.1 h
  · exact hx f h
  · exact hg s f h

theorem settle_ne_fault {x : Attempt} (hx : x.Faultless) (site : ErrorSite) (f : Fault) : settle site x ≠ .fault f :=
  fun h => hx f (settle_eq_fault_iff.1 h)

theorem emit_faultless (bytes : List Byte) (s : State) : (emit bytes s).Faultless := fun f h => by
  simp [emit_eq_error_iff] at h

/-! ### The encoder -/

theorem flushRun_faultless (s : State) : (flushRun s).Faultless := fun f h => by simp [flushRun_eq_error_iff] at h

theorem encRunPixel_faultless (s : State) : (encRunPixel s).Faultless := by
  unfold encRunPixel
  split
  · exact flushRun_faultless _
  · exact Attempt.faultless_ok _

theorem encPendingFlush_faultless (s : State) : (encPendingFlush s).Faultless := by
  unfold encPendingFlush
  split
  · exact Attempt.faultless_ok _
  · exact flushRun_faultless _

theorem encOtherPixel_faultless (p : Pixel) (s : State) : (encOtherPixel p s).Faultless := by
  unfold encOtherPixel
  split <;> exact emit_faultless _ _

theorem encPixel_faultless (p : Pixel) (s : State) : (encPixel p s).Faultless := by
  have hclassify : (encClassify p s).Faultless := by
    unfold encClassify
    split
    · exact encRunPixel_faultless s
    · exact Attempt.faultless_bind (encPendingFlush_faultless s) (encOtherPixel_faultless p)
  exact Attempt.faultless_bind hclassify fun _ => Attempt.faultless_ok _

theorem pixelsExist_pxPtr {s : State} (h : s.pxPtr.toNat < s.cfg.pxCap) : s.pixelsExist s.pxPtr.toNat 1 = true :=
  decide_eq_true h

/-- The pixel step reads an index that exists (rule R63). -/
theorem encPixelStep_faultless {s : State} (h : s.pxPtr.toNat < s.cfg.pxCap) : (encPixelStep s).Faultless := by
  rw [encPixelStep, if_pos (pixelsExist_pxPtr h)]
  exact encPixel_faultless _ s

theorem encTail_faultless (s : State) : (encTail s).Faultless := fun f h => by simp [encTail_eq_error_iff] at h

/-! ### The decoder -/

/-- The fetch reads the chunk region alone, which lies inside the memory (rules R65, R205). -/
theorem fetchChunk_ne_fault {s : State} (h : s.e.toNat ≤ s.cfg.bsCap) (f : Fault) :
    fetchChunk s ≠ .error (.fault f) := by
  simp only [fetchChunk, State.bytesExist, decide_eq_true_eq]
  split
  · simp
  · rw [if_pos (by omega)]
    split
    · simp
    · rw [if_pos (by omega), readChunk]
      split <;> simp

/-- A single-pixel chunk writes an index that exists (rule R63). -/
theorem commit_faultless {s : State} (h : s.pxPtr.toNat < s.cfg.pxCap) (p : Pixel) (len : Nat) :
    (commit p len s).Faultless := by
  rw [commit, if_pos (pixelsExist_pxPtr h)]
  exact Attempt.faultless_ok _

/-- A run is cut off by OVERRUN before it reaches an index that does not exist (rule R209). -/
theorem decodeRun_faultless {s : State} (h : s.n.toNat ≤ s.cfg.pxCap) (k : Nat) : (decodeRun k s).Faultless := by
  unfold decodeRun
  split
  · exact Attempt.faultless_error _ _
  · rw [State.pixelsExist, if_pos (decide_eq_true (by omega))]
    exact Attempt.faultless_ok _

theorem exec_ne_fault {s : State} (hlt : s.pxPtr.toNat < s.n.toNat) (hn : s.n.toNat ≤ s.cfg.pxCap) (i : Instr)
    (f : Fault) : exec i s ≠ .fault f := by
  have hpx := hlt.trans_le hn
  cases i with
  | run k => exact settle_ne_fault (decodeRun_faultless hn k) _ f
  | rgb r g b => exact settle_ne_fault (commit_faultless hpx _ _) _ f
  | rgba r g b a => exact settle_ne_fault (commit_faultless hpx _ _) _ f
  | luma dg drdg dbdg => exact settle_ne_fault (commit_faultless hpx _ _) _ f
  | diff dr dg db => exact settle_ne_fault (commit_faultless hpx _ _) _ f
  | index k => exact settle_ne_fault (commit_faultless hpx _ _) _ f

theorem decChunkStep_ne_fault {s : State} (he : s.e.toNat ≤ s.cfg.bsCap) (hlt : s.pxPtr.toNat < s.n.toNat)
    (hn : s.n.toNat ≤ s.cfg.pxCap) (f : Fault) : decChunkStep s ≠ .fault f := by
  unfold decChunkStep
  split
  · next i _ => exact exec_ne_fault hlt hn i f
  · simp
  · next g hg => exact absurd hg (fetchChunk_ne_fault he g)

theorem decFinish_faultless (s : State) : (decFinish s).Faultless := fun f h => by simp [decFinish_eq_error_iff] at h

/-! ### The running pass -/

/-- The exact product of a header that passed its checks lies inside the pixel memory (rule R26). -/
theorem n_le_pxCap_of_header {s : State} (hheader : headerError s = none)
    (hpixels : s.n.toNat = s.hdrW.toNat * s.hdrH.toNat) : s.n.toNat ≤ s.cfg.pxCap := by
  obtain ⟨-, -, -, -, hproduct⟩ := headerError_eq_none_iff.1 hheader
  exact hpixels ▸ hproduct

theorem EncInv.n_le_pxCap {s : State} (h : EncInv s) : s.n.toNat ≤ s.cfg.pxCap :=
  n_le_pxCap_of_header h.header h.pixels

theorem DecInv.n_le_pxCap {s : State} (h : DecInv s) : s.n.toNat ≤ s.cfg.pxCap :=
  n_le_pxCap_of_header h.header h.pixels

theorem DecInv.e_le_bsCap {s : State} (h : DecInv s) : s.e.toNat ≤ s.cfg.bsCap := by
  have := h.regionEnd
  have := h.lengthHigh
  omega

theorem pipelineMove_ne_fault {s : State} (h : BlockInv s) (f : Fault) : pipelineMove s ≠ .fault f := by
  unfold pipelineMove
  split
  · next hp =>
    split
    · next hlt => exact settle_ne_fault (encPixelStep_faultless (Nat.lt_of_lt_of_le hlt (h.encode hp).n_le_pxCap)) _ f
    · exact settle_ne_fault (encTail_faultless s) _ f
  · next hp =>
    split
    · next hlt => exact decChunkStep_ne_fault (h.decode hp).e_le_bsCap hlt (h.decode hp).n_le_pxCap f
    · exact settle_ne_fault (decFinish_faultless s) _ f
  all_goals simp

/-! ### The host -/

theorem encStart_faultless (s : State) : (encStart s).Faultless := by
  unfold encStart
  split
  · exact Attempt.faultless_error _ _
  · exact Attempt.faultless_bind (emit_faultless _ _) fun _ => Attempt.faultless_ok _

theorem decStart_faultless (s : State) : (decStart s).Faultless := by
  unfold decStart decStartLength decStartHeader
  repeat' split
  all_goals nofun

theorem ctrlWrite_ne_fault (v : Word) (s : State) (f : Fault) : ctrlWrite v s ≠ .fault f := by
  simp only [ctrlWrite]
  split
  · split
    · exact settle_ne_fault (encStart_faultless _) _ f
    · exact settle_ne_fault (decStart_faultless _) _ f
  · simp

theorem hostWriteReg_ne_fault (r : RegNum) (v : Word) (s : State) (f : Fault) : hostWriteReg r v s ≠ .fault f := by
  unfold hostWriteReg
  split
  · simp
  · split
    · exact ctrlWrite_ne_fault v s f
    all_goals simp

theorem whenIdle_ne_fault (s t : State) (f : Fault) : whenIdle s t ≠ .fault f := by
  unfold whenIdle
  split <;> simp

theorem hostMove_ne_fault (op : HostOp) (s : State) (f : Fault) : hostMove op s ≠ .fault f := by
  cases op with
  | readReg r => simp [hostMove]
  | writeReg r v => exact hostWriteReg_ne_fault r v s f
  | readPixel | writePixel | readStream | writeStream => exact whenIdle_ne_fault s _ f

/-- Settles O48, by the agent that moves: a host access outside a memory is ignored or reads 0 (rule R72), and the
invariant of the running pass keeps the pipeline's cursors inside both memories. -/
theorem noFaultUnderInvariant : Obligations.NoFaultUnderInvariant := by
  intro s f h
  cases hs : s.turns with
  | nil => exact step_of_no_turn hs ▸ pipelineMove_ne_fault h f
  | cons turn rest =>
    rw [step_of_turns hs]
    cases turn with
    | host op => exact hostMove_ne_fault op _ f
    | pipeline => exact pipelineMove_ne_fault (h.with_queues rest s.answers) f
    | powerOn => simp [move]

end Sys2Proof.Machine
end

