-- ==== Sys2Proof/Proofs/PassStateTransitions.lean ====
section
/-! SUPPORT. STATE changes only as rule R30 says (O50). A step of a running pass keeps the register block until its last
line, so STATE changes there by an error or by the step that ends the pass; of the host's moves only a START changes it. -/

namespace Sys2Proof.Machine

/-! ### What keeps the register block -/

theorem registersKept_of_encRunPixel {s u : State} (h : encRunPixel s = .ok u) : RegistersKept s u := by
  rw [encRunPixel_eq_ok_iff] at h
  split at h
  · obtain ⟨-, rfl⟩ := h
    exact RegistersKept.refl s
  · subst h
    exact RegistersKept.refl s

theorem registersKept_of_encPendingFlush {s u : State} (h : encPendingFlush s = .ok u) : RegistersKept s u := by
  rw [encPendingFlush_eq_ok_iff] at h
  split at h
  · subst h
    exact RegistersKept.refl u
  · obtain ⟨-, rfl⟩ := h
    exact RegistersKept.refl s

theorem registersKept_of_encOtherPixel {p : Pixel} {s u : State} (h : encOtherPixel p s = .ok u) :
    RegistersKept s u := by
  rw [encOtherPixel_eq_ok_iff] at h
  split at h <;>
  · obtain ⟨-, rfl⟩ := h
    exact RegistersKept.refl s

theorem registersKept_of_encPixelStep {s t : State} (h : encPixelStep s = .ok t) : RegistersKept s t := by
  obtain ⟨-, hpixel⟩ := encPixelStep_eq_ok_iff.1 h
  obtain ⟨u, rfl, hu⟩ := encPixel_eq_ok_iff.1 hpixel
  have hkept : RegistersKept s u := by
    split at hu
    · exact registersKept_of_encRunPixel hu
    · obtain ⟨v, hv, hu⟩ := hu
      exact (registersKept_of_encPendingFlush hv).trans (registersKept_of_encOtherPixel hu)
  exact hkept

/-! ### The pipeline's steps -/

theorem settle_pass_cases {site : ErrorSite} {x : Attempt} {t : State} (h : settle site x = .next t) :
    t.pass = .err ∨ x = .ok t := by
  obtain h | ⟨c, u, -, rfl⟩ := settle_eq_next_iff.1 h
  · exact .inr h
  · exact .inl rfl

theorem decChunkStep_pass_cases {s t : State} (h : decChunkStep s = .next t) : t.pass = .err ∨ t.pass = s.pass := by
  obtain ⟨i, -, hexec⟩ | ⟨c, u, -, rfl⟩ := decChunkStep_eq_next_iff.1 h
  · obtain ⟨-, p, rfl⟩ | rfl | ⟨k, -, -, -, rfl⟩ := exec_eq_next_cases hexec
    · exact .inr rfl
    · exact .inl rfl
    · exact .inr rfl
  · exact .inl rfl

/-- The pipeline changes STATE only from a running pass: to ERR, or with no pixel left to DONE (rules R30, R153, R204). -/
theorem pipelineMove_pass_cases {s t : State} (h : pipelineMove s = .next t) :
    t.pass = s.pass ∨ (s.pass = .enc ∨ s.pass = .dec) ∧ (t.pass = .err ∨ t.pass = .done ∧ ¬s.pxPtr < s.n) := by
  obtain ⟨hp, -, h⟩ | ⟨hp, hend, h⟩ | ⟨hp, -, h⟩ | ⟨hp, hend, h⟩ | ⟨-, rfl⟩ := pipelineMove_eq_next_cases h
  · obtain herr | h := settle_pass_cases h
    · exact .inr ⟨.inl hp, .inl herr⟩
    · exact .inl (registersKept_of_encPixelStep h).1
  · obtain herr | h := settle_pass_cases h
    · exact .inr ⟨.inl hp, .inl herr⟩
    · obtain ⟨-, rfl⟩ := encTail_eq_ok_iff.1 h
      exact .inr ⟨.inl hp, .inr ⟨rfl, hend⟩⟩
  · obtain herr | hkept := decChunkStep_pass_cases h
    · exact .inr ⟨.inr hp, .inl herr⟩
    · exact .inl hkept
  · obtain herr | h := settle_pass_cases h
    · exact .inr ⟨.inr hp, .inl herr⟩
    · obtain ⟨-, rfl⟩ := decFinish_eq_ok_iff.1 h
      exact .inr ⟨.inr hp, .inr ⟨rfl, hend⟩⟩
  · exact .inl rfl

/-! ### The host's moves -/

theorem regOf_eq_ctrl_iff {r : RegNum} : regOf r = .ctrl ↔ r = 0 := by
  revert r
  decide

theorem hostWritePixel_pass (i : Nat) (w : Word) (s : State) : (hostWritePixel i w s).pass = s.pass := by
  unfold hostWritePixel
  split <;> rfl

theorem hostWriteStream_pass (a : Nat) (b : Byte) (s : State) : (hostWriteStream a b s).pass = s.pass := by
  unfold hostWriteStream
  split <;> rfl

theorem pass_of_encStart {s t : State} (h : encStart s = .ok t) : t.pass = .enc := by
  obtain ⟨-, -, rfl⟩ := encStart_eq_ok_iff.1 h
  rfl

theorem pass_of_decStart {s t : State} (h : decStart s = .ok t) : t.pass = .dec := by
  obtain ⟨-, -, -, -, -, rfl⟩ := decStart_eq_ok_iff.1 h
  rfl

/-- A `CTRL` write changes STATE only by START = 1, to ERR or to the pass of the MODE written with it (rule R253). -/
theorem ctrlWrite_pass_cases {v : Word} {s t : State} (h : ctrlWrite v s = .next t) :
    t.pass = s.pass ∨
      v.getLsbD 0 = true ∧ (t.pass = .err ∨ t.pass = if v.getLsbD 1 then .dec else .enc) := by
  rw [ctrlWrite_eq_next_iff] at h
  split at h
  · next hstart =>
    refine .inr ⟨hstart, (settle_pass_cases h).imp_right fun hok => ?_⟩
    cases hmode : v.getLsbD 1 <;> simp only [hmode] at hok
    · exact pass_of_encStart hok
    · exact pass_of_decStart hok
  · subst h
    exact .inl rfl

/-- A host move changes STATE only as a START with no pass running (rules R45, R253). -/
theorem hostMove_pass_cases {op : HostOp} {s t : State} (h : hostMove op s = .next t) :
    t.pass = s.pass ∨
      s.busy = false ∧ ∃ v, op = .writeReg 0 v ∧ v.getLsbD 0 = true ∧
        (t.pass = .err ∨ t.pass = if v.getLsbD 1 then .dec else .enc) := by
  obtain ⟨x, rfl⟩ | rfl | ⟨-, i, w, rfl⟩ | ⟨-, a, b, rfl⟩ | ⟨hb, r, v, rfl, hr, hctrl⟩ | ⟨-, w, ht, c, d, l, rfl⟩ :=
    hostMove_eq_next_cases h
  · exact .inl rfl
  · exact .inl rfl
  · exact .inl (hostWritePixel_pass i w s)
  · exact .inl (hostWriteStream_pass a b s)
  · obtain rfl := regOf_eq_ctrl_iff.1 hr
    exact (ctrlWrite_pass_cases hctrl).imp_right fun hstart => ⟨hb, v, rfl, hstart⟩
  · exact .inl rfl

/-- Settles O50, by the agent that moves. -/
theorem passStateTransitions : Obligations.PassStateTransitions := by
  intro s t h hne
  obtain ⟨hs, h⟩ | ⟨turn, rest, hs, h⟩ := step_eq_next_cases h
  · obtain ⟨hp, hend⟩ := (pipelineMove_pass_cases h).resolve_left hne
    exact .inr (.inr (hp.imp (⟨·, .inl hs, hend⟩) (⟨·, .inl hs, hend⟩)))
  · cases turn with
    | host op =>
      obtain ⟨hb, v, rfl, hstart⟩ := (hostMove_pass_cases h).resolve_left hne
      exact .inr (.inl ⟨hb, v, rest, hs, hstart⟩)
    | pipeline =>
      obtain ⟨hp, hend⟩ := (pipelineMove_pass_cases h).resolve_left hne
      exact .inr (.inr (hp.imp (⟨·, .inr ⟨rest, hs⟩, hend⟩) (⟨·, .inr ⟨rest, hs⟩, hend⟩)))
    | powerOn =>
      cases h
      exact .inl ⟨rest, hs, rfl⟩

end Sys2Proof.Machine
end

