-- ==== Sys2Proof/Proofs/PassOutput.lean ====
section
/-! SUPPORT. A step of a running pass writes its own output and nothing else (O51, rule R70). An encoder step only appends
to its stream, whatever it ends in, so an error adds the free values of its draw and no more; a decoder step only writes the
pixels it moves `PX_PTR` past. -/

namespace Sys2Proof.Machine

/-! ### What both passes leave -/

/-- Stated of one state; an update of other fields keeps these registers by unfolding. -/
theorem HostValuesKept.refl (s : State) : HostValuesKept s s := ⟨rfl, rfl, rfl, rfl, rfl⟩

/-! ### The encoder appends -/

/-- What may differ from `s` in `u`, of the memories, the parameters and the host's registers, is the stream between the two
stream cursors. It speaks of these alone, so an update of other fields keeps it by unfolding. -/
def AppendsOnly (s u : State) : Prop :=
  u.px = s.px ∧ HostValuesKept s u ∧ u.cfg = s.cfg ∧ s.bsPtr.toNat ≤ u.bsPtr.toNat ∧
    ∀ a, a < s.bsPtr.toNat ∨ u.bsPtr.toNat ≤ a → u.streamByte a = s.streamByte a

theorem AppendsOnly.refl (s : State) : AppendsOnly s s := ⟨rfl, HostValuesKept.refl s, rfl, le_rfl, fun _ _ => rfl⟩

section
variable {s u : State} (hcap : s.cfg.bsCap < 2 ^ 32) (h : AppendsOnly s u)
include hcap h

/-- Emitted bytes stand between the cursors: the cursor of a stream that fits its memory does not wrap. -/
theorem AppendsOnly.emitted {bytes : List Byte} (hroom : u.bsPtr.toNat + bytes.length ≤ u.cfg.bsCap) :
    AppendsOnly s (emitted bytes u) := by
  obtain ⟨hpx, hhost, hcfg, hle, hbytes⟩ := h
  rw [hcfg] at hroom
  have hcursor := (streamGrown_emitted (bytes := bytes) (s := u) (by omega)).streamCursor
  refine ⟨hpx, hhost, hcfg, by omega, fun a ha => ?_⟩
  rcases ha with ha | ha
  · rw [streamByte_emitted_of_lt _ _ _ (by omega), hbytes a (.inl ha)]
  · rw [streamByte_emitted_of_ge _ _ _ (by omega), hbytes a (.inr (by omega))]

theorem emit_endsIn_appendsOnly (bytes : List Byte) : Attempt.EndsIn (AppendsOnly s) (emit bytes u) := by
  unfold emit
  split
  · exact h
  · next hroom => exact h.emitted hcap (Nat.le_of_not_lt hroom)

theorem flushRun_endsIn_appendsOnly : Attempt.EndsIn (AppendsOnly s) (flushRun u) :=
  Attempt.endsIn_bind (emit_endsIn_appendsOnly hcap h _) fun _ hv => hv

theorem encRunPixel_endsIn_appendsOnly : Attempt.EndsIn (AppendsOnly s) (encRunPixel u) := by
  unfold encRunPixel
  split
  · exact flushRun_endsIn_appendsOnly (u := countRun u) hcap h
  · exact h

theorem encPendingFlush_endsIn_appendsOnly : Attempt.EndsIn (AppendsOnly s) (encPendingFlush u) := by
  unfold encPendingFlush
  split
  · exact h
  · exact flushRun_endsIn_appendsOnly hcap h

theorem encOtherPixel_endsIn_appendsOnly (p : Pixel) : Attempt.EndsIn (AppendsOnly s) (encOtherPixel p u) := by
  unfold encOtherPixel
  split
  · exact emit_endsIn_appendsOnly hcap h _
  · exact emit_endsIn_appendsOnly (u := u.cacheStore p) hcap h _

theorem encClassify_endsIn_appendsOnly (p : Pixel) : Attempt.EndsIn (AppendsOnly s) (encClassify p u) := by
  unfold encClassify
  split
  · exact encRunPixel_endsIn_appendsOnly hcap h
  · exact Attempt.endsIn_bind (encPendingFlush_endsIn_appendsOnly hcap h) fun _ hv =>
      encOtherPixel_endsIn_appendsOnly hcap hv p

theorem encPixelStep_endsIn_appendsOnly : Attempt.EndsIn (AppendsOnly s) (encPixelStep u) := by
  unfold encPixelStep
  split
  · exact Attempt.endsIn_bind (encClassify_endsIn_appendsOnly hcap h _) fun _ hv => hv
  · trivial

theorem encTail_endsIn_appendsOnly : Attempt.EndsIn (AppendsOnly s) (encTail u) :=
  Attempt.endsIn_bind (emit_endsIn_appendsOnly hcap h _) fun _ hv => hv

end

/-- What an encoder step may write (rules R70, R283). -/
def EncoderOutput (s t : State) : Prop :=
  t.px = s.px ∧ HostValuesKept s t ∧
    (t.pass ≠ .err → ∀ a, a < s.bsPtr.toNat ∨ t.bsPtr.toNat ≤ a → t.streamByte a = s.streamByte a)

/-- A step that appends only, settled: an error takes all of `BS` into its draw and leaves the rest (rule R283). -/
theorem encoderOutput_of_settle {x : Attempt} {s t : State} (hx : Attempt.EndsIn (AppendsOnly s) x)
    (ht : settle .encStep x = .next t) : EncoderOutput s t := by
  obtain ht | ⟨c, u, rfl, rfl⟩ := settle_eq_next_iff.1 ht
  · obtain ⟨hpx, hhost, -, -, hbytes⟩ := hx.of_eq_ok ht
    exact ⟨hpx, hhost, fun _ => hbytes⟩
  · obtain ⟨hpx, hhost, -⟩ : AppendsOnly s u := hx
    exact ⟨hpx, hhost, fun herr => absurd rfl herr⟩

theorem encoderOutput_of_pipelineMove {s t : State} (hcap : s.cfg.bsCap < 2 ^ 32) (hp : s.pass = .enc)
    (ht : pipelineMove s = .next t) : EncoderOutput s t := by
  obtain ⟨-, -, ht⟩ | ⟨-, -, ht⟩ | ⟨hd, -⟩ | ⟨hd, -⟩ | ⟨hb, -⟩ := pipelineMove_eq_next_cases ht
  · exact encoderOutput_of_settle (encPixelStep_endsIn_appendsOnly hcap (.refl s)) ht
  · exact encoderOutput_of_settle (encTail_endsIn_appendsOnly hcap (.refl s)) ht
  · simp [hp] at hd
  · simp [hp] at hd
  · simp [busy_of_enc hp] at hb

/-! ### The decoder writes the pixels it passes -/

/-- What a decoder step may write (rules R70, R214, R283). -/
def DecoderOutput (s t : State) : Prop :=
  t.bs = s.bs ∧ t.inLen = s.inLen ∧ (t.pass ≠ .done → HostValuesKept s t) ∧
    (t.pass ≠ .err → ∀ i, i < s.pxPtr.toNat ∨ t.pxPtr.toNat ≤ i → t.pixelWord i = s.pixelWord i)

/-- An error takes the pixels of the pass into its draw and leaves the rest (rule R283). -/
theorem decoderOutput_raiseError (s : State) (c : QoiError) : DecoderOutput s (raiseError .decStep c s) :=
  ⟨rfl, rfl, fun _ => HostValuesKept.refl s, fun herr => absurd rfl herr⟩

/-- A chunk writes the pixels it moves `PX_PTR` past. -/
theorem decoderOutput_of_exec {i : Instr} {s t : State} (hcap : s.cfg.pxCap < 2 ^ 32) (ht : exec i s = .next t) :
    DecoderOutput s t := by
  obtain ⟨hroom, p, rfl⟩ | rfl | ⟨k, -, -, hroom, rfl⟩ := exec_eq_next_cases ht
  · refine ⟨rfl, rfl, fun _ => HostValuesKept.refl s, fun _ i hi => ?_⟩
    rw [committed_pxPtr, BitVec.toNat_add, show (1 : Word).toNat = 1 from rfl] at hi
    rw [pixelWord_committed, if_neg (by omega)]
  · exact decoderOutput_raiseError s _
  · refine ⟨rfl, rfl, fun _ => HostValuesKept.refl s, fun _ i hi => ?_⟩
    rw [afterRun_pxPtr, BitVec.toNat_add, BitVec.toNat_ofNat] at hi
    rw [pixelWord_afterRun, if_neg (by omega)]

theorem decoderOutput_of_decChunkStep {s t : State} (hcap : s.cfg.pxCap < 2 ^ 32) (ht : decChunkStep s = .next t) :
    DecoderOutput s t := by
  obtain ⟨i, -, hexec⟩ | ⟨c, u, hu, rfl⟩ := decChunkStep_eq_next_iff.1 ht
  · exact decoderOutput_of_exec hcap hexec
  · obtain ⟨-, rfl⟩ := fetchChunk_eq_error hu
    exact decoderOutput_raiseError u c

/-- The finish step writes no pixel; when it ends the pass it reports in the host's registers, `IN_LEN` not among them
(rule R214). -/
theorem decoderOutput_of_decFinish {s t : State} (ht : settle .decStep (decFinish s) = .next t) : DecoderOutput s t := by
  obtain ht | ⟨c, u, hu, rfl⟩ := settle_eq_next_iff.1 ht
  · obtain ⟨-, rfl⟩ := decFinish_eq_ok_iff.1 ht
    exact ⟨rfl, rfl, fun hdone => absurd rfl hdone, fun _ _ _ => rfl⟩
  · obtain ⟨-, hstop⟩ := decFinish_eq_error_iff.1 hu
    obtain ⟨-, rfl⟩ := Stop.error.inj hstop
    exact decoderOutput_raiseError u _

theorem decoderOutput_of_pipelineMove {s t : State} (hcap : s.cfg.pxCap < 2 ^ 32) (hp : s.pass = .dec)
    (ht : pipelineMove s = .next t) : DecoderOutput s t := by
  obtain ⟨he, -⟩ | ⟨he, -⟩ | ⟨-, -, ht⟩ | ⟨-, -, ht⟩ | ⟨hb, -⟩ := pipelineMove_eq_next_cases ht
  · simp [hp] at he
  · simp [hp] at he
  · exact decoderOutput_of_decChunkStep hcap ht
  · exact decoderOutput_of_decFinish ht
  · simp [busy_of_dec hp] at hb

/-! ### The step -/

/-- On the pipeline's turn the step is the pipeline's move, its turn taken off the list if one was pending. -/
theorem step_of_pipelineTurn {s : State} (h : s.pipelineTurn) :
    ∃ rest, step s = pipelineMove { s with turns := rest } := by
  obtain hs | ⟨rest, hs⟩ := h
  · exact ⟨s.turns, step_of_no_turn hs⟩
  · exact ⟨rest, step_of_turns hs⟩

/-- Settles O51, by the pass that runs: a legal capacity keeps its output cursor from wrapping. -/
theorem passWritesOnlyItsOutput : Obligations.PassWritesOnlyItsOutput := by
  intro s t h hturn hstep
  obtain ⟨-, hpxCap, -, hbsCap⟩ := h.config
  obtain ⟨rest, hmove⟩ := step_of_pipelineTurn hturn
  have ht : pipelineMove { s with turns := rest } = .next t := hmove ▸ hstep
  exact ⟨fun hp => encoderOutput_of_pipelineMove (s := { s with turns := rest }) hbsCap hp ht,
    fun hp => decoderOutput_of_pipelineMove (s := { s with turns := rest }) hpxCap hp ht⟩

end Sys2Proof.Machine
end

