-- ==== Sys2Proof/Proofs/HostMemoryAccess.lean ====
section
/-! SUPPORT. The host's accesses to the two memories while no pass runs (O38, rule R72). -/

namespace Sys2Proof.Machine

/-! ### What the host's accesses are, inside and outside -/

theorem pixelsExist_one_iff {s : State} {i : Nat} : s.pixelsExist i 1 = true ↔ i < s.cfg.pxCap :=
  decide_eq_true_iff

theorem bytesExist_one_iff {s : State} {a : Nat} : s.bytesExist a 1 = true ↔ a < s.cfg.bsCap :=
  decide_eq_true_iff

theorem hostPixel_eq (s : State) (i : Nat) : hostPixel s i = if i < s.cfg.pxCap then s.pixelWord i else 0 := by
  simp only [hostPixel, pixelsExist_one_iff]

theorem hostByte_eq (s : State) (a : Nat) : hostByte s a = if a < s.cfg.bsCap then s.streamByte a else 0 := by
  simp only [hostByte, bytesExist_one_iff]

/-- Inside or outside, a host write of a pixel is an update of the pixel memory alone. -/
theorem hostWritePixel_eq (i : Nat) (w : Word) (s : State) :
    hostWritePixel i w s = { s with px := if i < s.cfg.pxCap then s.px.write i w else s.px } := by
  simp only [hostWritePixel, pixelsExist_one_iff]
  split <;> rfl

/-- Inside or outside, a host write of a byte is an update of the stream memory alone. -/
theorem hostWriteStream_eq (a : Nat) (b : Byte) (s : State) :
    hostWriteStream a b s = { s with bs := if a < s.cfg.bsCap then s.bs.write a b else s.bs } := by
  simp only [hostWriteStream, bytesExist_one_iff]
  split <;> rfl

theorem Mem.read_ite_write {α : Type} (free : Nat → Nat → α) (m : Mem α) (a j cap : Nat) (v : α) :
    (if a < cap then m.write a v else m).read free j = if j = a ∧ a < cap then v else m.read free j := by
  by_cases h : a < cap
  · simp [h, Mem.read_write]
  · simp [h]

theorem pixelWord_hostWritePixel (i : Nat) (w : Word) (s : State) (j : Nat) :
    (hostWritePixel i w s).pixelWord j = if j = i ∧ i < s.cfg.pxCap then w else s.pixelWord j := by
  rw [hostWritePixel_eq]
  exact Mem.read_ite_write ..

theorem streamByte_hostWriteStream (a : Nat) (b : Byte) (s : State) (j : Nat) :
    (hostWriteStream a b s).streamByte j = if j = a ∧ a < s.cfg.bsCap then b else s.streamByte j := by
  rw [hostWriteStream_eq]
  exact Mem.read_ite_write ..

/-! ### The frame -/

/-- The registers, the latches, the pipeline's registers with the cache, and the model's own fields are as before. -/
def AllButMemoriesKept (s t : State) : Prop :=
  RegistersKept s t ∧ LatchesKept s t ∧ PipelineKept s t ∧ QueuesKept s t

/-- Stated of one state; an update of a memory keeps the rest by unfolding. -/
theorem AllButMemoriesKept.refl (s : State) : AllButMemoriesKept s s :=
  ⟨RegistersKept.refl s, LatchesKept.refl s, ⟨rfl, rfl, rfl, rfl, rfl⟩, ⟨rfl, rfl, rfl⟩⟩

theorem hostWritePixel_frame (i : Nat) (w : Word) (s : State) :
    AllButMemoriesKept s (hostWritePixel i w s) ∧ (hostWritePixel i w s).bs = s.bs := by
  rw [hostWritePixel_eq]
  exact ⟨AllButMemoriesKept.refl s, rfl⟩

theorem hostWriteStream_frame (a : Nat) (b : Byte) (s : State) :
    AllButMemoriesKept s (hostWriteStream a b s) ∧ (hostWriteStream a b s).px = s.px := by
  rw [hostWriteStream_eq]
  exact ⟨AllButMemoriesKept.refl s, rfl⟩

/-- Settles O38, access by access. -/
theorem hostMemoryAccess : Obligations.HostMemoryAccess := by
  intro s hb
  have hnext (t : State) : whenIdle s t = .next t := whenIdle_eq_next_iff.2 ⟨hb, rfl⟩
  refine ⟨fun i w => ?_, fun a b => ?_, fun i => ?_, fun a => ?_⟩
  · obtain ⟨⟨hreg, hlatch, hpipe, hqueue⟩, hbs⟩ := hostWritePixel_frame i w s
    exact ⟨_, hnext _, hreg, hlatch, hpipe, hqueue, hbs, pixelWord_hostWritePixel i w s⟩
  · obtain ⟨⟨hreg, hlatch, hpipe, hqueue⟩, hpx⟩ := hostWriteStream_frame a b s
    exact ⟨_, hnext _, hreg, hlatch, hpipe, hqueue, hpx, streamByte_hostWriteStream a b s⟩
  · rw [← hostPixel_eq]
    exact hnext _
  · rw [← hostByte_eq]
    exact hnext _

end Sys2Proof.Machine
end

