-- ==== Sys2Proof/Proofs/ChunkBytes.lean ====
section
/-! SUPPORT. The chunk formats of rules R94 to R99 as numbers, once in each direction: what `decode` reads from a lead byte
of each class, and the numbers of the bytes `encode` writes. The statements about the encoding compare the two by
arithmetic alone. -/

namespace Sys2Proof

/-! ### The class of a lead byte -/

/-- The lead bytes of a class, by their number (rules R92, R93). -/
def ChunkClass.Leads : ChunkClass → Byte → Prop
  | .rgb, b => b = 0xFE
  | .rgba, b => b = 0xFF
  | .run, b => b.toNat / 64 = 3 ∧ b ≠ 0xFE ∧ b ≠ 0xFF
  | .luma, b => b.toNat / 64 = 2
  | .diff, b => b.toNat / 64 = 1
  | .index, b => b.toNat / 64 = 0

theorem classify_leads (b : Byte) : (classify b).Leads b := by
  unfold classify
  simp only [bits_seven_six]
  split_ifs with hfe hff h3 h2 h1
  · exact hfe
  · exact hff
  · exact ⟨h3, hfe, hff⟩
  · exact h2
  · exact h1
  · have hlt := b.isLt
    show b.toNat / 64 = 0
    omega

theorem classify_eq_iff {b : Byte} {c : ChunkClass} : classify b = c ↔ c.Leads b := by
  refine ⟨fun h => h ▸ classify_leads b, fun h => ?_⟩
  cases c with
  | rgb => exact h ▸ rfl
  | rgba => exact h ▸ rfl
  | run =>
    obtain ⟨htop, hfe, hff⟩ := h
    exact classify_of_run htop hfe hff
  | luma => exact classify_of_luma h
  | diff => exact classify_of_diff h
  | index => exact classify_of_index h

/-- A RUN lead byte has a number from 192 to 253 (rule R97). -/
theorem run_lead_iff {b : Byte} : b.toNat / 64 = 3 ∧ b ≠ 0xFE ∧ b ≠ 0xFF ↔ 192 ≤ b.toNat ∧ b.toNat ≤ 253 := by
  have hfe : b = 0xFE ↔ b.toNat = 254 := BitVec.toNat_inj.symm
  have hff : b = 0xFF ↔ b.toNat = 255 := BitVec.toNat_inj.symm
  rw [Ne, Ne, hfe, hff]
  omega

/-! ### What the decoder reads, class by class -/

@[simp] theorem decode_rgb_lead (r g b : Byte) (rest : List Byte) :
    decode (0xFE :: r :: g :: b :: rest) = .ok (.rgb r g b, rest) := rfl

@[simp] theorem decode_rgba_lead (r g b a : Byte) (rest : List Byte) :
    decode (0xFF :: r :: g :: b :: a :: rest) = .ok (.rgba r g b a, rest) := rfl

theorem decode_run_lead {b0 : Byte} (htop : b0.toNat / 64 = 3) (hfe : b0 ≠ 0xFE) (hff : b0 ≠ 0xFF) (rest : List Byte) :
    decode (b0 :: rest) = .ok (.run (b0.toNat % 64 + 1), rest) := by
  simp only [decode, classify_of_run htop hfe hff, bits_five_zero]

theorem decode_luma_lead {b0 : Byte} (htop : b0.toNat / 64 = 2) (b1 : Byte) (rest : List Byte) :
    decode (b0 :: b1 :: rest) =
      .ok (.luma ((b0.toNat : Int) % 64 - 32) ((b1.toNat : Int) / 16 - 8) ((b1.toNat : Int) % 16 - 8), rest) := by
  simp only [decode, classify_of_luma htop, bits_five_zero, bits_seven_four, bits_three_zero]
  norm_cast

theorem decode_diff_lead {b0 : Byte} (htop : b0.toNat / 64 = 1) (rest : List Byte) :
    decode (b0 :: rest) =
      .ok (.diff ((b0.toNat : Int) / 16 % 4 - 2) ((b0.toNat : Int) / 4 % 4 - 2) ((b0.toNat : Int) % 4 - 2), rest) := by
  simp only [decode, classify_of_diff htop, bits_five_four, bits_three_two, bits_one_zero]
  norm_cast

theorem decode_index_lead {b0 : Byte} {k : Slot} (hk : b0.toNat = k.val) (rest : List Byte) :
    decode (b0 :: rest) = .ok (.index k, rest) := by
  have htop : b0.toNat / 64 = 0 := by omega
  simp only [decode, classify_of_index htop, bits_five_zero, hk, Nat.mod_eq_of_lt k.isLt, Fin.ofNat_val_eq_self]

/-- What `decode` answers, read backwards: the classes of rule R92 with the fields of rules R94 to R99. -/
theorem decode_cons_eq_ok_cases {b0 : Byte} {tail rest : List Byte} {i : Instr}
    (h : decode (b0 :: tail) = .ok (i, rest)) :
    (b0 = 0xFE ∧ ∃ r g b, tail = r :: g :: b :: rest ∧ i = .rgb r g b) ∨
      (b0 = 0xFF ∧ ∃ r g b a, tail = r :: g :: b :: a :: rest ∧ i = .rgba r g b a) ∨
      ((b0.toNat / 64 = 3 ∧ b0 ≠ 0xFE ∧ b0 ≠ 0xFF) ∧ tail = rest ∧ i = .run (b0.toNat % 64 + 1)) ∨
      (b0.toNat / 64 = 2 ∧ ∃ b1, tail = b1 :: rest ∧
        i = .luma ((b0.toNat : Int) % 64 - 32) ((b1.toNat : Int) / 16 - 8) ((b1.toNat : Int) % 16 - 8)) ∨
      (b0.toNat / 64 = 1 ∧ tail = rest ∧
        i = .diff ((b0.toNat : Int) / 16 % 4 - 2) ((b0.toNat : Int) / 4 % 4 - 2) ((b0.toNat : Int) % 4 - 2)) ∨
      (tail = rest ∧ ∃ k : Slot, b0.toNat = k.val ∧ i = .index k) := by
  cases hc : classify b0 with
  | rgb =>
    obtain rfl := classify_eq_iff.1 hc
    match tail, h with
    | r :: g :: b :: _, rfl => exact .inl ⟨rfl, r, g, b, rfl, rfl⟩
  | rgba =>
    obtain rfl := classify_eq_iff.1 hc
    match tail, h with
    | r :: g :: b :: a :: _, rfl => exact .inr (.inl ⟨rfl, r, g, b, a, rfl, rfl⟩)
  | run =>
    obtain ⟨htop, hfe, hff⟩ := classify_eq_iff.1 hc
    cases (decode_run_lead htop hfe hff tail).symm.trans h
    exact .inr (.inr (.inl ⟨⟨htop, hfe, hff⟩, rfl, rfl⟩))
  | luma =>
    have htop : b0.toNat / 64 = 2 := classify_eq_iff.1 hc
    cases tail with
    | nil => simp [decode, hc] at h
    | cons b1 tail =>
      cases (decode_luma_lead htop b1 tail).symm.trans h
      exact .inr (.inr (.inr (.inl ⟨htop, b1, rfl, rfl⟩)))
  | diff =>
    have htop : b0.toNat / 64 = 1 := classify_eq_iff.1 hc
    cases (decode_diff_lead htop tail).symm.trans h
    exact .inr (.inr (.inr (.inr (.inl ⟨htop, rfl, rfl⟩))))
  | index =>
    have hlt : b0.toNat < 64 := by
      have htop : b0.toNat / 64 = 0 := classify_eq_iff.1 hc
      omega
    cases (decode_index_lead (k := ⟨b0.toNat, hlt⟩) rfl tail).symm.trans h
    exact .inr (.inr (.inr (.inr (.inr ⟨rfl, _, rfl, rfl⟩))))

/-- A list with a lead byte is turned away exactly when it ends before the chunk does (rules R103, R105). -/
theorem decode_cons_eq_error_iff {b0 : Byte} {tail : List Byte} :
    (∃ e, decode (b0 :: tail) = .error e) ↔ (b0 :: tail).length < chunkLen b0 := by
  rw [chunkLen_eq, List.length_cons]
  cases hc : classify b0 with
  | run => simp [decode, hc]
  | diff => simp [decode, hc]
  | index => simp [decode, hc]
  | luma => cases tail <;> simp [decode, hc]
  | rgb =>
    match tail with
    | [] | [_] | [_, _] | _ :: _ :: _ :: _ => simp [decode, hc]
  | rgba =>
    match tail with
    | [] | [_] | [_, _] | [_, _, _] | _ :: _ :: _ :: _ :: _ => simp [decode, hc]

/-! ### The numbers of the bytes the encoder writes -/

/-- Fields that share no bit are put together by adding them. -/
theorem toNat_or_of_disjoint {x y : Byte} (k : Nat) (hx : x.toNat % 2 ^ k = 0) (hy : y.toNat < 2 ^ k) :
    (x ||| y).toNat = x.toNat + y.toNat := by
  obtain ⟨a, ha⟩ := Nat.dvd_of_mod_eq_zero hx
  rw [BitVec.toNat_or, ha, Nat.two_pow_add_eq_or_of_lt hy]

/-- A field moved up by bits it leaves room for is multiplied by their power of two. -/
theorem toNat_shiftLeft_of_fits {x : Byte} (k : Nat) (h : x.toNat * 2 ^ k < 256) :
    (x <<< k).toNat = x.toNat * 2 ^ k := by
  rw [BitVec.toNat_shiftLeft, Nat.shiftLeft_eq, Nat.mod_eq_of_lt h]

/-- A signed operand in its range is written as its distance from the low end (rule R102). -/
theorem toNat_biased {bias v : Int} (hlow : 0 ≤ v + bias) (hhigh : v + bias < 256) :
    ((biased bias v).toNat : Int) = v + bias := by
  rw [biased, BitVec.toNat_ofInt]
  omega

/-- RUN (rule R97). -/
theorem encode_run {n : Nat} (hlow : 1 ≤ n) (hhigh : n ≤ 62) :
    ∃ b0 : Byte, encode (.run n) = [b0] ∧ b0.toNat = 191 + n := by
  have hfield : (BitVec.ofNat 8 (n - 1)).toNat = n - 1 := by
    rw [BitVec.toNat_ofNat]
    omega
  have hlead : (0xC0 : Byte).toNat = 192 := rfl
  refine ⟨_, rfl, ?_⟩
  rw [toNat_or_of_disjoint 6 rfl (by omega)]
  omega

/-- LUMA (rule R96). -/
theorem encode_luma {dg drdg dbdg : Int} (hdg : -32 ≤ dg ∧ dg ≤ 31) (hdr : -8 ≤ drdg ∧ drdg ≤ 7)
    (hdb : -8 ≤ dbdg ∧ dbdg ≤ 7) :
    ∃ b0 b1 : Byte, encode (.luma dg drdg dbdg) = [b0, b1] ∧ (b0.toNat : Int) = 128 + (dg + 32) ∧
      (b1.toNat : Int) = 16 * (drdg + 8) + (dbdg + 8) := by
  have hg := toNat_biased (bias := 32) (v := dg) (by omega) (by omega)
  have hr := toNat_biased (bias := 8) (v := drdg) (by omega) (by omega)
  have hb := toNat_biased (bias := 8) (v := dbdg) (by omega) (by omega)
  have hlead : (0x80 : Byte).toNat = 128 := rfl
  have hr4 := toNat_shiftLeft_of_fits (x := biased 8 drdg) 4 (by omega)
  refine ⟨_, _, rfl, ?_, ?_⟩
  · rw [toNat_or_of_disjoint 6 rfl (by omega)]
    omega
  · rw [toNat_or_of_disjoint 4 (by omega) (by omega)]
    omega

/-- The four 2-bit fields of a byte are its digits to base 4. -/
theorem toNat_four_fields {t x y z : Byte} (ht : t.toNat % 64 = 0) (hx : x.toNat < 4) (hy : y.toNat < 4)
    (hz : z.toNat < 4) :
    (t ||| x <<< 4 ||| y <<< 2 ||| z).toNat = t.toNat + 16 * x.toNat + 4 * y.toNat + z.toNat := by
  have hx4 := toNat_shiftLeft_of_fits (x := x) 4 (by omega)
  have hy2 := toNat_shiftLeft_of_fits (x := y) 2 (by omega)
  have htx := toNat_or_of_disjoint (x := t) (y := x <<< 4) 6 ht (by omega)
  have htxy := toNat_or_of_disjoint (x := t ||| x <<< 4) (y := y <<< 2) 4 (by omega) (by omega)
  rw [toNat_or_of_disjoint 2 (by omega) (by omega)]
  omega

/-- DIFF (rule R95). -/
theorem encode_diff {dr dg db : Int} (hdr : -2 ≤ dr ∧ dr ≤ 1) (hdg : -2 ≤ dg ∧ dg ≤ 1) (hdb : -2 ≤ db ∧ db ≤ 1) :
    ∃ b0 : Byte, encode (.diff dr dg db) = [b0] ∧
      (b0.toNat : Int) = 64 + 16 * (dr + 2) + 4 * (dg + 2) + (db + 2) := by
  have hr := toNat_biased (bias := 2) (v := dr) (by omega) (by omega)
  have hg := toNat_biased (bias := 2) (v := dg) (by omega) (by omega)
  have hb := toNat_biased (bias := 2) (v := db) (by omega) (by omega)
  have hlead : ((0x40 : Nat) : Byte).toNat = 64 := rfl
  refine ⟨_, rfl, ?_⟩
  rw [toNat_four_fields rfl (by omega) (by omega) (by omega), hlead]
  omega

/-- INDEX (rule R94). -/
theorem encode_index (k : Slot) : ∃ b0 : Byte, encode (.index k) = [b0] ∧ b0.toNat = k.val := by
  have hfield : (BitVec.ofNat 8 k.val).toNat = k.val := by
    rw [BitVec.toNat_ofNat]
    omega
  have hlead : (0x00 : Byte).toNat = 0 := rfl
  refine ⟨_, rfl, ?_⟩
  rw [toNat_or_of_disjoint 6 rfl (by omega)]
  omega

/-! ### Well-formed operands -/

theorem wf_run_iff {n : Nat} : (Instr.run n).wf = true ↔ 1 ≤ n ∧ n ≤ 62 := by simp [Instr.wf]

theorem wf_luma_iff {dg drdg dbdg : Int} :
    (Instr.luma dg drdg dbdg).wf = true ↔
      (-32 ≤ dg ∧ dg ≤ 31) ∧ (-8 ≤ drdg ∧ drdg ≤ 7) ∧ (-8 ≤ dbdg ∧ dbdg ≤ 7) := by
  simp [Instr.wf, inRange, and_assoc]

theorem wf_diff_iff {dr dg db : Int} :
    (Instr.diff dr dg db).wf = true ↔ (-2 ≤ dr ∧ dr ≤ 1) ∧ (-2 ≤ dg ∧ dg ≤ 1) ∧ (-2 ≤ db ∧ db ≤ 1) := by
  simp [Instr.wf, inRange, and_assoc]

end Sys2Proof
end

