-- ==== Sys2Proof/Proofs/Encoding.lean ====
section
/-! SUPPORT. The statements about the encoding of chunks (O1 to O7), from the two readings of the formats in
Proofs/ChunkBytes.lean. -/

namespace Sys2Proof

/-! ### Round trip -/

theorem decode_encode_run {n : Nat} (hlow : 1 ≤ n) (hhigh : n ≤ 62) (rest : List Byte) :
    decode (encode (.run n) ++ rest) = .ok (.run n, rest) := by
  obtain ⟨b0, hbytes, hb0⟩ := encode_run hlow hhigh
  obtain ⟨htop, hfe, hff⟩ := (run_lead_iff (b := b0)).2 (by omega)
  have hn : b0.toNat % 64 + 1 = n := by omega
  rw [hbytes, List.singleton_append, decode_run_lead htop hfe hff, hn]

theorem decode_encode_luma {dg drdg dbdg : Int} (hdg : -32 ≤ dg ∧ dg ≤ 31) (hdr : -8 ≤ drdg ∧ drdg ≤ 7)
    (hdb : -8 ≤ dbdg ∧ dbdg ≤ 7) (rest : List Byte) :
    decode (encode (.luma dg drdg dbdg) ++ rest) = .ok (.luma dg drdg dbdg, rest) := by
  obtain ⟨b0, b1, hbytes, hb0, hb1⟩ := encode_luma hdg hdr hdb
  have hg : (b0.toNat : Int) % 64 - 32 = dg := by omega
  have hr : (b1.toNat : Int) / 16 - 8 = drdg := by omega
  have hb : (b1.toNat : Int) % 16 - 8 = dbdg := by omega
  rw [hbytes, List.cons_append, List.singleton_append, decode_luma_lead (by omega), hg, hr, hb]

theorem decode_encode_diff {dr dg db : Int} (hdr : -2 ≤ dr ∧ dr ≤ 1) (hdg : -2 ≤ dg ∧ dg ≤ 1) (hdb : -2 ≤ db ∧ db ≤ 1)
    (rest : List Byte) : decode (encode (.diff dr dg db) ++ rest) = .ok (.diff dr dg db, rest) := by
  obtain ⟨b0, hbytes, hb0⟩ := encode_diff hdr hdg hdb
  have hr : (b0.toNat : Int) / 16 % 4 - 2 = dr := by omega
  have hg : (b0.toNat : Int) / 4 % 4 - 2 = dg := by omega
  have hb : (b0.toNat : Int) % 4 - 2 = db := by omega
  rw [hbytes, List.singleton_append, decode_diff_lead (by omega), hr, hg, hb]

theorem decode_encode_index (k : Slot) (rest : List Byte) :
    decode (encode (.index k) ++ rest) = .ok (.index k, rest) := by
  obtain ⟨b0, hbytes, hb0⟩ := encode_index k
  rw [hbytes, List.singleton_append, decode_index_lead hb0]

/-- Settles O1, chunk type by chunk type: the operands are read back from the numbers of the bytes. -/
theorem decodeOfEncodedChunk : Obligations.DecodeOfEncodedChunk := by
  intro i rest hwf
  cases i with
  | rgb r g b => exact decode_rgb_lead r g b rest
  | rgba r g b a => exact decode_rgba_lead r g b a rest
  | run n =>
    obtain ⟨hlow, hhigh⟩ := wf_run_iff.1 hwf
    exact decode_encode_run hlow hhigh rest
  | luma dg drdg dbdg =>
    obtain ⟨hdg, hdr, hdb⟩ := wf_luma_iff.1 hwf
    exact decode_encode_luma hdg hdr hdb rest
  | diff dr dg db =>
    obtain ⟨hdr, hdg, hdb⟩ := wf_diff_iff.1 hwf
    exact decode_encode_diff hdr hdg hdb rest
  | index k => exact decode_encode_index k rest

/-! ### The bytes read are the bytes of the chunk -/

theorem run_of_lead_reencodes {b0 : Byte} (h : 192 ≤ b0.toNat ∧ b0.toNat ≤ 253) :
    (Instr.run (b0.toNat % 64 + 1)).wf = true ∧ encode (.run (b0.toNat % 64 + 1)) = [b0] := by
  have hlow : 1 ≤ b0.toNat % 64 + 1 := by omega
  have hhigh : b0.toNat % 64 + 1 ≤ 62 := by omega
  obtain ⟨c0, hbytes, hc0⟩ := encode_run hlow hhigh
  obtain rfl : c0 = b0 := BitVec.eq_of_toNat_eq (by omega)
  exact ⟨wf_run_iff.2 ⟨hlow, hhigh⟩, hbytes⟩

theorem luma_of_lead_reencodes {b0 : Byte} (htop : b0.toNat / 64 = 2) (b1 : Byte) {dg drdg dbdg : Int}
    (hdg : dg = (b0.toNat : Int) % 64 - 32) (hdr : drdg = (b1.toNat : Int) / 16 - 8)
    (hdb : dbdg = (b1.toNat : Int) % 16 - 8) :
    (Instr.luma dg drdg dbdg).wf = true ∧ encode (.luma dg drdg dbdg) = [b0, b1] := by
  have hg : -32 ≤ dg ∧ dg ≤ 31 := by omega
  have hr : -8 ≤ drdg ∧ drdg ≤ 7 := by omega
  have hb : -8 ≤ dbdg ∧ dbdg ≤ 7 := by omega
  obtain ⟨c0, c1, hbytes, hc0, hc1⟩ := encode_luma hg hr hb
  obtain rfl : c0 = b0 := BitVec.eq_of_toNat_eq (by omega)
  obtain rfl : c1 = b1 := BitVec.eq_of_toNat_eq (by omega)
  exact ⟨wf_luma_iff.2 ⟨hg, hr, hb⟩, hbytes⟩

theorem diff_of_lead_reencodes {b0 : Byte} (htop : b0.toNat / 64 = 1) {dr dg db : Int}
    (hdr : dr = (b0.toNat : Int) / 16 % 4 - 2) (hdg : dg = (b0.toNat : Int) / 4 % 4 - 2)
    (hdb : db = (b0.toNat : Int) % 4 - 2) : (Instr.diff dr dg db).wf = true ∧ encode (.diff dr dg db) = [b0] := by
  have hr : -2 ≤ dr ∧ dr ≤ 1 := by omega
  have hg : -2 ≤ dg ∧ dg ≤ 1 := by omega
  have hb : -2 ≤ db ∧ db ≤ 1 := by omega
  obtain ⟨c0, hbytes, hc0⟩ := encode_diff hr hg hb
  obtain rfl : c0 = b0 := BitVec.eq_of_toNat_eq (by omega)
  exact ⟨wf_diff_iff.2 ⟨hr, hg, hb⟩, hbytes⟩

theorem index_of_lead_reencodes {b0 : Byte} {k : Slot} (hk : b0.toNat = k.val) : encode (.index k) = [b0] := by
  obtain ⟨c0, hbytes, hc0⟩ := encode_index k
  obtain rfl : c0 = b0 := BitVec.eq_of_toNat_eq (by omega)
  exact hbytes

/-- Settles O2, by the class of the lead byte: the fields of its bytes are in range and encode to the same numbers. -/
theorem decodedBytesReencode : Obligations.DecodedBytesReencode := by
  intro bytes i rest h
  cases bytes with
  | nil => contradiction
  | cons b0 tail =>
    obtain ⟨rfl, r, g, b, rfl, rfl⟩ | ⟨rfl, r, g, b, a, rfl, rfl⟩ | ⟨hlead, rfl, rfl⟩ | ⟨htop, b1, rfl, rfl⟩ |
      ⟨htop, rfl, rfl⟩ | ⟨rfl, k, hk, rfl⟩ := decode_cons_eq_ok_cases h
    · exact ⟨rfl, rfl⟩
    · exact ⟨rfl, rfl⟩
    · obtain ⟨hwf, hbytes⟩ := run_of_lead_reencodes (run_lead_iff.1 hlead)
      exact ⟨hwf, by rw [hbytes, List.singleton_append]⟩
    · obtain ⟨hwf, hbytes⟩ := luma_of_lead_reencodes htop b1 rfl rfl rfl
      exact ⟨hwf, by rw [hbytes, List.cons_append, List.singleton_append]⟩
    · obtain ⟨hwf, hbytes⟩ := diff_of_lead_reencodes htop rfl rfl rfl
      exact ⟨hwf, by rw [hbytes, List.singleton_append]⟩
    · exact ⟨rfl, by rw [index_of_lead_reencodes hk, List.singleton_append]⟩

/-! ### Lengths and tags -/

/-- Settles O6, by whether there is a lead byte. -/
theorem onlyCutOffBytesRejected : Obligations.OnlyCutOffBytesRejected := by
  intro bytes
  cases bytes with
  | nil => simp [decode]
  | cons b0 tail => simpa using decode_cons_eq_error_iff (b0 := b0) (tail := tail)

/-- Settles O3: the encoding is as long as `chunkLen` says, and `b0[7:6]` is the quotient by 64. -/
theorem chunkLengthFromLeadByte : Obligations.ChunkLengthFromLeadByte := by
  intro b0 tail i rest h
  rw [Machine.encode_length_of_decode h, chunkLen, bits_seven_six]

/-- Settles O4: a RUN is read only from a lead byte below the two tags, and its length stays below 63 for that. -/
theorem exactTagsBeforeRun : Obligations.ExactTagsBeforeRun := by
  refine ⟨decode_rgb_lead, decode_rgba_lead, fun b0 tail n rest h => ?_⟩
  obtain ⟨hwf, -⟩ := decodedBytesReencode _ _ _ h
  obtain ⟨-, r, g, b, -, hi⟩ | ⟨-, r, g, b, a, -, hi⟩ | ⟨⟨-, hfe, hff⟩, -⟩ | ⟨-, b1, -, hi⟩ | ⟨-, -, hi⟩ |
    ⟨-, k, -, hi⟩ := decode_cons_eq_ok_cases h
  case inr.inr.inl => exact ⟨hfe, hff, wf_run_iff.1 hwf⟩
  all_goals cases hi

/-! ### The opcode table -/

/-- The mask `0xC0` leaves the two top bits, and no others, for a row to compare with its pattern. -/
theorem and_top_mask_eq_iff {b : Byte} {q : Nat} (hq : q < 4) :
    b &&& (0xC0 : Byte) = BitVec.ofNat 8 (64 * q) ↔ b.toNat / 64 = q := by
  have hshift : b &&& (0xC0 : Byte) = (b >>> 6) <<< 6 := by
    ext i hi
    interval_cases i <;> simp
  have hlt := b.isLt
  rw [hshift, ← BitVec.toNat_inj, BitVec.toNat_shiftLeft, BitVec.toNat_ushiftRight, BitVec.toNat_ofNat,
    Nat.shiftLeft_eq, Nat.shiftRight_eq_div_pow]
  omega

theorem admits_iff {row : OpcodeRow} {b : Byte} :
    row.admits b = true ↔ b &&& row.mask = row.pattern ∧ b ∉ row.exclude := by
  simp [OpcodeRow.admits]

/-- A row of the table admits exactly the lead bytes of its class. -/
theorem admits_iff_classify {row : OpcodeRow} (hrow : row ∈ opcodeTable) (b : Byte) :
    row.admits b = true ↔ row.cls = classify b := by
  have hexact : b &&& 0xFF = b := BitVec.and_allOnes
  have hnone : b ∉ ([] : List Byte) := List.not_mem_nil
  rw [admits_iff, eq_comm (b := classify b), classify_eq_iff]
  simp only [opcodeTable, List.mem_cons, List.not_mem_nil, or_false] at hrow
  obtain rfl | rfl | rfl | rfl | rfl | rfl := hrow
  · rw [hexact]
    exact and_iff_left hnone
  · rw [hexact]
    exact and_iff_left hnone
  · exact and_congr (and_top_mask_eq_iff (q := 3) (by decide)) (by simp)
  · exact (and_iff_left hnone).trans (and_top_mask_eq_iff (q := 2) (by decide))
  · exact (and_iff_left hnone).trans (and_top_mask_eq_iff (q := 1) (by decide))
  · exact (and_iff_left hnone).trans (and_top_mask_eq_iff (q := 0) (by decide))

/-- Settles O5: the rows that admit a byte are those of its class, and the table has one row for each class. -/
theorem leadByteHasOneClass : Obligations.LeadByteHasOneClass := by
  intro b
  have hrows : opcodeTable.filter (fun row => row.admits b) = opcodeTable.filter fun row => row.cls = classify b :=
    List.filter_congr fun row hrow => Bool.eq_iff_iff.2 (by simpa using admits_iff_classify hrow b)
  rw [hrows, chunkLen_eq]
  refine ⟨by cases classify b <;> rfl, fun row hrow hadmits => ?_⟩
  rw [← (admits_iff_classify hrow b).1 hadmits]
  clear hadmits
  revert row
  decide

/-- Settles O7, by evaluation. -/
theorem sampleChunkWords : Obligations.SampleChunkWords := ⟨rfl, rfl, rfl, rfl, rfl, rfl, rfl, rfl⟩

end Sys2Proof
end

