-- ==== Sys2Proof/Proofs/CacheHash.lean ====
section
/-! SUPPORT. The hash of the color cache (O31, rule R130): the bound of its sum, and the low 6 bits that decide it. -/

namespace Sys2Proof.Machine

/-- The sum of rule R130 is largest when each channel is 255: `255 * 26`. -/
theorem pixelHash_sum_le (p : Pixel) :
    p.r.toNat * 3 + p.g.toNat * 5 + p.b.toNat * 7 + p.a.toNat * 11 ≤ 6630 := by
  have hr := p.r.isLt
  have hg := p.g.isLt
  have hb := p.b.isLt
  have ha := p.a.isLt
  omega

/-- The low 6 bits of a product are those of the product of the low 6 bits. -/
theorem low_bits_mul_modEq (x k : Nat) : x % 64 * k % 64 ≡ x * k [MOD 64] :=
  (Nat.mod_modEq _ 64).trans ((Nat.mod_modEq x 64).mul_right k)

theorem pixelHash_val_eq_low_bits (p : Pixel) :
    (pixelHash p).val =
      (p.r.toNat % 64 * 3 % 64 + p.g.toNat % 64 * 5 % 64 + p.b.toNat % 64 * 7 % 64 + p.a.toNat % 64 * 11 % 64) % 64 := by
  have hsum := (((low_bits_mul_modEq p.r.toNat 3).add (low_bits_mul_modEq p.g.toNat 5)).add
    (low_bits_mul_modEq p.b.toNat 7)).add (low_bits_mul_modEq p.a.toNat 11)
  exact (pixelHash_val p).trans hsum.symm

/-- Settles O31: the hash is its sum modulo 64 by definition, a sum keeps its low 6 bits term by term, and the corner
values are evaluated. -/
theorem hashModulo64 : Obligations.HashModulo64 :=
  ⟨fun p => ⟨pixelHash_sum_le p, pixelHash_val p, pixelHash_val_eq_low_bits p⟩, rfl, rfl, rfl, rfl⟩

end Sys2Proof.Machine
end

