-- ==== Sys2Proof/Proofs/EncoderSteps.lean ====
section
/-! SUPPORT. The encoder's pixel step (O22 to O25, O27, O29). Whatever branch of rule R154 a pixel takes, the step
appends bytes to the stream and advances; `Appended` says what appending leaves, and composes. -/

namespace Sys2Proof.Machine

/-! ### Appending to the stream -/

theorem State.streamBytes_add (s : State) (a m n : Nat) :
    s.streamBytes a (m + n) = s.streamBytes a m ++ s.streamBytes (a + m) n := by
  induction m generalizing a with
  | zero => simp [State.streamBytes]
  | succ m ih => rw [Nat.succ_add, State.streamBytes, State.streamBytes, ih, Nat.succ_add_eq_add_succ, List.cons_append]

theorem StreamGrown.cfg_eq {s u : State} {k : Nat} (h : StreamGrown s u k) : u.cfg = s.cfg := by
  obtain ⟨-, -, -, -, -, -, -, hcfg⟩ := h.latches
  exact hcfg

/-- `u` is `s` after exactly `bytes` were appended to the stream: besides it, only `RUN_CNT` and the cache
may differ. -/
structure Appended (s u : State) (bytes : List Byte) : Prop extends StreamGrown s u bytes.length where
  written : u.streamBytes s.bsPtr.toNat bytes.length = bytes
  laterBytes : ∀ a, s.bsPtr.toNat + bytes.length ≤ a → u.streamByte a = s.streamByte a
  queues : QueuesKept s u
  previous : u.prev = s.prev

theorem Appended.refl (s : State) : Appended s s [] :=
  ⟨⟨RegistersKept.refl s, LatchesKept.refl s, rfl, rfl, rfl, fun _ _ => rfl⟩, rfl, fun _ _ => rfl, ⟨rfl, rfl, rfl⟩, rfl⟩

theorem appended_countRun (s : State) : Appended s (countRun s) [] :=
  ⟨streamGrown_countRun s, rfl, fun _ _ => rfl, ⟨rfl, rfl, rfl⟩, rfl⟩

theorem appended_cacheStore (s : State) (p : Pixel) : Appended s (s.cacheStore p) [] :=
  ⟨streamGrown_cacheStore s p, rfl, fun _ _ => rfl, ⟨rfl, rfl, rfl⟩, rfl⟩

theorem appended_emitted {bytes : List Byte} {s : State} (hfit : s.bsPtr.toNat + bytes.length < 2 ^ 32) :
    Appended s (emitted bytes s) bytes :=
  ⟨streamGrown_emitted hfit, streamBytes_emitted bytes s, streamByte_emitted_of_ge bytes s, ⟨rfl, rfl, rfl⟩, rfl⟩

theorem appended_afterFlush {s : State} (hfit : s.bsPtr.toNat + 1 < 2 ^ 32) :
    Appended s (afterFlush s) (runBytes s) where
  toStreamGrown := streamGrown_afterFlush hfit
  written := (streamBytes_congr_of_bs rfl _ _).trans (streamBytes_emitted (runBytes s) s)
  laterBytes := streamByte_emitted_of_ge (runBytes s) s
  queues := ⟨rfl, rfl, rfl⟩
  previous := rfl

theorem QueuesKept.trans {s t u : State} (h₁ : QueuesKept s t) (h₂ : QueuesKept t u) : QueuesKept s u := by
  simp_all [QueuesKept]

/-- What is appended later follows what was appended before and leaves it in place. -/
theorem Appended.trans {s u v : State} {xs ys : List Byte} (h₁ : Appended s u xs) (h₂ : Appended u v ys) :
    Appended s v (xs ++ ys) where
  toStreamGrown := List.length_append ▸ h₁.toStreamGrown.trans h₂.toStreamGrown
  written := by
    have hcursor := h₁.streamCursor
    have hxs : v.streamBytes s.bsPtr.toNat xs.length = xs :=
      (State.streamBytes_congr fun j hj => h₂.earlierBytes _ (by omega)).trans h₁.written
    rw [List.length_append, State.streamBytes_add, hxs, ← hcursor, h₂.written]
  laterBytes a ha := by
    have hcursor := h₁.streamCursor
    rw [List.length_append] at ha
    rw [h₂.laterBytes a (by omega), h₁.laterBytes a (by omega)]
  queues := h₁.queues.trans h₂.queues
  previous := h₂.previous.trans h₁.previous

theorem Appended.otherBytes {s u : State} {bytes : List Byte} (h : Appended s u bytes) (a : Nat)
    (ha : a < s.bsPtr.toNat ∨ s.bsPtr.toNat + bytes.length ≤ a) : u.streamByte a = s.streamByte a :=
  ha.elim (h.earlierBytes a) (h.laterBytes a)

/-- The advance ends a pixel step whose branch appended the pixel's bytes (rule R165). -/
theorem Appended.pixelEncoded {s u : State} {bytes : List Byte} (h : Appended s u bytes)
    (hlt : s.pxPtr.toNat < s.n.toNat) (p : Pixel) : PixelEncoded s (encAdvance p u) p bytes := by
  have hcursor : (encAdvance p u).pxPtr.toNat = s.pxPtr.toNat + 1 := by
    rw [encAdvance_pxPtr, h.pixelCursor, BitVec.toNat_add_of_lt (by simp; omega)]
    rfl
  refine ⟨?_, h.streamCursor, rfl, hcursor, h.otherBytes, fun j => ?_, h.registers, h.latches, h.queues⟩
  · exact (streamBytes_congr_of_bs (s := u) (t := encAdvance p u) rfl _ _).trans h.written
  · simp [State.pixelWord, h.pixels]

/-- Settles O22, by whether the bytes fit: what `Emit` leaves is the emitted state. -/
theorem emitAllOrNothing : Obligations.EmitAllOrNothing := by
  intro s bytes hcap
  split
  · next hfull => exact emit_eq_error_iff.2 ⟨hfull, rfl⟩
  · next hroom =>
    have h := appended_emitted (bytes := bytes) (s := s) (by omega)
    exact ⟨_, emit_eq_ok_iff.2 ⟨by omega, rfl⟩, h.written, h.streamCursor, h.otherBytes, h.registers,
      h.latches, h.queues, rfl, rfl, rfl, rfl, rfl⟩

/-! ### The branches of the pixel step -/

/-- The bytes of a pending run; none when no run is pending (rule R157). -/
def pendingBytes (s : State) : List Byte := if s.runCnt = 0 then [] else runBytes s

/-- The chunk of a pixel that is no run pixel: INDEX on a hit, else the chunk of the miss (rules R158 to R164). -/
def otherChunk (p : Pixel) (s : State) : Instr :=
  if s.cacheLookup (pixelHash p) = p then .index (pixelHash p) else encMissChunk p s.prev

/-- The cache write before that chunk: none on a hit (rules R158, R159). -/
def storedOnMiss (p : Pixel) (s : State) : State := if s.cacheLookup (pixelHash p) = p then s else s.cacheStore p

theorem storedOnMiss_of_hit {p : Pixel} {s : State} (h : s.cacheLookup (pixelHash p) = p) :
    storedOnMiss p s = s := if_pos h

theorem storedOnMiss_of_miss {p : Pixel} {s : State} (h : s.cacheLookup (pixelHash p) ≠ p) :
    storedOnMiss p s = s.cacheStore p := if_neg h

theorem pendingBytes_length_le (s : State) : (pendingBytes s).length ≤ 1 := by
  unfold pendingBytes
  split <;> simp

theorem appended_storedOnMiss (p : Pixel) (s : State) : Appended s (storedOnMiss p s) [] := by
  unfold storedOnMiss
  split
  · exact Appended.refl s
  · exact appended_cacheStore s p

theorem encOtherPixel_eq_emit (p : Pixel) (s : State) :
    encOtherPixel p s = emit (encode (otherChunk p s)) (storedOnMiss p s) := by
  unfold encOtherPixel otherChunk storedOnMiss
  split <;> rfl

theorem encPendingFlush_eq_error_iff {s : State} {st : Stop} :
    encPendingFlush s = .error st ↔
      s.runCnt ≠ 0 ∧ s.cfg.bsCap < s.bsPtr.toNat + 1 ∧ st = .error .capacity s := by
  unfold encPendingFlush
  split
  · next hrun => simp [hrun]
  · next hrun => rw [flushRun_eq_error_iff, and_iff_right hrun]

theorem encOtherPixel_eq_error_iff {p : Pixel} {s : State} {st : Stop} :
    encOtherPixel p s = .error st ↔
      s.cfg.bsCap < s.bsPtr.toNat + (encode (otherChunk p s)).length ∧ st = .error .capacity (storedOnMiss p s) := by
  have hstored := appended_storedOnMiss p s
  rw [encOtherPixel_eq_emit, emit_eq_error_iff, hstored.cfg_eq, hstored.streamCursor]
  rfl

theorem encRunPixel_eq_error_iff {s : State} {st : Stop} :
    encRunPixel s = .error st ↔
      runEnds (countRun s) = true ∧ s.cfg.bsCap < s.bsPtr.toNat + 1 ∧ st = .error .capacity (countRun s) := by
  unfold encRunPixel
  split
  · next hends => simp [hends, flushRun_eq_error_iff]
  · next hends => simp [hends]

theorem encPixel_eq_error_iff {p : Pixel} {s : State} {st : Stop} :
    encPixel p s = .error st ↔
      if p = s.prev then encRunPixel s = .error st
      else encPendingFlush s = .error st ∨ ∃ v, encPendingFlush s = .ok v ∧ encOtherPixel p v = .error st := by
  rw [encPixel, bind_eq_error_iff, or_iff_left (by simp), encClassify]
  split
  · rfl
  · exact bind_eq_error_iff

theorem EncoderReads.encPixelStep_eq {s : State} {p : Pixel} (h : EncoderReads s p) :
    encPixelStep s = encPixel p s := by
  obtain ⟨-, hlt, hn, -, hp⟩ := h
  rw [encPixelStep, if_pos (pixelsExist_pxPtr (hlt.trans_le hn)), hp]

/-! ### Run pixels -/

theorem countRun_runCnt_toNat {s : State} (h : s.runCnt.toNat ≤ 61) :
    (countRun s).runCnt.toNat = s.runCnt.toNat + 1 := by
  rw [countRun_runCnt, BitVec.toNat_add_of_lt (by simp; omega)]
  rfl

/-- The counted run is full or the pixel the last, as numbers. -/
theorem runEnds_countRun_iff {s : State} (h : s.runCnt.toNat ≤ 61) :
    runEnds (countRun s) = true ↔ s.runCnt.toNat = 61 ∨ s.pxPtr.toNat + 1 = s.n.toNat := by
  have hcount := countRun_runCnt_toNat h
  rw [runEnds_iff, ← BitVec.toNat_inj, hcount]
  simp

theorem runBytes_countRun {s : State} (h : s.runCnt.toNat ≤ 61) :
    runBytes (countRun s) = [0xC0 ||| BitVec.ofNat 8 s.runCnt.toNat] := by
  rw [runBytes, countRun_runCnt_toNat h]
  rfl

/-- The lead byte of a RUN chunk stays below the tags of RGB and RGBA (rules R93, R156). -/
theorem run_lead_lt_tags {m : Nat} (h : m ≤ 61) : 0xC0 ||| BitVec.ofNat 8 m < (0xFE : Byte) := by
  obtain ⟨b0, hb0, hval⟩ := encode_run (n := m + 1) (by omega) (by omega)
  obtain rfl : 0xC0 ||| BitVec.ofNat 8 m = b0 := List.head_eq_of_cons_eq hb0
  have htag : (0xFE : Byte).toNat = 254 := rfl
  rw [BitVec.lt_def]
  omega

theorem EncoderReads.encPixelStep_of_run {s u : State} (h : EncoderReads s s.prev) (hu : encRunPixel s = .ok u) :
    encPixelStep s = .ok (encAdvance s.prev u) := by
  rw [h.encPixelStep_eq, encPixel_eq_ok_iff]
  exact ⟨u, rfl, by rwa [if_pos rfl]⟩

/-- Settles O23: the branch of a run pixel that does not end its run counts it. -/
theorem runPixelCounted : Obligations.RunPixelCounted := by
  intro s hreads hrun hlast
  have hends : ¬runEnds (countRun s) = true := by
    rw [runEnds_countRun_iff (by omega)]
    omega
  have hcounted : encRunPixel s = .ok (countRun s) := by rw [encRunPixel_eq_ok_iff, if_neg hends]
  have hstep := hreads.encPixelStep_of_run hcounted
  obtain ⟨-, hlt, -⟩ := hreads
  exact ⟨_, hstep, (appended_countRun s).pixelEncoded hlt _, countRun_runCnt_toNat (by omega), rfl⟩

/-- Settles O24: the branch of a run pixel that ends its run flushes the counted run. -/
theorem runFlushedWhenFullOrLast : Obligations.RunFlushedWhenFullOrLast := by
  intro s hreads hrun hlast
  have hends := (runEnds_countRun_iff hrun).2 hlast
  refine ⟨run_lead_lt_tags hrun, ?_⟩
  split
  · next hroom =>
    have hflushed : encRunPixel s = .ok (afterFlush (countRun s)) := by
      rw [encRunPixel_eq_ok_iff, if_pos hends]
      exact ⟨hroom, rfl⟩
    have hstep := hreads.encPixelStep_of_run hflushed
    obtain ⟨-, hlt, -, hcap, -⟩ := hreads
    have happended := (appended_countRun s).trans (appended_afterFlush (s := countRun s) (hroom.trans_lt hcap))
    rw [runBytes_countRun hrun] at happended
    exact ⟨_, hstep, happended.pixelEncoded hlt _, rfl, rfl⟩
  · next hroom =>
    refine ⟨countRun s, ?_⟩
    rw [hreads.encPixelStep_eq, encPixel_eq_error_iff, if_pos rfl, encRunPixel_eq_error_iff]
    exact ⟨hends, by omega, rfl⟩

/-! ### Other pixels -/

section
variable {s : State} (hcap : s.cfg.bsCap < 2 ^ 32)
include hcap

theorem encPendingFlush_of_room (hroom : s.bsPtr.toNat + (pendingBytes s).length ≤ s.cfg.bsCap) :
    ∃ v, encPendingFlush s = .ok v ∧ Appended s v (pendingBytes s) ∧ v.runCnt = 0 ∧ v.cache = s.cache := by
  unfold pendingBytes at hroom ⊢
  split at hroom
  · next hrun =>
    rw [if_pos hrun]
    exact ⟨s, encPendingFlush_eq_ok_iff.2 (by rw [if_pos hrun]), Appended.refl s, hrun, rfl⟩
  · next hrun =>
    rw [if_neg hrun]
    rw [runBytes_length] at hroom
    exact ⟨afterFlush s, encPendingFlush_eq_ok_iff.2 (by rw [if_neg hrun]; exact ⟨hroom, rfl⟩),
      appended_afterFlush (by omega), rfl, rfl⟩

theorem encOtherPixel_of_room {p : Pixel} (hroom : s.bsPtr.toNat + (encode (otherChunk p s)).length ≤ s.cfg.bsCap) :
    ∃ u, encOtherPixel p s = .ok u ∧ Appended s u (encode (otherChunk p s)) ∧ u.runCnt = s.runCnt ∧
      u.cache = (storedOnMiss p s).cache := by
  have hstored := appended_storedOnMiss p s
  have hcursor : (storedOnMiss p s).bsPtr.toNat = s.bsPtr.toNat := hstored.streamCursor
  have hrun : (storedOnMiss p s).runCnt = s.runCnt := by
    unfold storedOnMiss
    split <;> rfl
  rw [encOtherPixel_eq_emit]
  exact ⟨_, emit_eq_ok_iff.2 ⟨by rwa [hstored.cfg_eq, hcursor], rfl⟩,
    hstored.trans (appended_emitted (by omega)), hrun, rfl⟩

end

/-- The choice of the chunk and the cache write depend on the cache and `PREV` alone. -/
theorem otherChunk_congr {s v : State} (hcache : v.cache = s.cache) (hprev : v.prev = s.prev) (p : Pixel) :
    otherChunk p v = otherChunk p s := by
  have hslot : v.cacheLookup (pixelHash p) = s.cacheLookup (pixelHash p) := by
    rw [State.cacheLookup, hcache, State.cacheLookup]
  rw [otherChunk, otherChunk, hslot, hprev]

theorem storedOnMiss_cache_congr {s v : State} (hcache : v.cache = s.cache) (p : Pixel) :
    (storedOnMiss p v).cache = (storedOnMiss p s).cache := by
  unfold storedOnMiss State.cacheLookup
  rw [hcache]
  split
  · exact hcache
  · simp [hcache]

section
variable {s : State} {p : Pixel} (hreads : EncoderReads s p) (hne : p ≠ s.prev)
include hreads hne

/-- A pixel that is no run pixel emits the pending run and its chunk, where both fit (rules R157 to R164). -/
theorem encPixelStep_other_of_room
    (hroom : s.bsPtr.toNat + (pendingBytes s ++ encode (otherChunk p s)).length ≤ s.cfg.bsCap) :
    ∃ t, encPixelStep s = .ok t ∧ PixelEncoded s t p (pendingBytes s ++ encode (otherChunk p s)) ∧ t.runCnt = 0 ∧
      t.cache = (storedOnMiss p s).cache := by
  have hstep := hreads.encPixelStep_eq
  obtain ⟨-, hlt, -, hcap, -⟩ := hreads
  rw [List.length_append] at hroom
  obtain ⟨v, hv, hflush, hrun, hcache⟩ := encPendingFlush_of_room hcap (by omega)
  have hcursor := hflush.streamCursor
  have hcfg := hflush.cfg_eq
  have hchunk := otherChunk_congr hcache hflush.previous p
  obtain ⟨u, hu, hother, hrun', hcache'⟩ :=
    encOtherPixel_of_room (s := v) (p := p) (by rwa [hcfg]) (by rw [hcfg, hchunk]; omega)
  rw [hchunk] at hother
  refine ⟨encAdvance p u, ?_, (hflush.trans hother).pixelEncoded hlt p, hrun'.trans hrun,
    hcache'.trans (storedOnMiss_cache_congr hcache p)⟩
  rw [hstep, encPixel_eq_ok_iff]
  exact ⟨u, rfl, by rw [if_neg hne]; exact ⟨v, hv, hu⟩⟩

/-- It raises CAPACITY where they do not: at the flush, or at the chunk (rules R152, R286). -/
theorem encPixelStep_other_of_no_room
    (hfull : ¬s.bsPtr.toNat + (pendingBytes s ++ encode (otherChunk p s)).length ≤ s.cfg.bsCap) :
    ∃ u, encPixelStep s = .error (.error .capacity u) := by
  have hstep := hreads.encPixelStep_eq
  obtain ⟨-, -, -, hcap, -⟩ := hreads
  rw [List.length_append] at hfull
  simp only [hstep, encPixel_eq_error_iff, if_neg hne]
  by_cases hroom : s.bsPtr.toNat + (pendingBytes s).length ≤ s.cfg.bsCap
  · obtain ⟨v, hv, hflush, -, hcache⟩ := encPendingFlush_of_room hcap hroom
    have hcursor := hflush.streamCursor
    have hcfg := hflush.cfg_eq
    refine ⟨storedOnMiss p v, .inr ⟨v, hv, encOtherPixel_eq_error_iff.2 ⟨?_, rfl⟩⟩⟩
    rw [otherChunk_congr hcache hflush.previous, hcfg]
    omega
  · by_cases hrun : s.runCnt = 0
    · have hnone : (pendingBytes s).length = 0 := by rw [pendingBytes, if_pos hrun, List.length_nil]
      refine ⟨storedOnMiss p s, .inr ⟨s, ?_, encOtherPixel_eq_error_iff.2 ⟨by omega, rfl⟩⟩⟩
      rw [encPendingFlush_eq_ok_iff, if_pos hrun]
    · have := pendingBytes_length_le s
      exact ⟨s, .inl (encPendingFlush_eq_error_iff.2 ⟨hrun, by omega, rfl⟩)⟩

end

/-- Settles O25: on a hit the chunk is INDEX and nothing is stored. -/
theorem cacheHitEmitsIndex : Obligations.CacheHitEmitsIndex := by
  intro s p hreads hne _ hhit
  have hchunk : encode (otherChunk p s) = [BitVec.ofNat 8 (pixelHash p).val] := by
    simp [otherChunk, hhit, encode]
  intro run bytes
  have hbytes : bytes = pendingBytes s ++ encode (otherChunk p s) := hchunk ▸ rfl
  rw [hbytes]
  split
  · next hroom => simpa only [storedOnMiss_of_hit hhit] using encPixelStep_other_of_room hreads hne hroom
  · next hfull => exact encPixelStep_other_of_no_room hreads hne hfull

/-! ### Errors -/

/-- A flush moves the stream cursor by one byte at most, wrap included. -/
theorem bsPtr_le_of_encPendingFlush {s v : State} (h : encPendingFlush s = .ok v) :
    v.bsPtr.toNat ≤ s.bsPtr.toNat + 1 ∧ v.cfg = s.cfg := by
  rw [encPendingFlush_eq_ok_iff] at h
  split at h
  · subst h
    exact ⟨Nat.le_succ _, rfl⟩
  · obtain ⟨-, rfl⟩ := h
    exact ⟨(BitVec.toNat_add _ _).trans_le (Nat.mod_le _ _), rfl⟩

/-- Settles O27, by the branch that raises: a run is one byte and any other chunk at most five. -/
theorem encoderStepErrorIsCapacity : Obligations.EncoderStepErrorIsCapacity := by
  intro s u c h
  have hexists : s.pixelsExist s.pxPtr.toNat 1 = true := by
    by_contra hout
    simp [encPixelStep, hout] at h
  rw [encPixelStep, if_pos hexists, encPixel_eq_error_iff] at h
  split at h
  · obtain ⟨-, hfull, hstop⟩ := encRunPixel_eq_error_iff.1 h
    exact ⟨(Stop.error.inj hstop).1, by omega⟩
  · obtain h | ⟨v, hv, h⟩ := h
    · obtain ⟨-, hfull, hstop⟩ := encPendingFlush_eq_error_iff.1 h
      exact ⟨(Stop.error.inj hstop).1, by omega⟩
    · obtain ⟨hfull, hstop⟩ := encOtherPixel_eq_error_iff.1 h
      obtain ⟨hcursor, hcfg⟩ := bsPtr_le_of_encPendingFlush hv
      have hlen := encode_length_le_five (otherChunk (s.pixelAt s.pxPtr.toNat) v)
      rw [hcfg] at hfull
      exact ⟨(Stop.error.inj hstop).1, by omega⟩

/-! ### Channel count and color space -/

/-- The state with another latched channel count and color space. -/
def withMetadata (c d : Byte) (s : State) : State := { s with hdrC := c, hdrS := d }

section
variable (c d : Byte) {p : Pixel} {s u : State}

theorem encRunPixel_withMetadata (h : encRunPixel s = .ok u) :
    encRunPixel (withMetadata c d s) = .ok (withMetadata c d u) := by
  rw [encRunPixel_eq_ok_iff] at h ⊢
  have hends : runEnds (countRun (withMetadata c d s)) = runEnds (countRun s) := rfl
  rw [hends]
  split at h
  · next hr =>
    obtain ⟨hroom, rfl⟩ := h
    rw [if_pos hr]
    exact ⟨hroom, rfl⟩
  · next hr =>
    subst h
    rw [if_neg hr]
    rfl

theorem encPendingFlush_withMetadata (h : encPendingFlush s = .ok u) :
    encPendingFlush (withMetadata c d s) = .ok (withMetadata c d u) := by
  rw [encPendingFlush_eq_ok_iff] at h ⊢
  have hrun : (withMetadata c d s).runCnt = s.runCnt := rfl
  rw [hrun]
  split at h
  · next hr =>
    subst h
    rw [if_pos hr]
  · next hr =>
    obtain ⟨hroom, rfl⟩ := h
    rw [if_neg hr]
    exact ⟨hroom, rfl⟩

theorem encOtherPixel_withMetadata (h : encOtherPixel p s = .ok u) :
    encOtherPixel p (withMetadata c d s) = .ok (withMetadata c d u) := by
  have hstored : storedOnMiss p (withMetadata c d s) = withMetadata c d (storedOnMiss p s) := by
    by_cases hhit : s.cacheLookup (pixelHash p) = p
    · rw [storedOnMiss_of_hit hhit]
      exact storedOnMiss_of_hit hhit
    · rw [storedOnMiss_of_miss hhit]
      exact storedOnMiss_of_miss hhit
  rw [encOtherPixel_eq_emit, emit_eq_ok_iff] at h ⊢
  obtain ⟨hroom, rfl⟩ := h
  rw [hstored]
  exact ⟨hroom, rfl⟩

theorem encPixel_withMetadata (h : encPixel p s = .ok u) :
    encPixel p (withMetadata c d s) = .ok (withMetadata c d u) := by
  rw [encPixel_eq_ok_iff] at h ⊢
  obtain ⟨w, rfl, hw⟩ := h
  refine ⟨withMetadata c d w, rfl, ?_⟩
  have hprev : (withMetadata c d s).prev = s.prev := rfl
  rw [hprev]
  split at hw
  · next hp =>
    rw [if_pos hp]
    exact encRunPixel_withMetadata c d hw
  · next hp =>
    obtain ⟨v, hv, hw⟩ := hw
    rw [if_neg hp]
    exact ⟨_, encPendingFlush_withMetadata c d hv, encOtherPixel_withMetadata c d hw⟩

end

/-- Settles O29: no branch of the pixel step reads the two fields, and each passes them on. -/
theorem headerMetadataDoesNotAffectPixels : Obligations.HeaderMetadataDoesNotAffectPixels := by
  intro s t c d h
  obtain ⟨hlt, hpixel⟩ := encPixelStep_eq_ok_iff.1 h
  exact encPixelStep_eq_ok_iff.2 ⟨hlt, encPixel_withMetadata c d hpixel⟩

end Sys2Proof.Machine
end

