-- ==== Sys2Proof/Proofs/MissChunk.lean ====
section
/-! SUPPORT. The chunk the encoder chooses on a miss: its bytes (O26) and the pixel it decodes to (O30). The choice is
the first of DIFF, LUMA and RGB whose operands are in range when the alpha is `PREV`'s, else RGBA (`encMissChunk_eq`). -/

namespace Sys2Proof.Machine

/-! ### The choice -/

/-- The wrapped differences of a pixel from `PREV` as a DIFF chunk, in range or not (rules R160, R161). -/
def diffChunk (p prev : Pixel) : Instr := .diff (d8 p.r prev.r) (d8 p.g prev.g) (d8 p.b prev.b)

/-- The same as a LUMA chunk (rules R160, R162). -/
def lumaChunk (p prev : Pixel) : Instr :=
  .luma (d8 p.g prev.g) (d8 p.r prev.r - d8 p.g prev.g) (d8 p.b prev.b - d8 p.g prev.g)

theorem encMissChunk_eq (p prev : Pixel) :
    encMissChunk p prev =
      if p.a = prev.a then
        if (diffChunk p prev).wf then diffChunk p prev
        else if (lumaChunk p prev).wf then lumaChunk p prev
        else .rgb p.r p.g p.b
      else .rgba p.r p.g p.b p.a := rfl

theorem encMissChunk_wf (p prev : Pixel) : (encMissChunk p prev).wf = true := by
  rw [encMissChunk_eq]
  split
  · split
    · next hdiff => exact hdiff
    · split
      · next hluma => exact hluma
      · rfl
  · rfl

/-! ### Its pixel -/

/-- The wrapped differences added back to `PREV` give the pixel (rule R11). -/
theorem deltaPixel_d8 {p prev : Pixel} (ha : p.a = prev.a) :
    deltaPixel prev (d8 p.r prev.r) (d8 p.g prev.g) (d8 p.b prev.b) = p := by
  simp [deltaPixel, ← ha]

theorem execLuma_d8 {p : Pixel} {s : State} (ha : p.a = s.prev.a) :
    exec (lumaChunk p s.prev) s = settle .decStep (commit p 2 s) := by
  rw [lumaChunk, exec, execLuma, Int.sub_add_cancel, Int.sub_add_cancel, deltaPixel_d8 ha]

theorem execDiff_d8 {p : Pixel} {s : State} (ha : p.a = s.prev.a) :
    exec (diffChunk p s.prev) s = settle .decStep (commit p 1 s) := by
  rw [diffChunk, exec, execDiff, deltaPixel_d8 ha]

/-- Whichever chunk was chosen, its execution commits the pixel. -/
theorem exec_encMissChunk (p : Pixel) (s : State) :
    exec (encMissChunk p s.prev) s = settle .decStep (commit p (encode (encMissChunk p s.prev)).length s) := by
  rw [encMissChunk_eq]
  split
  · next ha =>
    split
    · exact execDiff_d8 ha
    · split
      · exact execLuma_d8 ha
      · change settle .decStep (commit ⟨p.r, p.g, p.b, s.prev.a⟩ 4 s) = _
        rw [← ha]
        rfl
  · rfl

theorem pixelCommitted_committed {s : State} {len : Nat} (hfit : ChunkFits s len) (p : Pixel) :
    PixelCommitted s (committed p len s) p len := by
  obtain ⟨hstream, hpixel, -⟩ := hfit
  refine ⟨?_, ?_, rfl, ?_, ?_⟩
  · rw [pixelWord_committed, if_pos rfl]
  · exact (cacheLookup_cacheStore s p _).trans (if_pos rfl)
  · rw [committed_pxPtr, BitVec.toNat_add_of_lt (by simp; omega)]
    rfl
  · rw [committed_bsPtr, BitVec.toNat_add, BitVec.toNat_ofNat]
    omega

/-- Settles O30: the chosen chunk is in range by its test, and its execution commits the pixel. -/
theorem missChunkDecodesToItsPixel : Obligations.MissChunkDecodesToItsPixel := by
  intro s p ⟨hstream, hpixel, hn⟩
  have hlen := encode_length_le_five (encMissChunk p s.prev)
  refine ⟨encMissChunk_wf p s.prev, _, ?_, pixelCommitted_committed ⟨by omega, hpixel, hn⟩ p⟩
  rw [exec_encMissChunk, settle_commit_eq_next_iff]
  exact ⟨hpixel.trans_le hn, rfl⟩

/-! ### Its bytes -/

theorem eq_ofInt_of_toNat {b : Byte} {v : Int} (h : (b.toNat : Int) = v) : b = BitVec.ofInt 8 v := by
  rw [← h, BitVec.ofInt_natCast, BitVec.ofNat_toNat, BitVec.setWidth_eq]

theorem encode_diff_eq_ofInt {dr dg db : Int} (h : (Instr.diff dr dg db).wf = true) :
    encode (.diff dr dg db) = [BitVec.ofInt 8 (0x40 + (dr + 2) * 16 + (dg + 2) * 4 + (db + 2))] := by
  obtain ⟨hdr, hdg, hdb⟩ := wf_diff_iff.1 h
  obtain ⟨b0, hbytes, hval⟩ := encode_diff hdr hdg hdb
  rw [hbytes, List.singleton_inj]
  exact eq_ofInt_of_toNat (by omega)

theorem encode_luma_eq_ofInt {dg drdg dbdg : Int} (h : (Instr.luma dg drdg dbdg).wf = true) :
    encode (.luma dg drdg dbdg) =
      [BitVec.ofInt 8 (0x80 + (dg + 32)), BitVec.ofInt 8 ((drdg + 8) * 16 + (dbdg + 8))] := by
  obtain ⟨hdg, hdr, hdb⟩ := wf_luma_iff.1 h
  obtain ⟨b0, b1, hbytes, hval0, hval1⟩ := encode_luma hdg hdr hdb
  rw [hbytes, eq_ofInt_of_toNat hval0, List.cons_inj_right, List.singleton_inj]
  exact eq_ofInt_of_toNat (by omega)

/-- Settles O26: on a miss the chunk is the encoder's choice, and the pixel is stored at its hash. -/
theorem cacheMissEmitsFirstFittingChunk : Obligations.CacheMissEmitsFirstFittingChunk := by
  intro s p hreads hne _ hmiss run dr dg db chunk
  have hdiff : (diffChunk p s.prev).wf = true ↔ -2 ≤ dr ∧ dr ≤ 1 ∧ -2 ≤ dg ∧ dg ≤ 1 ∧ -2 ≤ db ∧ db ≤ 1 := by
    rw [diffChunk, wf_diff_iff, and_assoc, and_assoc]
    rfl
  have hluma : (lumaChunk p s.prev).wf = true ↔
      -32 ≤ dg ∧ dg ≤ 31 ∧ -8 ≤ dr - dg ∧ dr - dg ≤ 7 ∧ -8 ≤ db - dg ∧ db - dg ≤ 7 := by
    rw [lumaChunk, wf_luma_iff, and_assoc, and_assoc]
    rfl
  have hchunk : chunk = encode (otherChunk p s) := by
    rw [otherChunk, if_neg hmiss, encMissChunk_eq]
    simp only [chunk, ← hdiff, ← hluma]
    split
    · split
      · next h => exact (encode_diff_eq_ofInt h).symm
      · split
        · next h => exact (encode_luma_eq_ofInt h).symm
        · rfl
    · rfl
  have hbytes : run ++ chunk = pendingBytes s ++ encode (otherChunk p s) := hchunk ▸ rfl
  rw [hbytes]
  split
  · next hroom =>
    obtain ⟨t, hstep, hencoded, hrun, hcache⟩ := encPixelStep_other_of_room hreads hne hroom
    refine ⟨t, hstep, hencoded, hrun, fun k => ?_⟩
    rw [State.cacheLookup, hcache, storedOnMiss_of_miss hmiss]
    exact cacheLookup_cacheStore s p k
  · next hfull => exact encPixelStep_other_of_no_room hreads hne hfull

end Sys2Proof.Machine
end

