-- ==== Sys2Proof/Proofs/EncodePass.lean ====
section
/-! SUPPORT. An encode pass around its pixel steps: its start (O21), the step the pipeline makes at its turn (O33), its
tail step (O28), and the length of the stream it leaves (O52). -/

namespace Sys2Proof.Machine

/-! ### The start -/

/-- With no pass running, a write to register 0 is a `CTRL` write. -/
theorem hostMove_writeReg_zero {s : State} (hb : s.busy = false) (v : Word) :
    hostMove (.writeReg 0 v) s = ctrlWrite v s := by
  have hreg : regOf 0 = .ctrl := rfl
  simp [hostMove, hostWriteReg, hb, hreg]

/-- A START with MODE 0 that leaves an encode pass running: the header passed its checks, and this is the state. -/
theorem encStarted_of_ctrlWrite {s t : State} {v : Word} (hstart : v.getLsbD 0 = true) (hmode : v.getLsbD 1 = false)
    (h : ctrlWrite v s = .next t) (hp : t.pass = .enc) :
    headerError (encLatch s) = none ∧ t = encStarted (passReset { s with mode := .encode }) := by
  rw [ctrlWrite_eq_next_iff, if_pos hstart, hmode] at h
  obtain herr | hok := settle_pass_cases h
  · simp [hp] at herr
  · obtain ⟨hheader, -, ht⟩ := encStart_eq_ok_iff.1 hok
    exact ⟨hheader, ht⟩

/-- Settles O21, from what the start leaves: the header emitted at offset 0, on the reset pass state. -/
theorem encodeStartEstablishesPass : Obligations.EncodeStartEstablishesPass := by
  intro s t v hb hcfg hstart hmode h hp
  rw [hostMove_writeReg_zero hb] at h
  obtain ⟨hheader, rfl⟩ := encStarted_of_ctrlWrite hstart hmode h hp
  have hcount := latchCount_n_toNat (s := encLatch s) hcfg hheader
  have hemitted := appended_emitted (bytes := headerBytes (encLatch s)) (s := rewindStream (latchCount (encLatch s)))
    (by simp)
  exact ⟨rfl, rfl, rfl, rfl, hcount, hemitted.written, hemitted.laterBytes, rfl, rfl, rfl, rfl, clearedCache_get, rfl, rfl,
    rfl, HostValuesKept.refl s, rfl⟩

/-! ### The pipeline's turn -/

theorem step_of_pipelineTurn_tail {s : State} (h : s.pipelineTurn) :
    step s = pipelineMove { s with turns := s.turns.tail } := by
  obtain hs | ⟨rest, hs⟩ := h
  · have hsame : { s with turns := s.turns.tail } = s := by rw [hs, List.tail_nil, ← hs]
    rw [hsame, step_of_no_turn hs]
  · rw [hs, List.tail_cons]
    exact step_of_turns hs

theorem pipelineMove_of_enc {s : State} (h : s.pass = .enc) :
    pipelineMove s =
      if s.pxPtr < s.n then settle .encStep (encPixelStep s) else settle .encStep (encTail s) := by
  rw [pipelineMove, h]

theorem pipelineMove_of_dec {s : State} (h : s.pass = .dec) :
    pipelineMove s = if s.pxPtr < s.n then decChunkStep s else settle .decStep (decFinish s) := by
  rw [pipelineMove, h]

theorem pipelineMove_of_not_busy {s : State} (h : s.busy = false) : pipelineMove s = .next s := by
  unfold pipelineMove
  split
  · next hp => simp [busy_of_enc hp] at h
  · next hp => simp [busy_of_dec hp] at h
  all_goals rfl

/-- Settles O33, by the pass that runs. -/
theorem oneStepEnabled : Obligations.OneStepEnabled := by
  intro s hturn s'
  rw [step_of_pipelineTurn_tail hturn]
  exact ⟨fun hp hlt => (pipelineMove_of_enc (s := s') hp).trans (if_pos hlt),
    fun hp hend => (pipelineMove_of_enc (s := s') hp).trans (if_neg hend),
    fun hp hlt => (pipelineMove_of_dec (s := s') hp).trans (if_pos hlt),
    fun hp hend => (pipelineMove_of_dec (s := s') hp).trans (if_neg hend),
    fun hb => pipelineMove_of_not_busy (s := s') hb⟩

/-! ### The tail step -/

/-- Settles O28, by whether the end marker fits. -/
theorem encodeTail : Obligations.EncodeTail := by
  intro s hp hturn hend hcap
  obtain ⟨-, htail, -⟩ := oneStepEnabled s hturn
  rw [htail hp hend]
  split
  · next hroom =>
    have h := appended_emitted (bytes := endMarker) (s := s) (hroom.trans_lt hcap)
    have htail := (encTail_eq_ok_iff (s := { s with turns := s.turns.tail })).2 ⟨hroom, rfl⟩
    exact ⟨_, settle_eq_next_iff.2 (.inl htail), rfl, h.streamCursor, h.written, h.otherBytes, rfl,
      HostValuesKept.refl s, rfl, rfl⟩
  · next hfull =>
    have htail := (encTail_eq_error_iff (s := { s with turns := s.turns.tail })).2 ⟨Nat.lt_of_not_le hfull, rfl⟩
    exact ⟨_, settle_eq_next_iff.2 (.inr ⟨_, _, htail, rfl⟩), rfl, rfl, rfl⟩

/-- Settles O52: at the tail step no run is pending, so rule R171's bounds on the chunks are those of the invariant, and
the header and the end marker add 22 bytes. -/
theorem encodedLengthBounds : Obligations.EncodedLengthBounds := by
  intro s t h hp hturn hstep hdone
  have hi := h.encode hp
  obtain ⟨-, -, -, hcap⟩ := h.config
  have hmove : pipelineMove { s with turns := s.turns.tail } = .next t := step_of_pipelineTurn_tail hturn ▸ hstep
  have hend : ¬s.pxPtr < s.n := by
    obtain hsame | ⟨-, herr | ⟨-, hend⟩⟩ := pipelineMove_pass_cases hmove
    · simp [hp, hdone] at hsame
    · simp [hdone] at herr
    · exact hend
  obtain ⟨t', hstep', htail⟩ := encodeTail s hp hturn hend hcap
  obtain rfl : t' = t := Host.Outcome.next.inj (hstep'.symm.trans hstep)
  split at htail
  · obtain ⟨-, hlen, -⟩ := htail
    have hcursor : s.pxPtr = s.n := BitVec.eq_of_toNat_eq (le_antisymm hi.cursor (BitVec.not_lt.1 hend))
    have hrun : s.runCnt.toNat = 0 := by rw [hi.runEnd hcursor]; rfl
    have hlow := hi.streamLow
    have hupper := hi.upper
    have hlower := hi.lower
    rw [hcursor] at hupper hlower
    omega
  · obtain ⟨herr, -⟩ := htail
    simp [hdone] at herr

end Sys2Proof.Machine
end

