-- ==== Sys2Proof/Proofs/DecodePass.lean ====
section
/-! SUPPORT. A decode pass around its chunks: the fetch (O15, O16), the start (O18) and the finish step (O19). -/

namespace Sys2Proof.Machine

/-! ### The fetch -/

theorem failedWith_raiseError (site : ErrorSite) (c : QoiError) (s : State) :
    FailedWith (raiseError site c s) c.code := ⟨rfl, rfl, rfl⟩

/-- No byte left before `E`, or a chunk that would cross it, is TRUNCATED (rule R205). -/
theorem fetchChunk_truncated {s : State} (he : s.e.toNat ≤ s.cfg.bsCap)
    (hcut : s.e.toNat ≤ s.bsPtr.toNat ∨ s.e.toNat < s.bsPtr.toNat + chunkLenAt s) :
    fetchChunk s = .error (.error .truncated s) := by
  unfold fetchChunk
  split
  · rfl
  · next hleft =>
    have hlead : s.bytesExist s.bsPtr.toNat 1 = true := bytesExist_one_iff.2 (by omega)
    rw [if_pos hlead, if_pos (hcut.resolve_left hleft)]

theorem decChunkStep_truncated {s : State} (he : s.e.toNat ≤ s.cfg.bsCap)
    (hcut : s.e.toNat ≤ s.bsPtr.toNat ∨ s.e.toNat < s.bsPtr.toNat + chunkLenAt s) :
    ∃ t, decChunkStep s = .next t ∧ FailedWith t 6 :=
  ⟨_, decChunkStep_eq_next_iff.2 (.inr ⟨_, _, fetchChunk_truncated he hcut, rfl⟩),
    failedWith_raiseError _ .truncated s⟩

/-- Where the bytes of a well-formed chunk stand at `BS_PTR`, before `E`, the fetch reads it (rules R205, R206). -/
theorem fetchChunk_of_encoded {s : State} {i : Instr} (hwf : i.wf = true)
    (hbytes : s.streamBytes s.bsPtr.toNat (encode i).length = encode i)
    (hfit : s.bsPtr.toNat + (encode i).length ≤ s.e.toNat) (he : s.e.toNat ≤ s.cfg.bsCap) : fetchChunk s = .ok i := by
  have hdec : decode (encode i) = .ok (i, []) := by simpa using decodeOfEncodedChunk i [] hwf
  have hlen : chunkLenAt s = (encode i).length := by
    obtain ⟨m, hm⟩ := Nat.exists_eq_add_of_le' (encode_length_pos i)
    rw [← hbytes, hm, State.streamBytes] at hdec
    exact (encode_length_of_decode hdec).symm
  rw [fetchChunk_eq_ok_iff, hlen, hbytes]
  exact ⟨hfit, by omega, [], hdec⟩

theorem decChunkStep_of_fetchChunk {s : State} {i : Instr} (h : fetchChunk s = .ok i) : decChunkStep s = exec i s := by
  rw [decChunkStep, h]

/-- At its turn in DEC with pixels missing, the pipeline makes a chunk step. -/
theorem step_eq_decChunkStep {s : State} (hp : s.pass = .dec) (hturn : s.pipelineTurn) (hlt : s.pxPtr < s.n) :
    step s = decChunkStep { s with turns := s.turns.tail } := by
  obtain ⟨-, -, hchunk, -⟩ := oneStepEnabled s hturn
  exact hchunk hp hlt

/-- Settles O15, by the fetch of the chunk step. -/
theorem truncatedChunkFails : Obligations.TruncatedChunkFails := by
  intro s hp hturn hlt he hcut
  rw [step_eq_decChunkStep hp hturn hlt]
  exact decChunkStep_truncated (s := { s with turns := s.turns.tail }) he hcut

/-- Settles O16: the bytes that decode begin with those of the chunk, and the fetch reads it from them. -/
theorem stepExecutesDecodedChunk : Obligations.StepExecutesDecodedChunk := by
  intro s i rest hp hturn hlt he hdec
  obtain ⟨hwf, hbytes⟩ := decodedBytesReencode _ _ _ hdec
  have hlen : (encode i).length + rest.length = s.e.toNat - s.bsPtr.toNat := by
    rw [← List.length_append, hbytes, State.streamBytes_length]
  have hpos := encode_length_pos i
  rw [← hlen, State.streamBytes_add] at hbytes
  obtain ⟨hchunk, -⟩ := List.append_inj hbytes (by simp)
  have hread : { s with turns := s.turns.tail }.streamBytes s.bsPtr.toNat (encode i).length = encode i :=
    (streamBytes_congr_of_bs (s := s) (t := { s with turns := s.turns.tail }) rfl _ _).trans hchunk.symm
  have hfit : s.bsPtr.toNat + (encode i).length ≤ s.e.toNat := by omega
  rw [step_eq_decChunkStep hp hturn hlt]
  exact decChunkStep_of_fetchChunk (fetchChunk_of_encoded hwf hread hfit he)

/-! ### The start and the finish -/

theorem be32_streamWord (s : State) (a : Nat) : be32 (s.streamWord a) = s.streamBytes a 4 := by
  simp [be32, State.streamWord, State.streamBytes]

/-- A START with MODE 1 runs `DecStart` on the reset pass state (rule R253). -/
theorem ctrlWrite_decStart {v : Word} (hstart : v.getLsbD 0 = true) (hmode : v.getLsbD 1 = true) (s : State) :
    ctrlWrite v s = settle .start (decStart (passReset { s with mode := .decode })) := by
  simp [ctrlWrite, hstart, hmode, modeOfBit]

/-- Settles O18, from what the start leaves; `N` and `E` by the invariant of the pass it opens. -/
theorem decodeStartEstablishesPass : Obligations.DecodeStartEstablishesPass := by
  intro s t v hb hcfg hstart hmode h hp
  rw [hostMove_writeReg_zero hb, ctrlWrite_decStart hstart hmode] at h
  obtain herr | hok := settle_pass_cases h
  · simp [hp] at herr
  · obtain ⟨hhigh, hlow, -, hheader, hmarker, rfl⟩ := decStart_eq_ok_iff.1 hok
    have hinv := decInv_decStarted (s := passReset { s with mode := .decode }) hcfg rfl hlow hhigh hheader hmarker
    have hend := hinv.regionEnd
    exact ⟨(be32_streamWord s 4).symm, (be32_streamWord s 8).symm, rfl, rfl, hinv.pixels, rfl,
      Nat.eq_sub_of_add_eq hend, rfl, rfl, rfl, rfl, clearedCache_get, rfl, rfl, rfl, HostValuesKept.refl s, rfl, rfl⟩

/-- Settles O19, by whether the stream cursor stands at the end marker. -/
theorem decodeFinish : Obligations.DecodeFinish := by
  intro s hp hturn hend
  obtain ⟨-, -, -, hfinish, -⟩ := oneStepEnabled s hturn
  rw [hfinish hp hend]
  split
  · next hcursor =>
    have hok := (decFinish_eq_ok_iff (s := { s with turns := s.turns.tail })).2 ⟨hcursor, rfl⟩
    exact ⟨_, settle_eq_next_iff.2 (.inl hok), rfl, rfl, rfl, rfl, rfl, rfl, rfl, rfl, rfl, rfl, rfl⟩
  · next hcursor =>
    have herr := (decFinish_eq_error_iff (s := { s with turns := s.turns.tail })).2 ⟨hcursor, rfl⟩
    exact ⟨_, settle_eq_next_iff.2 (.inr ⟨_, _, herr, rfl⟩), failedWith_raiseError _ .endMarker _,
      HostValuesKept.refl s⟩

end Sys2Proof.Machine
end

