-- ==== Sys2Proof/Proofs/Chunks.lean ====
section
/-! SUPPORT. The six chunks when the decoder executes them (O8 to O14). Five of them commit one pixel
(`exec_eq_commit`), so what they do and leave unchanged is said once; RUN is said beside them. -/

namespace Sys2Proof.Machine

/-! ### The chunks of one pixel -/

/-- The pixel a chunk writes, computed in the state it is executed in (rules R207 to R212). -/
def chunkPixel (i : Instr) (s : State) : Pixel :=
  match i with
  | .rgb r g b => ⟨r, g, b, s.prev.a⟩
  | .rgba r g b a => ⟨r, g, b, a⟩
  | .run _ => s.prev
  | .luma dg drdg dbdg => deltaPixel s.prev (drdg + dg) dg (dbdg + dg)
  | .diff dr dg db => deltaPixel s.prev dr dg db
  | .index k => s.cacheLookup k

/-- Every chunk but RUN is one commit of its pixel (rule R213). -/
theorem exec_eq_commit {i : Instr} (hi : ∀ k, i ≠ .run k) (s : State) :
    exec i s = settle .decStep (commit (chunkPixel i s) (encode i).length s) := by
  cases i with
  | run k => exact absurd rfl (hi k)
  | rgb | rgba | luma | diff | index => rfl

theorem chunkFrame_committed (p : Pixel) (len : Nat) (s : State) : ChunkFrame s (committed p len s) p 1 := by
  refine ⟨RegistersKept.refl s, LatchesKept.refl s, ⟨rfl, rfl, rfl⟩, rfl, fun _ => rfl, fun j hj => ?_, fun x hx => ?_⟩
  · rw [pixelWord_committed, if_neg (by omega)]
  · exact (cacheLookup_cacheStore s p x).trans (if_neg hx)

/-- Where a chunk of one pixel has room, it commits its pixel and leaves the rest. -/
theorem exec_of_chunkFits {i : Instr} {s : State} (hi : ∀ k, i ≠ .run k) (hfit : ChunkFits s (encode i).length) :
    ∃ t, exec i s = .next t ∧ PixelCommitted s t (chunkPixel i s) (encode i).length ∧
      ChunkFrame s t (chunkPixel i s) 1 := by
  have hcommitted := pixelCommitted_committed hfit (chunkPixel i s)
  obtain ⟨-, hpixel, hn⟩ := hfit
  refine ⟨_, ?_, hcommitted, chunkFrame_committed _ _ s⟩
  rw [exec_eq_commit hi, settle_commit_eq_next_iff]
  exact ⟨hpixel.trans_le hn, rfl⟩

/-- Settles O14: what such a chunk answers is one commit, whose pixel becomes `PREV`. -/
theorem singlePixelChunkFrame : Obligations.SinglePixelChunkFrame := by
  intro i s t hi h
  rw [exec_eq_commit hi, settle_commit_eq_next_iff] at h
  obtain ⟨-, rfl⟩ := h
  refine ⟨chunkFrame_committed _ _ s, ?_, ?_⟩
  · exact (pixelWord_committed _ _ s _).trans (if_pos rfl)
  · exact (cacheLookup_cacheStore s _ _).trans (if_pos rfl)

/-- A channel reconstruction as numbers (rule R11). -/
theorem channelSum_addDelta (x : Byte) (d : Int) : ChannelSum x d (addDelta x d) := by
  rw [ChannelSum, addDelta, BitVec.toNat_add, BitVec.toNat_ofInt]
  omega

/-- A chunk cut off after its lead byte is TRUNCATED (rule R205). -/
theorem decChunkStep_of_chunkCutOff {s : State} {b0 : Byte} {len : Nat} (hlen : chunkLen b0 = len)
    (h : ChunkCutOff s b0 len) : ∃ t, decChunkStep s = .next t ∧ FailedWith t 6 := by
  obtain ⟨hlead, -, hcross, he⟩ := h
  refine decChunkStep_truncated he (.inr ?_)
  rwa [chunkLenAt, hlead, hlen]

/-! ### RUN -/

section
variable {s : State} {k : Nat}

/-- A run that fits in the pixels left is executed whole (rule R209). -/
theorem exec_run_of_fits (hk : s.pxPtr.toNat + k ≤ s.n.toNat) (hn : s.n.toNat ≤ s.cfg.pxCap) :
    exec (.run k) s = .next (afterRun k s) :=
  execRun_eq_next_iff.2 (.inr ⟨hk, hk.trans hn, rfl⟩)

theorem exec_run_overrun (hk : s.n.toNat < s.pxPtr.toNat + k) :
    exec (.run k) s = .next (raiseError .decStep .overrun s) :=
  execRun_eq_next_iff.2 (.inl ⟨hk, rfl⟩)

theorem afterRun_pxPtr_toNat (hk : s.pxPtr.toNat + k ≤ s.n.toNat) :
    (afterRun k s).pxPtr.toNat = s.pxPtr.toNat + k := by
  rw [afterRun_pxPtr, BitVec.toNat_add, BitVec.toNat_ofNat]
  omega

theorem afterRun_bsPtr_toNat (hfit : s.bsPtr.toNat + 1 ≤ s.e.toNat) :
    (afterRun k s).bsPtr.toNat = s.bsPtr.toNat + 1 := by
  rw [afterRun_bsPtr, BitVec.toNat_add_of_lt (by simp; omega)]
  rfl

theorem cacheLookup_afterRun (x : Slot) :
    (afterRun k s).cacheLookup x = if x = pixelHash s.prev then s.prev else s.cacheLookup x :=
  cacheLookup_cacheStore s s.prev x

theorem chunkFrame_afterRun : ChunkFrame s (afterRun k s) s.prev k := by
  refine ⟨RegistersKept.refl s, LatchesKept.refl s, ⟨rfl, rfl, rfl⟩, rfl, fun _ => rfl, fun j hj => ?_, fun x hx => ?_⟩
  · rw [pixelWord_afterRun, if_neg (by omega)]
  · rw [cacheLookup_afterRun, if_neg hx]

end

/-- An error of a decoder step draws the pixels below `N` and no others (rule R283). -/
theorem pixelWord_raiseError_decStep (c : QoiError) (s : State) {j : Nat} (hj : s.n.toNat ≤ j) :
    (raiseError .decStep c s).pixelWord j = s.pixelWord j := by
  rw [State.pixelWord, raiseError_decStep_px, Mem.read_drawBelow, if_neg (Nat.not_lt.2 hj), State.pixelWord]

end Sys2Proof.Machine

namespace Sys2Proof
open Machine

/-! ### The statements -/

/-- Settles O8, by the commit of its pixel. -/
theorem rgbChunk : Obligations.RgbChunk :=
  ⟨decode_rgb_lead, fun _ r g b hfit => exec_of_chunkFits (i := .rgb r g b) nofun hfit,
    fun _ hcut => decChunkStep_of_chunkCutOff rfl hcut⟩

/-- Settles O9, by the commit of its pixel. -/
theorem rgbaChunk : Obligations.RgbaChunk :=
  ⟨decode_rgba_lead, fun _ r g b a hfit => exec_of_chunkFits (i := .rgba r g b a) nofun hfit,
    fun _ hcut => decChunkStep_of_chunkCutOff rfl hcut⟩

/-- Settles O10, by whether the run fits in the pixels left. -/
theorem runChunk : Obligations.RunChunk := by
  refine ⟨fun b0 rest htop hfe hff => decode_run_lead htop hfe hff rest, fun s k hfit hk hn => ?_, fun s k hk => ?_⟩
  · refine ⟨_, exec_run_of_fits hk hn, fun j hj => ?_, ?_, rfl, afterRun_pxPtr_toNat hk, afterRun_bsPtr_toNat hfit,
      chunkFrame_afterRun⟩
    · rw [pixelWord_afterRun, if_pos (by omega)]
    · rw [cacheLookup_afterRun, if_pos rfl]
  · exact ⟨_, exec_run_overrun hk, failedWith_raiseError _ .overrun s, fun j hj => pixelWord_raiseError_decStep _ s hj⟩

/-- Settles O11: the pixel is `PREV` with its three channels moved. -/
theorem lumaChunk : Obligations.LumaChunk := by
  refine ⟨fun b0 b1 rest htop => decode_luma_lead htop b1 rest, fun s dg drdg dbdg hfit => ?_, fun s b0 htop hcut => ?_⟩
  · obtain ⟨t, hexec, hcommitted, hframe⟩ := exec_of_chunkFits (i := .luma dg drdg dbdg) nofun hfit
    exact ⟨t, chunkPixel (.luma dg drdg dbdg) s, hexec, channelSum_addDelta _ _, channelSum_addDelta _ _,
      channelSum_addDelta _ _, rfl, hcommitted, hframe⟩
  · exact decChunkStep_of_chunkCutOff (by rw [chunkLen_eq, classify_of_luma htop]) hcut

/-- Settles O12: the pixel is `PREV` with its three channels moved. -/
theorem diffChunk : Obligations.DiffChunk := by
  refine ⟨fun b0 rest htop => decode_diff_lead htop rest, fun s dr dg db hfit => ?_⟩
  obtain ⟨t, hexec, hcommitted, hframe⟩ := exec_of_chunkFits (i := .diff dr dg db) nofun hfit
  exact ⟨t, chunkPixel (.diff dr dg db) s, hexec, channelSum_addDelta _ _, channelSum_addDelta _ _,
    channelSum_addDelta _ _, rfl, hcommitted, hframe⟩

/-- Settles O13, by the commit of the slot's pixel. -/
theorem indexChunk : Obligations.IndexChunk :=
  ⟨fun _ rest _ _ hk => decode_index_lead hk.symm rest,
    fun _ k hfit => exec_of_chunkFits (i := .index k) nofun hfit⟩

end Sys2Proof
end

