-- ==== Sys2Proof/Proofs/EncodeRun.lean ====
section
/-! SUPPORT. An encode pass as a run of the machine, for the round trip (O54). A run that starts a pass and ends in DONE
is a start, one pixel step for each pixel and the tail step (`EncodesTo`); along it the stream only grows. -/

namespace Sys2Proof.Machine

/-! ### Runs -/

/-- A run of one step and more: the first step, then the rest. -/
theorem core_run_succ_eq_next_iff {M : Host.Core} {k : Nat} {s t : M.State} :
    M.run (k + 1) s = .next t ↔ ∃ u, M.step s = .next u ∧ M.run k u = .next t := by
  rw [Host.Core.run]
  cases M.step s <;> simp

theorem run_succ_eq_next_iff {k : Nat} {s t : State} :
    Host.Core.run core (k + 1) s = .next t ↔ ∃ u, step s = .next u ∧ Host.Core.run core k u = .next t :=
  core_run_succ_eq_next_iff (M := core)

/-- Some run leads from `s` to `t`. -/
def Reaches (s t : State) : Prop := ∃ m, Host.Core.run core m s = .next t

theorem Reaches.refl (s : State) : Reaches s s := ⟨0, rfl⟩

theorem Reaches.head {s u t : State} (hstep : step s = .next u) (h : Reaches u t) : Reaches s t := by
  obtain ⟨m, hm⟩ := h
  exact ⟨m + 1, run_succ_eq_next_iff.2 ⟨u, hstep, hm⟩⟩

theorem Reaches.of_step {s t : State} (hstep : step s = .next t) : Reaches s t := .head hstep (.refl t)

theorem Reaches.trans {s u t : State} (h₁ : Reaches s u) (h₂ : Reaches u t) : Reaches s t := by
  obtain ⟨m, hm⟩ := h₁
  induction m generalizing s with
  | zero => cases hm; exact h₂
  | succ m ih =>
    obtain ⟨v, hstep, hm⟩ := run_succ_eq_next_iff.1 hm
    exact .head hstep (ih hm)

/-- The step of a pending write to `CTRL`, with no pass running. -/
theorem step_of_ctrlWrite {s : State} {v : Word} {rest : List Turn} (hs : s.turns = .host (.writeReg 0 v) :: rest)
    (hb : s.busy = false) : step s = ctrlWrite v { s with turns := rest } := by
  rw [step_of_turns hs]
  exact hostMove_writeReg_zero (s := { s with turns := rest }) hb v

/-- With no pass running and no turn pending nothing changes (rule R296). -/
theorem run_of_not_busy {k : Nat} {s t : State} (hb : s.busy = false) (hs : s.turns = [])
    (h : Host.Core.run core k s = .next t) : t = s := by
  induction k with
  | zero => cases h; rfl
  | succ k ih =>
    obtain ⟨u, hstep, hrun⟩ := run_succ_eq_next_iff.1 h
    rw [step_of_no_turn hs, pipelineMove_of_not_busy hb] at hstep
    cases hstep
    exact ih hrun

/-- A pass that has failed does not complete by itself. -/
theorem pass_ne_done_of_err {k : Nat} {s t : State} (hp : s.pass = .err) (hs : s.turns = [])
    (h : Host.Core.run core k s = .next t) : t.pass ≠ .done := by
  have hb : s.busy = false := by simp [State.busy, hp]
  rw [run_of_not_busy hb hs h, hp]
  nofun

/-! ### The pending moves after an error of the encoder -/

theorem turns_of_encPixelStep_error {s u : State} {c : QoiError} (h : encPixelStep s = .error (.error c u)) :
    u.turns = s.turns := by
  have hexists : s.pixelsExist s.pxPtr.toNat 1 = true := by
    by_contra hout
    simp [encPixelStep, hout] at h
  rw [encPixelStep, if_pos hexists, encPixel_eq_error_iff] at h
  split at h
  · obtain ⟨-, -, hstop⟩ := encRunPixel_eq_error_iff.1 h
    cases hstop
    rfl
  · obtain h | ⟨v, hv, h⟩ := h
    · obtain ⟨-, -, hstop⟩ := encPendingFlush_eq_error_iff.1 h
      cases hstop
      rfl
    · obtain ⟨-, hstop⟩ := encOtherPixel_eq_error_iff.1 h
      cases hstop
      obtain ⟨-, hturns, -⟩ := (appended_storedOnMiss (s.pixelAt s.pxPtr.toNat) v).queues
      rw [hturns]
      rw [encPendingFlush_eq_ok_iff] at hv
      split at hv
      · rw [hv]
      · obtain ⟨-, rfl⟩ := hv
        rfl

theorem turns_of_encStart_error {s u : State} {c : QoiError} (h : encStart s = .error (.error c u)) :
    u.turns = s.turns := by
  unfold encStart at h
  split at h
  · cases h
    rfl
  · obtain h | ⟨v, -, h⟩ := bind_eq_error_iff.1 h
    · obtain ⟨-, hstop⟩ := emit_eq_error_iff.1 h
      cases hstop
      rfl
    · cases h

/-! ### What a pixel step emits -/

/-- The bytes a pixel step on `p` emits, with the cache and the `RUN_CNT` it leaves, by the branches of rule R154. -/
inductive StepEmits (e e' : State) (p : Pixel) : List Byte → Prop where
  /-- A run pixel that is only counted (rule R155). -/
  | countedRun (run : p = e.prev) (cache : e'.cache = e.cache) (count : e'.runCnt.toNat = e.runCnt.toNat + 1) :
    StepEmits e e' p []
  /-- A run pixel that ends its run (rule R156). -/
  | endedRun (run : p = e.prev) (cache : e'.cache = e.cache) (count : e'.runCnt = 0) :
    StepEmits e e' p (encode (.run (e.runCnt.toNat + 1)))
  /-- Any other pixel: the pending run, then its own chunk (rules R157 to R164). -/
  | other (cache : e'.cache = (storedOnMiss p e).cache) (count : e'.runCnt = 0) :
    StepEmits e e' p (pendingBytes e ++ encode (otherChunk p e))

section
variable {e e' : State} {p : Pixel} (hreads : EncoderReads e p) (hstep : encPixelStep e = .ok e')
include hreads hstep

theorem encPixelStep_emits_of_run (hbound : e.runCnt.toNat ≤ 61) (hp : p = e.prev) :
    ∃ bytes, PixelEncoded e e' p bytes ∧ StepEmits e e' p bytes := by
  subst hp
  by_cases hends : e.runCnt.toNat = 61 ∨ e.pxPtr.toNat + 1 = e.n.toNat
  · obtain ⟨-, hflush⟩ := runFlushedWhenFullOrLast e hreads hbound hends
    split at hflush
    · obtain ⟨t, ht, hencoded, hrun, hcache⟩ := hflush
      cases ht.symm.trans hstep
      exact ⟨_, hencoded, .endedRun rfl hcache hrun⟩
    · obtain ⟨u, hu⟩ := hflush
      cases hu.symm.trans hstep
  · obtain ⟨t, ht, hencoded, hrun, hcache⟩ := runPixelCounted e hreads (by omega) (by omega)
    cases ht.symm.trans hstep
    exact ⟨_, hencoded, .countedRun rfl hcache hrun⟩

theorem encPixelStep_emits_of_other (hp : p ≠ e.prev) :
    ∃ bytes, PixelEncoded e e' p bytes ∧ StepEmits e e' p bytes := by
  by_cases hroom : e.bsPtr.toNat + (pendingBytes e ++ encode (otherChunk p e)).length ≤ e.cfg.bsCap
  · obtain ⟨t, ht, hencoded, hrun, hcache⟩ := encPixelStep_other_of_room hreads hp hroom
    cases ht.symm.trans hstep
    exact ⟨_, hencoded, .other hcache hrun⟩
  · obtain ⟨u, hu⟩ := encPixelStep_other_of_no_room hreads hp hroom
    cases hu.symm.trans hstep

end

/-- A pixel step that raises no error emits the bytes of its branch. -/
theorem encPixelStep_emits {e e' : State} (h : BlockInv e) (hpass : e.pass = .enc) (hlt : e.pxPtr < e.n)
    (hstep : encPixelStep e = .ok e') :
    ∃ bytes, PixelEncoded e e' (e.pixelAt e.pxPtr.toNat) bytes ∧ StepEmits e e' (e.pixelAt e.pxPtr.toNat) bytes := by
  have hi := h.encode hpass
  obtain ⟨-, -, -, hcap⟩ := h.config
  have hreads : EncoderReads e (e.pixelAt e.pxPtr.toNat) := ⟨hpass, hlt, hi.n_le_pxCap, hcap, rfl⟩
  by_cases hp : e.pixelAt e.pxPtr.toNat = e.prev
  · exact encPixelStep_emits_of_run hreads hstep hi.runBound hp
  · exact encPixelStep_emits_of_other hreads hstep hp

/-! ### A completing encode pass -/

/-- The running encode pass of a state completes as `t`: its pixel steps, and then its tail step (rule R153). -/
inductive EncodesTo (t : State) : State → Prop where
  | tail {e : State} (inv : BlockInv e) (pass : e.pass = .enc) (last : ¬e.pxPtr < e.n)
    (marker : encTail e = .ok t) : EncodesTo t e
  | pixel {e e' : State} (inv : BlockInv e) (pass : e.pass = .enc) (left : e.pxPtr < e.n)
    (step : encPixelStep e = .ok e') (rest : EncodesTo t e') : EncodesTo t e

theorem encodesTo_of_run {k : Nat} {e t : State} (h : BlockInv e) (hpass : e.pass = .enc) (hturns : e.turns = [])
    (hrun : Host.Core.run core k e = .next t) (hdone : t.pass = .done) : EncodesTo t e := by
  induction k generalizing e with
  | zero =>
    cases hrun
    simp [hpass] at hdone
  | succ k ih =>
    obtain ⟨u, hstep, hrun⟩ := run_succ_eq_next_iff.1 hrun
    have hinv := stepKeepsInvariant e u h hstep
    rw [step_of_no_turn hturns, pipelineMove_of_enc hpass] at hstep
    split at hstep
    · next hlt =>
      obtain hok | ⟨c, v, herr, rfl⟩ := settle_eq_next_iff.1 hstep
      · obtain ⟨bytes, ⟨-, -, -, -, -, -, ⟨hpass', -⟩, -, -, hturns', -⟩, -⟩ := encPixelStep_emits h hpass hlt hok
        exact .pixel h hpass hlt hok (ih hinv (hpass'.trans hpass) (hturns'.trans hturns) hrun)
      · exact absurd hdone (pass_ne_done_of_err (s := raiseError .encStep c v) rfl
          ((turns_of_encPixelStep_error herr).trans hturns) hrun)
    · next hlast =>
      obtain hok | ⟨c, v, herr, rfl⟩ := settle_eq_next_iff.1 hstep
      · obtain ⟨-, hu⟩ := encTail_eq_ok_iff.1 hok
        obtain rfl := run_of_not_busy (by rw [hu]; rfl) (by rw [hu]; exact hturns) hrun
        exact .tail h hpass hlast hok
      · obtain ⟨-, hstop⟩ := encTail_eq_error_iff.1 herr
        cases hstop
        exact absurd hdone (pass_ne_done_of_err (s := raiseError .encStep .capacity e) rfl hturns hrun)

/-- The tail step appends the end marker, and `OUT_LEN` is the cursor past it (rule R166). -/
theorem appended_of_encTail {e t : State} (h : BlockInv e) (ht : encTail e = .ok t) :
    t.bs = (emitted endMarker e).bs ∧ t.outLen = (emitted endMarker e).bsPtr ∧
      Appended e (emitted endMarker e) endMarker := by
  obtain ⟨-, -, -, hcap⟩ := h.config
  obtain ⟨hroom, rfl⟩ := encTail_eq_ok_iff.1 ht
  exact ⟨rfl, rfl, appended_emitted (hroom.trans_lt hcap)⟩

theorem outLen_of_encTail {e t : State} (h : BlockInv e) (ht : encTail e = .ok t) :
    t.outLen.toNat = e.bsPtr.toNat + 8 := by
  obtain ⟨-, hlen, happended⟩ := appended_of_encTail h ht
  exact hlen ▸ happended.streamCursor

/-- The stream of a completing pass begins with what is written already, and ends with the marker at `OUT_LEN - 8`
(rules R101, R152, R166). -/
theorem EncodesTo.stream {e t : State} (h : EncodesTo t e) :
    e.bsPtr.toNat + 8 ≤ t.outLen.toNat ∧ (∀ a < e.bsPtr.toNat, t.streamByte a = e.streamByte a) ∧
      t.streamBytes (t.outLen.toNat - 8) 8 = endMarker := by
  induction h with
  | @tail e inv _ _ marker =>
    have hlen := outLen_of_encTail inv marker
    obtain ⟨hbs, -, happended⟩ := appended_of_encTail inv marker
    refine ⟨hlen.ge, fun a ha => ?_, ?_⟩
    · rw [State.streamByte, hbs]
      exact happended.earlierBytes a ha
    · rw [hlen, Nat.add_sub_cancel, streamBytes_congr_of_bs hbs]
      exact happended.written
  | pixel inv _ _ step _ ih =>
    obtain ⟨-, -, -, hcap⟩ := inv.config
    obtain ⟨-, -, -, hgrown, hkept⟩ := (encPixelStep_endsIn_appendsOnly hcap (.refl _)).of_eq_ok step
    obtain ⟨hlen, hbytes, hmarker⟩ := ih
    exact ⟨by omega, fun a ha => (hbytes a (by omega)).trans (hkept a (.inl ha)), hmarker⟩

/-- The encode pass that a START with MODE 0 opens (rules R150, R253). -/
def encodeStarted (s : State) : State := encStarted (passReset { s with turns := [], mode := .encode })

/-- A START with MODE 0 that leads to DONE started a pass that completes. -/
theorem encodesTo_of_start {k : Nat} {s t : State} (h : BlockInv s) (hb : s.busy = false)
    (hturns : s.turns = [.host (.writeReg 0 1)]) (hrun : Host.Core.run core (k + 1) s = .next t)
    (hdone : t.pass = .done) :
    headerError (encLatch s) = none ∧ EncodesTo t (encodeStarted s) := by
  obtain ⟨u, hstep, hrun⟩ := run_succ_eq_next_iff.1 hrun
  have hinv := stepKeepsInvariant s u h hstep
  rw [step_of_ctrlWrite hturns hb, ctrlWrite_eq_next_iff, if_pos (by decide), if_neg (by decide)] at hstep
  obtain hok | ⟨c, v, herr, rfl⟩ := settle_eq_next_iff.1 hstep
  · obtain ⟨hheader, -, rfl⟩ := encStart_eq_ok_iff.1 hok
    exact ⟨hheader, encodesTo_of_run hinv rfl rfl hrun hdone⟩
  · exact absurd hdone (pass_ne_done_of_err (s := raiseError .start c v) rfl (turns_of_encStart_error herr) hrun)

end Sys2Proof.Machine
end

