-- ==== Sys2Proof/Proofs/RoundTrip.lean ====
section
/-! SUPPORT. The round trip (O54, rule R216): a decode pass restores the image of an encode pass. The decoder is
compared with the encoder at the encoder's steps (`Follows`): it has decoded every pixel but those of the pending run,
from the bytes emitted so far, and its cache agrees with the encoder's in every slot the encoder can hit
(`CachesAgree`). -/

namespace Sys2Proof.Machine

/-! ### The two caches -/

/-- The decoder `u` stores every pixel it decodes, the encoder `e` only its misses (rules R159, R209, R213), so the
caches differ; but they agree in every slot whose pixel hashes to it in the encoder's cache, and those are the slots a
hit can be in. The second field is what a RUN needs to keep that: where it stores `PREV`, the encoder holds it or can
hit nothing. -/
structure CachesAgree (e u : State) : Prop where
  slots : ∀ k, pixelHash (e.cacheLookup k) = k → u.cacheLookup k = e.cacheLookup k
  previous : pixelHash (e.cacheLookup (pixelHash e.prev)) = pixelHash e.prev →
    e.cacheLookup (pixelHash e.prev) = e.prev

/-- At the start both caches are clear, and the slot of `INIT_PREV` does not hold a pixel that hashes to it. -/
theorem cachesAgree_of_cleared {e u : State} (he : e.cache = clearedCache) (hu : u.cache = clearedCache)
    (hprev : e.prev = initPrev) : CachesAgree e u := by
  have hclear (k : Slot) : e.cacheLookup k = initSlot := by rw [State.cacheLookup, he, clearedCache_get]
  refine ⟨fun k _ => ?_, fun hhash => ?_⟩
  · rw [hclear, State.cacheLookup, hu, clearedCache_get]
  · rw [hclear, hprev] at hhash
    exact absurd hhash (by decide)

theorem CachesAgree.congr {e e' u : State} (h : CachesAgree e u) (hcache : e'.cache = e.cache)
    (hprev : e'.prev = e.prev) : CachesAgree e' u := by
  have hlookup (k : Slot) : e'.cacheLookup k = e.cacheLookup k := by rw [State.cacheLookup, hcache, State.cacheLookup]
  refine ⟨fun k => ?_, ?_⟩
  · rw [hlookup]
    exact h.slots k
  · rw [hlookup, hprev]
    exact h.previous

theorem CachesAgree.afterRun {e u : State} (h : CachesAgree e u) (hprev : u.prev = e.prev) (k : Nat) :
    CachesAgree e (afterRun k u) := by
  refine ⟨fun x hx => ?_, h.previous⟩
  rw [cacheLookup_afterRun, hprev]
  split
  · next hslot =>
    subst hslot
    exact (h.previous hx).symm
  · exact h.slots x hx

/-- On a hit the slot holds the pixel already, so hit or miss the pixel's slot holds it and the others are as before. -/
theorem cacheLookup_storedOnMiss (p : Pixel) (e : State) (k : Slot) :
    (storedOnMiss p e).cacheLookup k = if k = pixelHash p then p else e.cacheLookup k := by
  by_cases hhit : e.cacheLookup (pixelHash p) = p
  · rw [storedOnMiss_of_hit hhit]
    split
    · next hk => rw [hk, hhit]
    · rfl
  · rw [storedOnMiss_of_miss hhit, cacheLookup_cacheStore]

theorem CachesAgree.committed {e e' u : State} {p : Pixel} (h : CachesAgree e u)
    (hcache : e'.cache = (storedOnMiss p e).cache) (hprev : e'.prev = p) (len : Nat) :
    CachesAgree e' (committed p len u) := by
  have he (k : Slot) : e'.cacheLookup k = if k = pixelHash p then p else e.cacheLookup k := by
    rw [← cacheLookup_storedOnMiss, State.cacheLookup, hcache, State.cacheLookup]
  have hu (k : Slot) : (Machine.committed p len u).cacheLookup k = if k = pixelHash p then p else u.cacheLookup k :=
    cacheLookup_cacheStore u p k
  refine ⟨fun k hk => ?_, fun _ => ?_⟩
  · rw [he] at hk
    rw [he, hu]
    split
    · rfl
    · next hslot =>
      rw [if_neg hslot] at hk
      exact h.slots k hk
  · rw [he, hprev, if_pos rfl]

/-! ### The chunk of a pixel that is no run pixel -/

theorem otherChunk_wf (p : Pixel) (e : State) : (otherChunk p e).wf = true := by
  unfold otherChunk
  split
  · rfl
  · exact encMissChunk_wf p e.prev

/-- The chunk the encoder chose commits, in a decoder with the same `PREV`, the pixel it was chosen for. -/
theorem exec_otherChunk {e u : State} (h : CachesAgree e u) (hprev : u.prev = e.prev) (p : Pixel) :
    exec (otherChunk p e) u = settle .decStep (commit p (encode (otherChunk p e)).length u) := by
  by_cases hhit : e.cacheLookup (pixelHash p) = p
  · have hslot : u.cacheLookup (pixelHash p) = p := (h.slots _ (by rw [hhit])).trans hhit
    rw [otherChunk, if_pos hhit, exec_eq_commit (i := .index (pixelHash p)) nofun, chunkPixel, hslot]
  · rw [otherChunk, if_neg hhit, ← hprev, exec_encMissChunk]

/-! ### The decoder behind the encoder -/

/-- The decoder `u`, in the pass that started as `d`, has decoded the first `i` pixels of the image `e` encodes from the
chunks below stream offset `b`, and stands with the encoder's `PREV`. -/
structure Follows (d e u : State) (i b : Nat) : Prop where
  inv : BlockInv u
  pass : u.pass = .dec
  turns : u.turns = []
  latches : LatchesKept d u
  stream : ∀ a, u.streamByte a = d.streamByte a
  pixelCursor : u.pxPtr.toNat = i
  streamCursor : u.bsPtr.toNat = b
  previous : u.prev = e.prev
  caches : CachesAgree e u
  pixels : ∀ j < i, u.pixelAt j = e.pixelAt j

theorem pixelAt_congr {s t : State} (h : t.px = s.px) (i : Nat) : t.pixelAt i = s.pixelAt i := by
  rw [State.pixelAt, State.pixelWord, h, State.pixelAt, State.pixelWord]

theorem pixelAt_of_pixelWord {s : State} {p : Pixel} {i : Nat} (h : s.pixelWord i = pix32 p) : s.pixelAt i = p := by
  rw [State.pixelAt, h, unpix32_pix32]

section
variable {d e e' u : State} {i b : Nat} (h : Follows d e u i b)
include h

theorem Follows.congr (hpixel : ∀ j, e'.pixelAt j = e.pixelAt j) (hcache : e'.cache = e.cache)
    (hprev : e'.prev = e.prev) : Follows d e' u i b :=
  { h with
    previous := h.previous.trans hprev.symm
    caches := h.caches.congr hcache hprev
    pixels := fun j hj => (h.pixels j hj).trans (hpixel j).symm }

/-- The next chunk of the stream is the next the decoder executes. -/
theorem Follows.step_eq_exec {c : Instr} (hwf : c.wf = true) (hbytes : d.streamBytes b (encode c).length = encode c)
    (hfit : b + (encode c).length ≤ d.e.toNat) (hi : i < d.n.toNat) : step u = exec c u := by
  obtain ⟨hn, -, he, -⟩ := h.latches
  have hlt : u.pxPtr < u.n := by
    rw [BitVec.lt_def, h.pixelCursor, hn]
    exact hi
  have hread : u.streamBytes u.bsPtr.toNat (encode c).length = encode c := by
    rw [h.streamCursor, State.streamBytes_congr fun j _ => h.stream (b + j), hbytes]
  have hfetch : fetchChunk u = .ok c :=
    fetchChunk_of_encoded hwf hread (by rwa [h.streamCursor, he]) (h.inv.decode h.pass).e_le_bsCap
  rw [step_of_no_turn h.turns, pipelineMove_of_dec h.pass, if_pos hlt, decChunkStep_of_fetchChunk hfetch]

/-- A chunk that stores `k` pixels of the image brings the decoder past them. -/
theorem Follows.advance {v : State} {p : Pixel} {k len : Nat} (hstep : step u = .next v) (hframe : ChunkFrame u v p k)
    (hpx : v.pxPtr.toNat = u.pxPtr.toNat + k) (hbs : v.bsPtr.toNat = u.bsPtr.toNat + len) (hprev : v.prev = e'.prev)
    (hcaches : CachesAgree e' v) (hpixel : ∀ j, e'.pixelAt j = e.pixelAt j)
    (hnew : ∀ j < k, v.pixelAt (i + j) = e.pixelAt (i + j)) :
    ∃ u', Reaches u u' ∧ Follows d e' u' (i + k) (b + len) := by
  obtain ⟨⟨hpass, -⟩, hlatches, ⟨-, hturns, -⟩, -, hstream, hwords, -⟩ := hframe
  refine ⟨v, .of_step hstep, ?_⟩
  constructor
  case inv => exact stepKeepsInvariant u v h.inv hstep
  case pass => exact hpass.trans h.pass
  case turns => exact hturns.trans h.turns
  case latches => exact h.latches.trans hlatches
  case stream => exact fun a => (hstream a).trans (h.stream a)
  case pixelCursor => rw [hpx, h.pixelCursor]
  case streamCursor => rw [hbs, h.streamCursor]
  case previous => exact hprev
  case caches => exact hcaches
  case pixels =>
    intro j hj
    rw [hpixel]
    by_cases hold : j < i
    · rw [← h.pixels j hold, State.pixelAt, hwords j (.inl (by rwa [h.pixelCursor])), State.pixelAt]
    · obtain ⟨m, rfl⟩ := Nat.exists_eq_add_of_le (Nat.le_of_not_lt hold)
      exact hnew m (by omega)

/-- A RUN chunk brings it past `k` pixels that equal `PREV`. -/
theorem Follows.run {k : Nat} (hk : 1 ≤ k ∧ k ≤ 62) (hbytes : d.streamBytes b 1 = encode (.run k))
    (hfit : b + 1 ≤ d.e.toNat) (hn : i + k ≤ d.n.toNat) (hrun : ∀ j < k, e.pixelAt (i + j) = e.prev) :
    ∃ u', Reaches u u' ∧ Follows d e u' (i + k) (b + 1) := by
  obtain ⟨hun, -, hue, -⟩ := h.latches
  have hroom : u.pxPtr.toNat + k ≤ u.n.toNat := by rwa [h.pixelCursor, hun]
  have hstep : step u = .next (afterRun k u) := by
    rw [h.step_eq_exec (wf_run_iff.2 hk) hbytes hfit (by omega)]
    exact exec_run_of_fits hroom (h.inv.decode h.pass).n_le_pxCap
  refine h.advance hstep chunkFrame_afterRun (afterRun_pxPtr_toNat hroom)
    (afterRun_bsPtr_toNat (by rwa [h.streamCursor, hue])) h.previous (h.caches.afterRun h.previous k) (fun _ => rfl)
    fun j hj => ?_
  rw [hrun j hj, ← h.previous]
  exact pixelAt_of_pixelWord (by rw [pixelWord_afterRun, h.pixelCursor, if_pos (by omega)])

/-- Any other chunk brings it past the one pixel the chunk was chosen for. -/
theorem Follows.other {p : Pixel}
    (hbytes : d.streamBytes b (encode (otherChunk p e)).length = encode (otherChunk p e))
    (hfit : b + (encode (otherChunk p e)).length ≤ d.e.toNat) (hi : i < d.n.toNat) (hp : e.pixelAt i = p)
    (hpixel : ∀ j, e'.pixelAt j = e.pixelAt j) (hcache : e'.cache = (storedOnMiss p e).cache) (hprev : e'.prev = p) :
    ∃ u', Reaches u u' ∧ Follows d e' u' (i + 1) (b + (encode (otherChunk p e)).length) := by
  obtain ⟨hun, -, hue, -⟩ := h.latches
  have hfits : ChunkFits u (encode (otherChunk p e)).length :=
    ⟨by rwa [h.streamCursor, hue], by rwa [h.pixelCursor, hun], (h.inv.decode h.pass).n_le_pxCap⟩
  obtain ⟨hword, -, -, hpx, hbs⟩ := pixelCommitted_committed hfits p
  obtain ⟨-, hleft, hcap⟩ := hfits
  have hstep : step u = .next (committed p (encode (otherChunk p e)).length u) := by
    rw [h.step_eq_exec (otherChunk_wf p e) hbytes hfit hi, exec_otherChunk h.caches h.previous,
      settle_commit_eq_next_iff]
    exact ⟨hleft.trans_le hcap, rfl⟩
  refine h.advance hstep (chunkFrame_committed p _ u) hpx hbs hprev.symm (h.caches.committed hcache hprev _) hpixel
    fun j hj => ?_
  obtain rfl : j = 0 := by omega
  rw [Nat.add_zero, hp]
  exact pixelAt_of_pixelWord (h.pixelCursor ▸ hword)

end

/-! ### One pixel step of the encoder -/

/-- How many pixels the decoder that follows `e` has decoded: those `e` has read but for the pending run. -/
def decodedPixels (e : State) : Nat := e.pxPtr.toNat - e.runCnt.toNat

section
variable {d e e' u : State} (hi : EncInv e) (hn : d.n = e.n)
include hi hn

/-- Where a pending run was flushed, its chunk brings the decoder up to the encoder. -/
theorem Follows.pendingRun {b : Nat} (h : Follows d e u (decodedPixels e) b)
    (hbytes : d.streamBytes b (pendingBytes e).length = pendingBytes e)
    (hfit : b + (pendingBytes e).length ≤ d.e.toNat) :
    ∃ u', Reaches u u' ∧ Follows d e u' e.pxPtr.toNat (b + (pendingBytes e).length) := by
  have hcursor := hi.cursor
  have hbound := hi.runBound
  have hinside := hi.runInside
  have hall : decodedPixels e + e.runCnt.toNat = e.pxPtr.toNat := Nat.sub_add_cancel hinside
  by_cases hrun : e.runCnt = 0
  · have hrun0 : e.runCnt.toNat = 0 := by rw [hrun]; rfl
    rw [hrun0, Nat.add_zero] at hall
    rw [pendingBytes, if_pos hrun]
    exact ⟨u, .refl u, hall ▸ h⟩
  · have hpending : e.runCnt.toNat ≠ 0 := fun he => hrun (BitVec.eq_of_toNat_eq he)
    rw [pendingBytes, if_neg hrun] at hbytes hfit ⊢
    rw [← hall]
    exact h.run (by omega) hbytes hfit (by rw [hn]; omega) fun j hj => hi.runPixels _ (by omega) (by omega)

/-- The run a pixel ends is longer by that pixel. -/
theorem Follows.endedRun {b : Nat} (h : Follows d e u (decodedPixels e) b) (hlt : e.pxPtr.toNat < e.n.toNat)
    (hp : e.pixelAt e.pxPtr.toNat = e.prev) (hbytes : d.streamBytes b 1 = encode (.run (e.runCnt.toNat + 1)))
    (hfit : b + 1 ≤ d.e.toNat) : ∃ u', Reaches u u' ∧ Follows d e u' (e.pxPtr.toNat + 1) (b + 1) := by
  have hbound := hi.runBound
  have hinside := hi.runInside
  have hall : decodedPixels e + (e.runCnt.toNat + 1) = e.pxPtr.toNat + 1 := by
    rw [decodedPixels]
    omega
  rw [← hall]
  refine h.run (by omega) hbytes hfit (by rw [hn]; omega) fun j hj => ?_
  obtain hold | hlast : decodedPixels e + j < e.pxPtr.toNat ∨ decodedPixels e + j = e.pxPtr.toNat := by omega
  · exact hi.runPixels _ hold (by omega)
  · rw [hlast, hp]

end

/-- The decoder stays behind the encoder over a pixel step whose bytes are in its stream. -/
theorem Follows.pixelStep {d e e' u : State} (h : Follows d e u (decodedPixels e) e.bsPtr.toNat) (he : BlockInv e)
    (hpass : e.pass = .enc) (hlt : e.pxPtr < e.n) (hstep : encPixelStep e = .ok e') (hn : d.n = e.n)
    (hfit : e'.bsPtr.toNat ≤ d.e.toNat) (hstream : ∀ a < e'.bsPtr.toNat, d.streamByte a = e'.streamByte a) :
    ∃ u', Reaches u u' ∧ Follows d e' u' (decodedPixels e') e'.bsPtr.toNat := by
  have hi := he.encode hpass
  have hlt' : e.pxPtr.toNat < e.n.toNat := hlt
  obtain ⟨bytes, ⟨hwritten, hbs, hprev, hpx, -, hwords, -⟩, hcase⟩ := encPixelStep_emits he hpass hlt hstep
  have hpixel (j : Nat) : e'.pixelAt j = e.pixelAt j := by rw [State.pixelAt, hwords, State.pixelAt]
  have hbytes : d.streamBytes e.bsPtr.toNat bytes.length = bytes :=
    (State.streamBytes_congr fun j hj => hstream _ (by omega)).trans hwritten
  rw [hbs] at hfit ⊢
  have hdecoded (hrun : e'.runCnt = 0) : decodedPixels e' = e.pxPtr.toNat + 1 := by
    rw [decodedPixels, hpx, hrun]
    rfl
  cases hcase with
  | countedRun hp hcache hrun =>
    have hsame : decodedPixels e' = decodedPixels e := by
      rw [decodedPixels, hpx, hrun, Nat.add_sub_add_right, decodedPixels]
    rw [hsame]
    exact ⟨u, .refl u, h.congr hpixel hcache (hprev.trans hp)⟩
  | endedRun hp hcache hrun =>
    rw [hdecoded hrun]
    obtain ⟨u', hreach, hu'⟩ := h.endedRun hi hn hlt' hp hbytes hfit
    exact ⟨u', hreach, hu'.congr hpixel hcache (hprev.trans hp)⟩
  | other hcache hrun =>
    rw [hdecoded hrun, List.length_append, ← Nat.add_assoc]
    rw [List.length_append, State.streamBytes_add] at hbytes
    rw [List.length_append] at hfit
    obtain ⟨hrunBytes, hchunkBytes⟩ := List.append_inj hbytes (State.streamBytes_length _ _ _)
    obtain ⟨v, hreach, hv⟩ := h.pendingRun hi hn hrunBytes (by omega)
    obtain ⟨u', hreach', hu'⟩ := hv.other hchunkBytes (by omega) (by rwa [hn]) rfl hpixel hcache hprev
    exact ⟨u', hreach.trans hreach', hu'⟩

/-! ### The whole pass -/

/-- `u` is the end of a decode pass started as `d`: DONE, with the header of `d` in the host's registers (rule R214). -/
def DecodedHeader (d u : State) : Prop :=
  u.pass = .done ∧ u.width = d.hdrW ∧ u.height = d.hdrH ∧ u.channels = d.hdrC ∧ u.colorspace = d.hdrS

/-- With all pixels decoded and all chunks read, the finish step completes the pass. -/
theorem Follows.finishes {d e u : State} (h : Follows d e u d.n.toNat d.e.toNat) :
    ∃ v, Reaches u v ∧ DecodedHeader d v ∧ ∀ j < d.n.toNat, v.pixelAt j = e.pixelAt j := by
  obtain ⟨hn, -, he, hw, hh, hc, hs, -⟩ := h.latches
  have hfull : ¬u.pxPtr < u.n := by
    rw [BitVec.lt_def, h.pixelCursor, hn]
    exact lt_irrefl _
  have hend : u.bsPtr = u.e := BitVec.eq_of_toNat_eq (by rw [h.streamCursor, he])
  obtain ⟨v, hstep, hv⟩ := decodeFinish u h.pass (.inl h.turns) hfull
  rw [if_pos hend] at hv
  obtain ⟨hdone, hvw, hvh, hvc, hvs, -, -, -, -, hpx, -⟩ := hv
  exact ⟨v, .of_step hstep, ⟨hdone, hvw.trans hw, hvh.trans hh, hvc.trans hc, hvs.trans hs⟩,
    fun j hj => (pixelAt_congr hpx j).trans (h.pixels j hj)⟩

/-- At the tail step no run is pending and every pixel is encoded. -/
theorem EncInv.decodedPixels_eq_n {e : State} (h : EncInv e) (hlast : ¬e.pxPtr < e.n) :
    decodedPixels e = e.n.toNat := by
  have hcursor : e.pxPtr = e.n := BitVec.eq_of_toNat_eq (le_antisymm h.cursor (BitVec.not_lt.1 hlast))
  rw [decodedPixels, h.runEnd hcursor, hcursor]
  rfl

/-- The decoder that follows a completing encode pass to its end completes, with the same pixels. -/
theorem Follows.completes {d e t : State} (ht : EncodesTo t e) (hn : d.n = e.n) (he : d.e.toNat + 8 = t.outLen.toNat)
    (hstream : ∀ a < t.outLen.toNat, d.streamByte a = t.streamByte a) {u : State}
    (h : Follows d e u (decodedPixels e) e.bsPtr.toNat) :
    ∃ v, Reaches u v ∧ DecodedHeader d v ∧ ∀ j < e.n.toNat, v.pixelAt j = e.pixelAt j := by
  induction ht generalizing u with
  | @tail e inv pass last marker =>
    have hend : e.bsPtr.toNat = d.e.toNat := by
      have hlen := outLen_of_encTail inv marker
      omega
    rw [(inv.encode pass).decodedPixels_eq_n last, hend, ← hn] at h
    exact hn ▸ h.finishes
  | @pixel e e' inv pass left step rest ih =>
    obtain ⟨hlen, hbytes, -⟩ := rest.stream
    obtain ⟨-, ⟨-, -, -, -, -, hwords, -, ⟨hn', -⟩, -⟩, -⟩ := encPixelStep_emits inv pass left step
    obtain ⟨u', hreach, hu'⟩ := h.pixelStep inv pass left step hn (by omega)
      fun a ha => (hstream a (by omega)).trans (hbytes a ha)
    obtain ⟨v, hreach', hheader, hpixels⟩ := ih (hn.trans hn'.symm) hu'
    refine ⟨v, hreach.trans hreach', hheader, fun j hj => ?_⟩
    rw [hpixels j (by rwa [hn']), State.pixelAt, hwords, State.pixelAt]

/-! ### The start of the decode pass -/

/-- The header's fields read back from its 14 bytes (rules R12, R100, R202). -/
theorem header_of_headerBytes {e d : State} (h : d.streamBytes 0 14 = headerBytes e) :
    d.streamBytes 0 4 = e.cfg.magic.bytes ∧ d.streamWord 4 = e.hdrW ∧ d.streamWord 8 = e.hdrH ∧
      d.streamByte 12 = e.hdrC ∧ d.streamByte 13 = e.hdrS := by
  simp only [headerBytes, Magic.bytes, be32, State.streamBytes, List.cons_append, List.nil_append,
    List.cons.injEq, Nat.reduceAdd, and_true] at h
  obtain ⟨hm0, hm1, hm2, hm3, hw3, hw2, hw1, hw0, hh3, hh2, hh1, hh0, hc, hs⟩ := h
  refine ⟨?_, ?_, ?_, hc, hs⟩
  · simp [State.streamBytes, Magic.bytes, hm0, hm1, hm2, hm3]
  · simp [State.streamWord, hw3, hw2, hw1, hw0]
  · simp [State.streamWord, hh3, hh2, hh1, hh0]

/-- The checks of a decode start pass on the stream of a completing encode pass (rules R201, R216). -/
theorem decStart_of_encoded {e t d : State} (ht : EncodesTo t e) (hi : EncInv e) (hmagic : d.cfg.magic = e.cfg.magic)
    (hpixels : e.hdrW.toNat * e.hdrH.toNat ≤ d.cfg.pxCap) (hlen : d.inLen = t.outLen)
    (hcap : t.outLen.toNat ≤ d.cfg.bsCap) (hstream : ∀ a < t.outLen.toNat, d.streamByte a = t.streamByte a) :
    decStart d = .ok (decStarted d) ∧ d.streamWord 4 = e.hdrW ∧ d.streamWord 8 = e.hdrH ∧
      d.streamByte 12 = e.hdrC ∧ d.streamByte 13 = e.hdrS := by
  obtain ⟨hlow, hbytes, hmarker⟩ := ht.stream
  have hcursor := hi.streamLow
  have hheader : d.streamBytes 0 14 = headerBytes e := by
    rw [← hi.headerWritten]
    exact State.streamBytes_congr fun j hj => (hstream _ (by omega)).trans (hbytes _ (by omega))
  obtain ⟨hm, hw, hh, hc, hs⟩ := header_of_headerBytes hheader
  obtain ⟨hc', hs', hw', hh', -⟩ := headerError_eq_none_iff.1 hi.header
  refine ⟨decStart_eq_ok_iff.2 ⟨by rwa [hlen], by rw [hlen]; omega, by rw [hm, hmagic], ?_, ?_, rfl⟩, hw, hh, hc, hs⟩
  · rw [headerError_eq_none_iff, decLatch_hdrC, decLatch_hdrS, decLatch_hdrW, decLatch_hdrH, hc, hs, hw, hh]
    exact ⟨hc', hs', hw', hh', hpixels⟩
  · rw [hlen, ← hmarker]
    exact State.streamBytes_congr fun j hj => hstream _ (by omega)

/-- The block `d` at the start of a decode pass of `len` bytes, before its checks (rules R253, R257). -/
def readyToDecode (d : State) (len : Word) : State := passReset { d with inLen := len, turns := [], mode := .decode }

/-- The host's moves that start a decode pass: `IN_LEN`, then `CTRL` with START and MODE 1 (rule R257). -/
theorem reaches_decStarted {d : State} {len : Word} (hb : d.busy = false)
    (hturns : d.turns = [.host (.writeReg 6 len), .host (.writeReg 0 3)])
    (hok : decStart (readyToDecode d len) = .ok (decStarted (readyToDecode d len))) :
    Reaches d (decStarted (readyToDecode d len)) := by
  have hlen : step d = .next { d with inLen := len, turns := [.host (.writeReg 0 3)] } := by
    have hreg : regOf 6 = .inLen := rfl
    have hb' : { d with turns := [.host (.writeReg 0 3)] }.busy = false := hb
    rw [step_of_turns hturns, move, hostMove, hostWriteReg, hb', hreg]
    rfl
  refine .head hlen (.of_step ?_)
  rw [step_of_ctrlWrite (s := { d with inLen := len, turns := [.host (.writeReg 0 3)] }) rfl hb,
    ctrlWrite_decStart (by decide) (by decide), settle_eq_next_iff]
  exact .inl hok

/-- At the two starts the decoder has decoded what the encoder has encoded: nothing. -/
theorem follows_started {s d : State} {len : Word} (hd : BlockInv d)
    (hok : decStart (readyToDecode d len) = .ok (decStarted (readyToDecode d len))) :
    Follows (decStarted (readyToDecode d len)) (encodeStarted s) (decStarted (readyToDecode d len)) 0 14 where
  inv := blockInv_of_decStart (s := { d with inLen := len, turns := [], mode := .decode }) hd.memories hok
  pass := rfl
  turns := rfl
  latches := LatchesKept.refl _
  stream := fun _ => rfl
  pixelCursor := rfl
  streamCursor := rfl
  previous := rfl
  caches := cachesAgree_of_cleared rfl rfl rfl
  pixels := nofun

/-- Settles O54: the decode start accepts the stream, and from there the decoder follows the encode pass to its end. -/
theorem decodeRestoresEncodedImage : Obligations.DecodeRestoresEncodedImage := by
  intro s t d k hs hsb hrun hdone hd hdb hmagic hpixels hcap hstream
  obtain ⟨hheader, hencodes⟩ : headerError (encLatch s) = none ∧ EncodesTo t (encodeStarted s) :=
    encodesTo_of_start (s := { s with turns := [.host (.writeReg 0 1)] }) (hs.with_queues _ _) hsb rfl hrun hdone
  have hi : EncInv (encodeStarted s) :=
    encInv_encStarted (s := passReset { s with turns := [], mode := .encode }) hs.config rfl rfl hheader
  obtain ⟨hok, hw, hh, hc, hcs⟩ :=
    decStart_of_encoded (d := readyToDecode d t.outLen) hencodes hi hmagic hpixels rfl hcap hstream
  have hfollows := follows_started (s := s) hd hok
  have hinv := hfollows.inv.decode rfl
  have hn : (decStarted (readyToDecode d t.outLen)).n = (encodeStarted s).n := by
    refine BitVec.eq_of_toNat_eq (hinv.pixels.trans (Eq.trans ?_ hi.pixels.symm))
    exact congrArg₂ (fun w h : Word => w.toNat * h.toNat) hw hh
  obtain ⟨u, hreach, ⟨hudone, huw, huh, huc, hus⟩, hupixels⟩ := hfollows.completes hencodes hn hinv.regionEnd hstream
  obtain ⟨m, hm⟩ := (reaches_decStarted (d := { d with turns := [.host (.writeReg 6 t.outLen), .host (.writeReg 0 3)] })
    hdb rfl hok).trans hreach
  refine ⟨m, u, hm, hudone, huw.trans hw, huh.trans hh, huc.trans hc, hus.trans hcs, fun j hj => ?_⟩
  exact hupixels j (hj.trans_eq hi.pixels.symm)

end Sys2Proof.Machine
end

