-- ==== Sys2Proof/Proofs/HostMoves.lean ====
section
/-! SUPPORT. The host's moves one by one: the turn a step takes (O32), the register block by its numbers (O34, O36), and
what is refused, which is a host access to a memory while a pass runs (O39) and nothing else (O49). -/

namespace Sys2Proof.Machine

/-- Settles O32, by the two cases of the turn list. -/
theorem stepIsOneMove : Obligations.StepIsOneMove :=
  fun _ => ⟨step_of_no_turn, fun _ _ => step_of_turns⟩

/-! ### The register block by its numbers -/

/-- The numbers of rule R35. -/
theorem regOf_of_val (r : RegNum) :
    (r.val = 0 → regOf r = .ctrl) ∧ (r.val = 1 → regOf r = .status) ∧ (r.val = 2 → regOf r = .width) ∧
      (r.val = 3 → regOf r = .height) ∧ (r.val = 4 → regOf r = .channels) ∧ (r.val = 5 → regOf r = .colorspace) ∧
      (r.val = 6 → regOf r = .inLen) ∧ (r.val = 7 → regOf r = .outLen) ∧ (8 ≤ r.val → regOf r = .reserved) := by
  revert r
  decide

theorem ctrlWord_eq (s : State) : ctrlWord s = if s.mode = .decode then 2 else 0 := by
  cases h : s.mode <;> simp [ctrlWord, h]

/-- Settles O34, register by register; bits [31:8] of the two byte registers are 0 (rules R40, R41). -/
theorem registerReads : Obligations.RegisterReads := by
  intro s r
  obtain ⟨hctrl, hstatus, hwidth, hheight, hchannels, hcolorspace, hinLen, houtLen, hreserved⟩ := regOf_of_val r
  unfold readReg
  exact ⟨rfl, fun hr => by rw [hctrl hr]; exact ctrlWord_eq s, fun hr => by rw [hstatus hr],
    fun hr => by rw [hwidth hr], fun hr => by rw [hheight hr],
    fun hr => by rw [hchannels hr]; exact BitVec.toNat_setWidth_of_le (by decide),
    fun hr => by rw [hcolorspace hr]; exact BitVec.toNat_setWidth_of_le (by decide),
    fun hr => by rw [hinLen hr], fun hr => by rw [houtLen hr], fun hr => by rw [hreserved hr]⟩

/-- A `CTRL` write with START = 0 stores MODE alone (rule R253). -/
theorem ctrlWrite_of_no_start {v : Word} (hstart : v.getLsbD 0 = false) (s : State) :
    ctrlWrite v s = .next { s with mode := modeOfBit (v.getLsbD 1) } :=
  ctrlWrite_eq_next_iff.2 (by rw [hstart]; rfl)

/-- Settles O36: ignored while a pass runs, and otherwise register by register. -/
theorem registerWrites : Obligations.RegisterWrites := by
  intro s r v
  obtain ⟨hctrl, hstatus, hwidth, hheight, hchannels, hcolorspace, hinLen, houtLen, hreserved⟩ := regOf_of_val r
  refine ⟨fun hb => hostWriteReg_of_busy hb r v, fun hb => ?_⟩
  simp only [hostMove, hostWriteReg, hb, Bool.false_eq_true, if_false]
  exact ⟨fun hr => by rw [hctrl hr], fun hr hstart => by rw [hctrl hr]; exact ctrlWrite_of_no_start hstart s,
    fun hr => by rw [hstatus hr], fun hr => by rw [hwidth hr], fun hr => by rw [hheight hr],
    fun hr => by rw [hchannels hr], fun hr => by rw [hcolorspace hr], fun hr => by rw [hinLen hr],
    fun hr => by rw [houtLen hr], fun hr => by rw [hreserved hr]⟩

/-! ### What is refused -/

theorem exec_ne_refused (i : Instr) (s : State) (r : Refusal) : exec i s ≠ .refused r := by
  cases i with
  | rgb | rgba | run | luma | diff | index => exact settle_ne_refused

theorem decChunkStep_ne_refused (s : State) (r : Refusal) : decChunkStep s ≠ .refused r := by
  unfold decChunkStep
  split
  · next i _ => exact exec_ne_refused i s r
  all_goals nofun

/-- The pipeline has a meaning for every step of its own. -/
theorem pipelineMove_ne_refused (s : State) (r : Refusal) : pipelineMove s ≠ .refused r := by
  unfold pipelineMove
  split
  · split <;> exact settle_ne_refused
  · split
    · exact decChunkStep_ne_refused s r
    · exact settle_ne_refused
  all_goals nofun

theorem ctrlWrite_ne_refused (v : Word) (s : State) (r : Refusal) : ctrlWrite v s ≠ .refused r := by
  simp only [ctrlWrite]
  split
  · split <;> exact settle_ne_refused
  · nofun

theorem hostWriteReg_ne_refused (n : RegNum) (v : Word) (s : State) (r : Refusal) :
    hostWriteReg n v s ≠ .refused r := by
  unfold hostWriteReg
  split
  · nofun
  · split
    · exact ctrlWrite_ne_refused v s r
    all_goals nofun

theorem whenIdle_eq_refused_iff {s t : State} {r : Refusal} :
    whenIdle s t = .refused r ↔ r = .hostMemoryAccessWhileBusy ∧ s.busy = true := by
  unfold whenIdle
  cases s.busy <;> simp [eq_comm]

/-- A host move is refused exactly when it reaches a memory while a pass runs (rule R255). -/
theorem hostMove_eq_refused_iff {op : HostOp} {s : State} {r : Refusal} :
    hostMove op s = .refused r ↔ (r = .hostMemoryAccessWhileBusy ∧ s.busy = true) ∧ op.touchesMemory = true := by
  cases op with
  | readReg n => simp [hostMove, HostOp.touchesMemory]
  | writeReg n v => simp [hostMove, HostOp.touchesMemory, hostWriteReg_ne_refused]
  | readPixel | writePixel | readStream | writeStream =>
    exact whenIdle_eq_refused_iff.trans (and_iff_left rfl).symm

/-- Settles O39. -/
theorem memoryAccessWhileBusyRefused : Obligations.MemoryAccessWhileBusyRefused :=
  fun _ _ hb hmem => hostMove_eq_refused_iff.2 ⟨⟨rfl, hb⟩, hmem⟩

/-- Settles O49, by the agent that moves: of the three only the host can be refused. -/
theorem refusalIsHostBreach : Obligations.RefusalIsHostBreach := by
  intro s r h
  cases hs : s.turns with
  | nil => exact absurd (step_of_no_turn hs ▸ h) (pipelineMove_ne_refused s r)
  | cons turn rest =>
    rw [step_of_turns hs] at h
    cases turn with
    | host op =>
      obtain ⟨⟨hr, hb⟩, hmem⟩ := hostMove_eq_refused_iff.1 h
      exact ⟨hr, hb, op, rest, rfl, hmem⟩
    | pipeline => exact absurd h (pipelineMove_ne_refused _ r)
    | powerOn => cases h

end Sys2Proof.Machine
end

