-- ==== Sys2Proof/Proofs/StartForgets.lean ====
section
/-! SUPPORT. A start does not depend on earlier passes (O40, rule R254). Two states that agree in what a start reads differ
by what an earlier pass left (`withLeftovers`), and both starts, check by check, do the same from either (`Alike`). -/

namespace Sys2Proof.Machine

/-- `s` with everything an earlier pass leaves in the block, and the model's own lists, as in `r`. -/
def withLeftovers (r s : State) : State :=
  { r with
    cfg := s.cfg
    width := s.width
    height := s.height
    channels := s.channels
    colorspace := s.colorspace
    inLen := s.inLen
    px := s.px
    bs := s.bs
    draws := s.draws }

theorem eq_withLeftovers {s r : State} (hcfg : s.cfg = r.cfg) (hhost : HostValuesKept s r) (hpx : s.px = r.px)
    (hbs : s.bs = r.bs) (hdraws : s.draws = r.draws) : r = withLeftovers r s := by
  obtain ⟨hw, hh, hc, hcs, hlen⟩ := hhost
  rw [withLeftovers, hcfg, ← hw, ← hh, ← hc, ← hcs, ← hlen, hpx, hbs, hdraws]

/-- The state a start's checks run in: MODE is stored and the pass state is reset (rule R253). -/
def startState (m : Mode) (s : State) : State := passReset { s with mode := m }

/-- Two starts that open the same pass, or fail with the same code and leave the same memories. -/
inductive Alike : Attempt → Attempt → Prop
  /-- The passes differ at most in the model's own lists. -/
  | opened (t : State) (turns : List Turn) (answers : List HostAnswer) :
    Alike (.ok t) (.ok { t with turns := turns, answers := answers })
  /-- What else differs is drawn by the error or no part of a running pass (rule R283). -/
  | failed (c : QoiError) {t u : State} (mode : t.mode = u.mode) (px : t.px = u.px) (bs : t.bs = u.bs) :
    Alike (.error (.error c t)) (.error (.error c u))

theorem Alike.ite {p : Prop} [Decidable p] {x x' y y' : Attempt} (hx : Alike x x') (hy : Alike y y') :
    Alike (if p then x else y) (if p then x' else y') := by
  split
  · exact hx
  · exact hy

theorem encStart_of_headerError {s : State} {c : QoiError} (h : headerError (encLatch s) = some c) :
    encStart s = .error (.error c (encLatch s)) := by
  rw [encStart, h]

/-- With its header accepted, an encode start fails only where the 14 bytes of the header do not fit (rules R150, R152). -/
theorem encStart_of_no_headerError {s : State} (h : headerError (encLatch s) = none) :
    encStart s =
      if s.cfg.bsCap < 14 then .error (.error .capacity (rewindStream (latchCount (encLatch s))))
      else .ok (encStarted s) := by
  split
  · next hroom =>
    rw [encStart, h]
    exact bind_eq_error_iff.2 (.inl (emit_eq_error_iff.2 ⟨hroom, rfl⟩))
  · next hroom => exact encStart_eq_ok_iff.2 ⟨h, Nat.le_of_not_lt hroom, rfl⟩

theorem encStart_alike (m : Mode) (r s : State) :
    Alike (encStart (startState m s)) (encStart (startState m (withLeftovers r s))) := by
  cases h : headerError (encLatch (startState m s)) with
  | some c =>
    rw [encStart_of_headerError h, encStart_of_headerError (s := startState m (withLeftovers r s)) h]
    exact .failed _ rfl rfl rfl
  | none =>
    rw [encStart_of_no_headerError h, encStart_of_no_headerError (s := startState m (withLeftovers r s)) h]
    exact .ite (.failed _ rfl rfl rfl) (.opened _ _ _)

/-- The checks of the length and of the magic, then the header's and the end marker's (rule R201). -/
theorem decStart_alike (m : Mode) (r s : State) :
    Alike (decStart (startState m s)) (decStart (startState m (withLeftovers r s))) := by
  have hheader : headerError (decLatch (latchLength (startState m (withLeftovers r s)))) =
      headerError (decLatch (latchLength (startState m s))) := rfl
  refine .ite (.failed _ rfl rfl rfl) (.ite (.failed _ rfl rfl rfl) (.ite (.failed _ rfl rfl rfl) ?_))
  unfold decStartHeader
  rw [hheader]
  split
  · exact .failed _ rfl rfl rfl
  · exact .ite (.failed _ rfl rfl rfl) (.opened _ _ _)

theorem start_alike (b : Bool) (m : Mode) (r s : State) :
    Alike ((if b then decStart else encStart) (startState m s))
      ((if b then decStart else encStart) (startState m (withLeftovers r s))) := by
  cases b with
  | false => exact encStart_alike m r s
  | true => exact decStart_alike m r s

/-- What O40 compares: the outcome of the start, and all of the pass it opened. -/
def SameStart (t u : State) : Prop :=
  t.pass = u.pass ∧ t.errcode = u.errcode ∧ t.outLen = u.outLen ∧ t.mode = u.mode ∧ t.px = u.px ∧ t.bs = u.bs ∧
    (t.busy = true →
      t.prev = u.prev ∧ t.runCnt = u.runCnt ∧ t.cache = u.cache ∧ t.pxPtr = u.pxPtr ∧ t.bsPtr = u.bsPtr ∧
        LatchesKept t u)

theorem Alike.sameStart {x y : Attempt} {t u : State} (h : Alike x y) (ht : settle .start x = .next t)
    (hu : settle .start y = .next u) : SameStart t u := by
  cases h with
  | opened t turns answers =>
    cases ht
    cases hu
    exact ⟨rfl, rfl, rfl, rfl, rfl, rfl, fun _ => ⟨rfl, rfl, rfl, rfl, rfl, LatchesKept.refl _⟩⟩
  | failed c mode px bs =>
    cases ht
    cases hu
    exact ⟨rfl, rfl, rfl, mode, px, bs, nofun⟩

theorem settle_start_of_ctrlWrite {v : Word} {s t : State} (hstart : v.getLsbD 0 = true) (h : ctrlWrite v s = .next t) :
    settle .start ((if v.getLsbD 1 then decStart else encStart) (startState (modeOfBit (v.getLsbD 1)) s)) = .next t := by
  rwa [ctrlWrite_eq_next_iff, if_pos hstart] at h

/-- Settles O40: the second state is the first with what an earlier pass left in the second. -/
theorem startForgetsEarlierPasses : Obligations.StartForgetsEarlierPasses := by
  intro s₁ s₂ t₁ t₂ v hb₁ hb₂ hstart hcfg hhost hpx hbs hdraws h₁ h₂
  rw [hostMove_writeReg_zero hb₁] at h₁
  rw [hostMove_writeReg_zero hb₂, eq_withLeftovers hcfg hhost hpx hbs hdraws] at h₂
  exact (start_alike _ _ s₂ s₁).sameStart (settle_start_of_ctrlWrite hstart h₁) (settle_start_of_ctrlWrite hstart h₂)

end Sys2Proof.Machine
end

