-- ==== Sys2Proof/Proofs/PassEnds.lean ====
section
/-! SUPPORT. Every pass ends (O53, rule R259): a step of a running pass ends it or moves `PX_PTR` towards `N`. -/

namespace Sys2Proof.Machine

/-- The pass has ended (rule R30). -/
def Ended (t : State) : Prop := t.pass = .done ∨ t.pass = .err

/-- The step from `s` to `t` took at least one of the pixels left, and the pass goes on. -/
structure Advanced (s t : State) : Prop where
  pass : t.pass = s.pass
  count : t.n = s.n
  left : s.pxPtr.toNat < s.n.toNat
  moved : s.pxPtr.toNat < t.pxPtr.toNat

/-- A step of a running pass leaves the turns to come, and ends the pass or advances it. -/
def Progress (s t : State) : Prop := t.turns = s.turns ∧ (Ended t ∨ Advanced s t)

theorem progress_raiseError {s u : State} (hturns : u.turns = s.turns) (site : ErrorSite) (c : QoiError) :
    Progress s (raiseError site c u) := ⟨hturns, .inl (.inr rfl)⟩

/-! ### The encoder's steps -/

theorem progress_of_encPixelStep {s t : State} (h : BlockInv s) (hp : s.pass = .enc) (hlt : s.pxPtr < s.n)
    (ht : settle .encStep (encPixelStep s) = .next t) : Progress s t := by
  obtain hok | ⟨c, u, herr, rfl⟩ := settle_eq_next_iff.1 ht
  · obtain ⟨bytes, ⟨-, -, -, hpx, -, -, ⟨hpass, -⟩, ⟨hn, -⟩, ⟨-, hturns, -⟩⟩, -⟩ := encPixelStep_emits h hp hlt hok
    exact ⟨hturns, .inr ⟨hpass, hn, hlt, by omega⟩⟩
  · exact progress_raiseError (turns_of_encPixelStep_error herr) _ _

theorem progress_of_encTail {s t : State} (ht : settle .encStep (encTail s) = .next t) : Progress s t := by
  obtain hok | ⟨c, u, herr, rfl⟩ := settle_eq_next_iff.1 ht
  · obtain ⟨-, rfl⟩ := encTail_eq_ok_iff.1 hok
    exact ⟨rfl, .inl (.inl rfl)⟩
  · obtain ⟨-, hstop⟩ := encTail_eq_error_iff.1 herr
    cases hstop
    exact progress_raiseError rfl _ _

/-! ### The decoder's steps -/

/-- What is fetched is well-formed (rule R102); so a RUN stands for at least one pixel. -/
theorem wf_of_fetchChunk {s : State} {i : Instr} (h : fetchChunk s = .ok i) : i.wf = true := by
  obtain ⟨-, -, rest, hdec⟩ := fetchChunk_eq_ok_iff.1 h
  exact (decodedBytesReencode _ i rest hdec).1

theorem progress_of_decChunkStep {s t : State} (h : DecInv s) (hlt : s.pxPtr < s.n) (ht : decChunkStep s = .next t) :
    Progress s t := by
  obtain ⟨i, hfetch, hexec⟩ | ⟨c, u, herr, rfl⟩ := decChunkStep_eq_next_iff.1 ht
  · obtain ⟨-, p, rfl⟩ | rfl | ⟨k, rfl, hroom, -, rfl⟩ := exec_eq_next_cases hexec
    · have hfits : ChunkFits s (encode i).length := ⟨encode_length_of_fetchChunk hfetch, hlt, h.n_le_pxCap⟩
      obtain ⟨-, -, -, hpx, -⟩ := pixelCommitted_committed hfits p
      exact ⟨rfl, .inr ⟨rfl, rfl, hlt, by omega⟩⟩
    · exact progress_raiseError rfl _ _
    · obtain ⟨hk, -⟩ := wf_run_iff.1 (wf_of_fetchChunk hfetch)
      exact ⟨rfl, .inr ⟨rfl, rfl, hlt, by rw [afterRun_pxPtr_toNat hroom]; omega⟩⟩
  · obtain ⟨-, rfl⟩ := fetchChunk_eq_error herr
    exact progress_raiseError rfl _ _

theorem progress_of_decFinish {s t : State} (ht : settle .decStep (decFinish s) = .next t) : Progress s t := by
  obtain hok | ⟨c, u, herr, rfl⟩ := settle_eq_next_iff.1 ht
  · obtain ⟨-, rfl⟩ := decFinish_eq_ok_iff.1 hok
    exact ⟨rfl, .inl (.inl rfl)⟩
  · obtain ⟨-, hstop⟩ := decFinish_eq_error_iff.1 herr
    cases hstop
    exact progress_raiseError rfl _ _

/-! ### The running pass -/

theorem progress_of_pipelineMove {s t : State} (h : BlockInv s) (hb : s.busy = true) (ht : pipelineMove s = .next t) :
    Progress s t := by
  obtain ⟨hp, hlt, ht⟩ | ⟨-, -, ht⟩ | ⟨hp, hlt, ht⟩ | ⟨-, -, ht⟩ | ⟨hidle, -⟩ := pipelineMove_eq_next_cases ht
  · exact progress_of_encPixelStep h hp hlt ht
  · exact progress_of_encTail ht
  · exact progress_of_decChunkStep (h.decode hp) hlt ht
  · exact progress_of_decFinish ht
  · simp [hb] at hidle

/-- The pipeline of a state with the invariant neither faults nor is refused. -/
theorem exists_pipelineMove_eq_next {s : State} (h : BlockInv s) : ∃ t, pipelineMove s = .next t := by
  cases hmove : pipelineMove s with
  | next t => exact ⟨t, rfl⟩
  | fault f => exact absurd hmove (pipelineMove_ne_fault h f)
  | refused r => exact absurd hmove (pipelineMove_ne_refused s r)

/-- With no turn pending, an ended pass stays as it is. -/
theorem run_of_ended {t : State} (ht : Ended t) (hturns : t.turns = []) (k : Nat) :
    Host.Core.run core k t = .next t := by
  have hidle : t.busy = false := by obtain hp | hp := ht <;> simp [State.busy, hp]
  induction k with
  | zero => rfl
  | succ k ih =>
    exact run_succ_eq_next_iff.2 ⟨t, (step_of_no_turn hturns).trans (pipelineMove_of_not_busy hidle), ih⟩

/-- Any more steps than pixels left end the pass. -/
theorem run_ends {s : State} {k : Nat} (h : BlockInv s) (hb : s.busy = true) (hturns : s.turns = [])
    (hk : s.n.toNat - s.pxPtr.toNat < k) : ∃ t, Host.Core.run core k s = .next t ∧ Ended t := by
  induction k generalizing s with
  | zero => exact absurd hk (Nat.not_lt_zero _)
  | succ k ih =>
    obtain ⟨u, hmove⟩ := exists_pipelineMove_eq_next h
    have hstep : step s = .next u := (step_of_no_turn hturns).trans hmove
    obtain ⟨hkept, hended | hadvanced⟩ := progress_of_pipelineMove h hb hmove
    · exact ⟨u, run_succ_eq_next_iff.2 ⟨u, hstep, run_of_ended hended (hkept.trans hturns) k⟩, hended⟩
    · obtain ⟨hpass, hcount, hleft, hmoved⟩ := hadvanced
      have hbusy : u.busy = true := by rwa [State.busy, hpass]
      obtain ⟨t, hrun, hended⟩ :=
        ih (stepKeepsInvariant s u h hstep) hbusy (hkept.trans hturns) (by rw [hcount]; omega)
      exact ⟨t, run_succ_eq_next_iff.2 ⟨u, hstep, hrun⟩, hended⟩

/-- Settles O53: the pixels left are fewer than one step for each and one more. -/
theorem everyPassEnds : Obligations.EveryPassEnds :=
  fun _ h hb hturns => run_ends h hb hturns (Nat.lt_succ_self _)

end Sys2Proof.Machine
end

