-- ==== Sys2Proof/Proofs/Errors.lean ====
section
/-! SUPPORT. Errors: their codes (O42), what raising one leaves (O41, rule R283), and how long it stays (O43, rule R288). Of
the moves from ERR only a START and the power-on reset write STATE or ERRCODE. -/

namespace Sys2Proof.Machine

/-- Settles O42. -/
theorem errorCodes : Obligations.ErrorCodes := ⟨rfl, rfl, rfl, rfl, rfl, rfl, rfl, rfl, rfl⟩

/-! ### What raising an error leaves -/

/-- A drawn `RUN_CNT` fits the register (rules R20, R23). -/
theorem drawnRunCnt_toNat (draw : Nat) :
    (BitVec.ofNat 6 (Config.freeRunCnt draw).val).toNat = (Config.freeRunCnt draw).val :=
  (BitVec.toNat_ofNat _ _).trans (Nat.mod_eq_of_lt ((Config.freeRunCnt draw).isLt.trans (by decide)))

theorem pixelWord_raiseError (site : ErrorSite) (c : QoiError) (s : State) (i : Nat) :
    (raiseError site c s).pixelWord i =
      if site = .decStep ∧ i < s.n.toNat then Config.freePixelWord s.draws i else s.pixelWord i := by
  cases site <;> simp [State.pixelWord, Mem.read_drawBelow]

theorem streamByte_raiseError (site : ErrorSite) (c : QoiError) (s : State) (a : Nat) :
    (raiseError site c s).streamByte a =
      if site = .encStep ∧ a < s.cfg.bsCap then Config.freeStreamByte s.draws a else s.streamByte a := by
  cases site <;> simp [State.streamByte, Mem.read_drawBelow]

/-- Settles O41: the registers by unfolding, the memories by the draw of the error's site. -/
theorem raisedErrorState : Obligations.RaisedErrorState := by
  rintro site c s _ rfl
  exact ⟨rfl, failedWith_raiseError site c s, HostValuesKept.refl s, rfl, LatchesKept.refl s,
    pipelineMove_of_not_busy rfl, rfl, drawnRunCnt_toNat _, rfl, rfl, rfl, pixelWord_raiseError site c s,
    streamByte_raiseError site c s⟩

/-! ### How long an error stays -/

/-- STATE and ERRCODE are as before. -/
def ErrorKept (s t : State) : Prop := t.pass = s.pass ∧ t.errcode = s.errcode

/-- Stated of one state; an update of other fields keeps the two by unfolding. -/
theorem ErrorKept.refl (s : State) : ErrorKept s s := ⟨rfl, rfl⟩

theorem RegistersKept.errorKept {s t : State} (h : RegistersKept s t) : ErrorKept s t := by
  obtain ⟨hpass, -, herrcode, -⟩ := h
  exact ⟨hpass, herrcode⟩

theorem errcode_of_encStart {s t : State} (h : encStart s = .ok t) : t.errcode = s.errcode := by
  obtain ⟨-, -, rfl⟩ := encStart_eq_ok_iff.1 h
  rfl

theorem errcode_of_decStart {s t : State} (h : decStart s = .ok t) : t.errcode = s.errcode := by
  obtain ⟨-, -, -, -, -, rfl⟩ := decStart_eq_ok_iff.1 h
  rfl

/-- A `CTRL` write with START = 1 fails again, or clears ERRCODE with the pass reset (rules R253, R321). -/
theorem errcode_of_ctrlWrite {v : Word} {s t : State} (hstart : v.getLsbD 0 = true) (h : ctrlWrite v s = .next t)
    (hp : t.pass ≠ .err) : t.errcode = 0 := by
  rw [ctrlWrite_eq_next_iff, if_pos hstart] at h
  have hok := (settle_pass_cases h).resolve_left hp
  split at hok
  · exact errcode_of_decStart hok
  · exact errcode_of_encStart hok

theorem hostMove_errorKept_or_start {op : HostOp} {s t : State} (h : hostMove op s = .next t) :
    ErrorKept s t ∨ ∃ v, op = .writeReg 0 v ∧ v.getLsbD 0 = true ∧ (t.pass ≠ .err → t.errcode = 0) := by
  obtain ⟨x, rfl⟩ | rfl | ⟨-, i, w, rfl⟩ | ⟨-, a, b, rfl⟩ | ⟨-, r, v, rfl, hr, hctrl⟩ | ⟨-, w, ht, c, d, l, rfl⟩ :=
    hostMove_eq_next_cases h
  · exact .inl (.refl s)
  · exact .inl (.refl t)
  · obtain ⟨⟨hregisters, -⟩, -⟩ := hostWritePixel_frame i w s
    exact .inl hregisters.errorKept
  · obtain ⟨⟨hregisters, -⟩, -⟩ := hostWriteStream_frame a b s
    exact .inl hregisters.errorKept
  · obtain rfl := regOf_eq_ctrl_iff.1 hr
    cases hstart : v.getLsbD 0 with
    | true => exact .inr ⟨v, rfl, hstart, errcode_of_ctrlWrite hstart hctrl⟩
    | false =>
      cases (ctrlWrite_of_no_start hstart s).symm.trans hctrl
      exact .inl (.refl s)
  · exact .inl (.refl s)

theorem pipelineMove_errorKept {s t : State} (hp : s.pass = .err) (h : pipelineMove s = .next t) : ErrorKept s t := by
  have hidle : s.busy = false := by simp [State.busy, hp]
  cases (pipelineMove_of_not_busy hidle).symm.trans h
  exact .refl s

/-- Settles O43, by the agent that moves. -/
theorem errorStaysUntilStartOrReset : Obligations.ErrorStaysUntilStartOrReset := by
  intro s t hp h
  have hstays : ErrorKept s t → t.pass = .err ∧ t.errcode = s.errcode :=
    fun ⟨hpass, herrcode⟩ => ⟨hpass.trans hp, herrcode⟩
  obtain ⟨-, h⟩ | ⟨turn, rest, hs, h⟩ := step_eq_next_cases h
  · exact .inl (hstays (pipelineMove_errorKept hp h))
  · cases turn with
    | host op =>
      obtain hkept | ⟨v, rfl, hstart⟩ := hostMove_errorKept_or_start h
      · exact .inl (hstays hkept)
      · exact .inr (.inr ⟨v, rest, hs, hstart⟩)
    | pipeline => exact .inl (hstays (pipelineMove_errorKept (s := { s with turns := rest }) hp h))
    | powerOn => exact .inr (.inl ⟨rest, hs⟩)

end Sys2Proof.Machine
end

