-- ==== Sys2Proof/Proofs/StartChecks.lean ====
section
/-! SUPPORT. A start reports its first failing check (O17, O20; rules R284, R285). The two starts share the header checks,
whose order is said once (`headerReport_eq`). -/

namespace Sys2Proof.Machine

/-! ### Reports -/

/-- The start answers a state of which the report holds. -/
def StartReports (x : Attempt) (report : State → Prop) : Prop := ∃ t, settle .start x = .next t ∧ report t

theorem StartReports.failed (c : QoiError) (s : State) :
    StartReports (.error (.error c s)) fun t => FailedWith t c.code :=
  ⟨_, rfl, failedWith_raiseError .start c s⟩

theorem StartReports.opened {report : State → Prop} {s : State} (h : report s) : StartReports (.ok s) report :=
  ⟨s, rfl, h⟩

/-- One check of a start, and the same check in the report. -/
theorem StartReports.check {p q : Prop} [Decidable p] [Decidable q] {x y : Attempt} {failed passed : State → Prop}
    (hpq : p ↔ q) (hx : StartReports x failed) (hy : StartReports y passed) :
    StartReports (if p then x else y) fun t => if q then failed t else passed t := by
  by_cases hp : p
  · simpa only [if_pos hp, if_pos (hpq.1 hp)] using hx
  · simpa only [if_neg hp, if_neg (hpq.not.1 hp)] using hy

/-! ### The header checks -/

/-- The report of the header checks of `s`: the error named, or what is reported of a header that passes. -/
def headerReport (s : State) (passed : State → Prop) (t : State) : Prop :=
  match headerError s with
  | some c => FailedWith t c.code
  | none => passed t

/-- The header checks in their order (rules R284, R285). -/
theorem headerReport_eq (s : State) (passed : State → Prop) (t : State) :
    headerReport s passed t =
      if s.hdrC ≠ 3 ∧ s.hdrC ≠ 4 then FailedWith t 2
      else if s.hdrS ≠ 0 ∧ s.hdrS ≠ 1 then FailedWith t 3
      else if s.hdrW = 0 then FailedWith t 4
      else if s.hdrH = 0 then FailedWith t 5
      else if s.hdrW.toNat * s.hdrH.toNat > s.cfg.pxCap then FailedWith t 9
      else passed t := by
  simp only [headerReport, headerError, not_or, ne_eq]
  split_ifs <;> rfl

theorem StartReports.header {s : State} {x : Attempt} {passed : State → Prop}
    (hfail : ∀ c, headerError s = some c → x = .error (.error c s))
    (hpass : headerError s = none → StartReports x passed) : StartReports x (headerReport s passed) := by
  unfold headerReport
  cases h : headerError s with
  | some c => exact hfail c h ▸ .failed c s
  | none => exact hpass h

/-! ### The encode start -/

theorem encStart_reports {s : State} (hroom : 14 ≤ s.cfg.bsCap) :
    StartReports (encStart s) (headerReport (encLatch s) fun t => t.pass = .enc) :=
  .header (fun _ => encStart_of_headerError) fun h => by
    rw [encStart_of_no_headerError h, if_neg (Nat.not_lt.2 hroom)]
    exact .opened rfl

/-- An encode start keeps the pixels and the host's registers, and one that fails keeps the stream (rules R283, C11). -/
theorem encStart_frame {s t : State} (h : settle .start (encStart s) = .next t) :
    HostValuesKept s t ∧ t.px = s.px ∧ (t.pass = .err → t.bs = s.bs) := by
  cases hheader : headerError (encLatch s) with
  | some c =>
    rw [encStart_of_headerError hheader] at h
    cases h
    exact ⟨HostValuesKept.refl s, rfl, fun _ => rfl⟩
  | none =>
    rw [encStart_of_no_headerError hheader] at h
    split at h
    · cases h
      exact ⟨HostValuesKept.refl s, rfl, fun _ => rfl⟩
    · cases h
      exact ⟨HostValuesKept.refl s, rfl, nofun⟩

/-- A START with MODE 0 runs `EncStart` on the reset pass state (rule R253). -/
theorem ctrlWrite_encStart {v : Word} (hstart : v.getLsbD 0 = true) (hmode : v.getLsbD 1 = false) (s : State) :
    ctrlWrite v s = settle .start (encStart (passReset { s with mode := .encode })) := by
  rw [ctrlWrite, hstart, hmode]
  rfl

/-- Settles O20: the checks are those of the header, which has room in any legal stream memory (rule R8). -/
theorem encodeStartReportsFirstFailure : Obligations.EncodeStartReportsFirstFailure := by
  intro s v hb hcfg hstart hmode
  obtain ⟨-, -, hcap, -⟩ := hcfg
  rw [hostMove_writeReg_zero hb, ctrlWrite_encStart hstart hmode]
  obtain ⟨t, ht, hreport⟩ := encStart_reports (s := passReset { s with mode := .encode }) (Nat.le_of_add_left_le hcap)
  obtain ⟨hhost, hpx, hbs⟩ := encStart_frame ht
  rw [headerReport_eq] at hreport
  exact ⟨t, ht, hhost, hpx, hbs, hreport⟩

/-! ### The decode start -/

theorem streamWord_eq_zero_iff {s : State} {a : Nat} : s.streamWord a = 0 ↔ s.streamBytes a 4 = [0, 0, 0, 0] := by
  rw [← be32_streamWord]
  constructor
  · intro h
    rw [h]
    rfl
  · intro h
    simp only [be32, List.cons.injEq] at h
    obtain ⟨h3, h2, h1, h0, -⟩ := h
    rw [← joinBytes_byteOf (s.streamWord a), h3, h2, h1, h0]
    rfl

theorem endMarkerError_eq_true_iff {s : State} :
    endMarkerError s = true ↔ s.l.toNat < 22 ∨ s.streamBytes (s.l.toNat - 8) 8 ≠ endMarker := by
  simp [endMarkerError]

theorem decStartHeader_reports (s : State) :
    StartReports (decStartHeader s)
      (headerReport s fun t =>
        if s.l.toNat < 22 ∨ s.streamBytes (s.l.toNat - 8) 8 ≠ endMarker then FailedWith t 8 else t.pass = .dec) :=
  .header (fun c h => by rw [decStartHeader, h]) fun h => by
    rw [decStartHeader, h]
    exact .check endMarkerError_eq_true_iff (.failed .endMarker _) (.opened rfl)

/-- The checks of rule R201 in their order. -/
theorem decStart_reports (s : State) :
    StartReports (decStart s) fun t =>
      if s.inLen.toNat > s.cfg.bsCap then FailedWith t 9
      else if s.inLen.toNat < 14 then FailedWith t 6
      else if s.streamBytes 0 4 ≠ s.cfg.magic.bytes then FailedWith t 1
      else headerReport (decLatch s) (fun t =>
        if s.inLen.toNat < 22 ∨ s.streamBytes (s.inLen.toNat - 8) 8 ≠ endMarker then FailedWith t 8
        else t.pass = .dec) t :=
  .check .rfl (.failed .capacity _) (.check .rfl (.failed .truncated _) (.check .rfl (.failed .badMagic _)
    (decStartHeader_reports (decLatch (latchLength s)))))

/-- The memories and the registers the host writes are as before. -/
def HostDataKept (s t : State) : Prop := t.px = s.px ∧ t.bs = s.bs ∧ HostValuesKept s t

theorem decStart_endsIn_hostDataKept (s : State) : Attempt.EndsIn (HostDataKept s) (decStart s) := by
  have hkept : HostDataKept s s := ⟨rfl, rfl, HostValuesKept.refl s⟩
  unfold decStart decStartLength decStartHeader
  repeat' split
  all_goals exact hkept

/-- A decode start, passing or failing, touches no memory and no register the host wrote (rules R201, R283). -/
theorem decStart_frame {s t : State} (h : settle .start (decStart s) = .next t) : HostDataKept s t := by
  have hends := decStart_endsIn_hostDataKept s
  obtain hok | ⟨c, u, herr, rfl⟩ := settle_eq_next_iff.1 h
  · exact hends.of_eq_ok hok
  · rw [herr] at hends
    exact hends

/-- Settles O17: the checks of the start in their order, with the words of the header as the bytes they are read from. -/
theorem decodeStartReportsFirstFailure : Obligations.DecodeStartReportsFirstFailure := by
  intro s v hb _ hstart hmode
  rw [hostMove_writeReg_zero hb, ctrlWrite_decStart hstart hmode]
  obtain ⟨t, ht, hreport⟩ := decStart_reports (passReset { s with mode := .decode })
  obtain ⟨hpx, hbs, hhost⟩ := decStart_frame ht
  simp only [headerReport_eq, decLatch_hdrW, decLatch_hdrH, streamWord_eq_zero_iff] at hreport
  exact ⟨t, ht, hpx, hbs, hhost, hreport⟩

end Sys2Proof.Machine
end

