-- ==== Sys2Proof/Proofs/PowerOnReset.lean ====
section
/-! SUPPORT. What the power-on reset leaves (O44; rules R46, R320). -/

namespace Sys2Proof.Machine

theorem statusWord_of_idle {s : State} (h : s.pass = .idle) : statusWord s = 0 := by
  simp [statusWord, State.errField, State.errFlag, State.doneFlag, State.busy, h]

theorem readReg_powerOnReset (s : State) (r : RegNum) : readReg (powerOnReset s) r = 0 := by
  unfold readReg
  cases regOf r with
  | status => exact statusWord_of_idle rfl
  | _ => rfl

theorem pixelWord_powerOnReset (s : State) (i : Nat) :
    (powerOnReset s).pixelWord i = if i < s.cfg.pxCap then Config.freePixelWord s.draws i else s.pixelWord i :=
  Mem.read_drawBelow ..

theorem streamByte_powerOnReset (s : State) (a : Nat) :
    (powerOnReset s).streamByte a = if a < s.cfg.bsCap then Config.freeStreamByte s.draws a else s.streamByte a :=
  Mem.read_drawBelow ..

end Sys2Proof.Machine

namespace Sys2Proof
open Machine

/-- Settles O44: the datapath registers by unfolding, the memories by a draw over their whole capacity; IDLE is not busy, so
nothing steps. -/
theorem powerOnReset : Obligations.PowerOnReset := by
  intro s
  have hpixels : ∀ i < s.cfg.pxCap, (Machine.powerOnReset s).pixelWord i = Config.freePixelWord s.draws i :=
    fun i hi => (pixelWord_powerOnReset s i).trans (if_pos hi)
  have hstream : ∀ a < s.cfg.bsCap, (Machine.powerOnReset s).streamByte a = Config.freeStreamByte s.draws a :=
    fun a ha => (streamByte_powerOnReset s a).trans (if_pos ha)
  exact ⟨Machine.powerOnReset s, rfl, rfl, readReg_powerOnReset s, rfl, rfl, drawnRunCnt_toNat s.draws, rfl, rfl, rfl, rfl,
    rfl, rfl, rfl, rfl, rfl, rfl, hpixels, hstream, rfl, pipelineMove_of_not_busy rfl⟩

end Sys2Proof
end
